-- ==== Sys2Proof/Word.lean ====
section
/-! DEFINITION. The two word types of the block: binary32 bit patterns and 64-bit command words. -/

namespace Sys2Proof

/-- A binary32 value, held as its bit pattern: bit 31 sign, bits 30:23 biased exponent, bits 22:0 fraction
(00_scope.md R13). Every real-valued register, port and intermediate result of the block has this type. -/
abbrev F32 := BitVec 32

/-- A host command word (30_encoding.md R90): one length, 64 bits, bit 0 the least significant. -/
abbrev CmdWord := BitVec 64

end Sys2Proof
end

