-- ==== Sys2Proof/Syntax.lean ====
section
/-! DEFINITION. The commands of the SSC-VE command set, version 1, their rejection causes, and the assembler's
pseudo-instructions, as syntax. -/

namespace Sys2Proof

/-- The host commands: one constructor per row of `opcode_table.json` (30_encoding.md R92 to R96). A note operand is
the 8-bit `zext_8(w[46:40])` of R95; a value operand is the raw binary32 pattern `w[31:0]`, a count the unsigned
`w[31:0]` (R96). -/
inductive Instr where
  /-- `NOP`, OP `0x00`. -/
  | nop
  /-- `NOTE_ON note, velocity`, OP `0x01`. -/
  | noteOn (note : BitVec 8) (velocity : F32)
  /-- `NOTE_OFF note`, OP `0x02`. -/
  | noteOff (note : BitVec 8)
  /-- `SET_ATTACK value`, OP `0x03`, ID 0. -/
  | setAttack (value : F32)
  /-- `SET_DECAY value`, OP `0x03`, ID 1. -/
  | setDecay (value : F32)
  /-- `SET_SUSTAIN value`, OP `0x03`, ID 2. -/
  | setSustain (value : F32)
  /-- `SET_RELEASE value`, OP `0x03`, ID 3. -/
  | setRelease (value : F32)
  /-- `SET_VOLUME value`, OP `0x03`, ID 4. -/
  | setVolume (value : F32)
  /-- `SET_WAVEFORM value`, OP `0x03`, ID 5. -/
  | setWaveform (value : F32)
  /-- `RENDER count`, OP `0x04`. -/
  | render (count : BitVec 32)
  /-- `RESET`, OP `0x05`. -/
  | reset
deriving DecidableEq, Repr

/-- Why a command word is rejected (60_exceptions.md R241, codes 1 to 4). -/
inductive Cause where
  | unknownOp
  | reservedNonzero
  | badParamId
  | operandRange
deriving DecidableEq, Repr

/-- The result of decoding a word: exactly one command, or exactly one cause (30_encoding.md R99). -/
inductive Decoded where
  | cmd (i : Instr)
  | reject (c : Cause)
deriving DecidableEq, Repr

/-- The pseudo-instructions of the assembler (30_encoding.md R102). -/
inductive Pseudo where
  | setAdsr (a d s r : F32)
  | allNotesOff
  | panic
deriving DecidableEq, Repr

end Sys2Proof
end

