-- ==== Sys2Proof/WellFormed.lean ====
section
/-! DEFINITION. Which instructions have an encoding. The one check is that a note number fits the 7-bit NOTE field;
operand ranges are no part of it, since they are checked at execution (30_encoding.md R98). -/

namespace Sys2Proof

/-- A note number the 7-bit field `w[46:40]` can hold, 0..127 (30_encoding.md R95). -/
def noteFits (note : BitVec 8) : Bool := decide (note.toNat ≤ 127)

/-- The instruction can be written as a command word. -/
def Instr.wellFormed : Instr → Bool
  | .nop => true
  | .noteOn note _ => noteFits note
  | .noteOff note => noteFits note
  | .setAttack _ => true
  | .setDecay _ => true
  | .setSustain _ => true
  | .setRelease _ => true
  | .setVolume _ => true
  | .setWaveform _ => true
  | .render _ => true
  | .reset => true

end Sys2Proof
end

