-- ==== Sys2Proof/Decode.lean ====
section
/-! DEFINITION. From command words to commands and back: the fields of format C, the decoder (total on all 2^64
words), the opcode table as data, the encoder, the byte serialisation and the pseudo-instructions' expansions. -/

namespace Sys2Proof

/-! ### Fields of format C (30_encoding.md R91) -/

/-- OP, `w[63:56]`. -/
def opField (w : CmdWord) : BitVec 8 := w.extractLsb' 56 8

/-- ID, `w[55:48]`. -/
def idField (w : CmdWord) : BitVec 8 := w.extractLsb' 48 8

/-- NOTE, `zext_8(w[46:40])` (30_encoding.md R95). -/
def noteField (w : CmdWord) : BitVec 8 := (w.extractLsb' 40 7).zeroExtend 8

/-- IMM, `w[31:0]`; no conversion at decode (30_encoding.md R96). -/
def immField (w : CmdWord) : BitVec 32 := w.extractLsb' 0 32

/-! ### Decoder (30_encoding.md R92 to R94, R99) -/

/-- The must-be-zero bits of each allocated opcode (30_encoding.md R93; the masks are those of R99). -/
def mustBeZero (op : BitVec 8) : CmdWord :=
  match op.toNat with
  | 0 => 0x00FFFFFFFFFFFFFF
  | 1 => 0x00FF80FF00000000
  | 2 => 0x00FF80FFFFFFFFFF
  | 3 => 0x0000FFFF00000000
  | 4 => 0x00FFFFFF00000000
  | _ => 0x00FFFFFFFFFFFFFF

/-- The `SET_*` command of a parameter number (30_encoding.md R94); `none` above 5. -/
def setCommand (id : BitVec 8) (value : F32) : Option Instr :=
  match id.toNat with
  | 0 => some (.setAttack value)
  | 1 => some (.setDecay value)
  | 2 => some (.setSustain value)
  | 3 => some (.setRelease value)
  | 4 => some (.setVolume value)
  | 5 => some (.setWaveform value)
  | _ => none

/-- The command of a word whose must-be-zero bits are zero (30_encoding.md R92, R94): check (3) of R99 is the `none`
of `setCommand`. -/
def commandOf (w : CmdWord) : Decoded :=
  match (opField w).toNat with
  | 0 => .cmd .nop
  | 1 => .cmd (.noteOn (noteField w) (immField w))
  | 2 => .cmd (.noteOff (noteField w))
  | 3 =>
    match setCommand (idField w) (immField w) with
    | some i => .cmd i
    | none => .reject .badParamId
  | 4 => .cmd (.render (immField w))
  | 5 => .cmd .reset
  | _ => .reject .unknownOp

/-- Decoding, total on all 2^64 words, with the checks in the order of 30_encoding.md R99; the operand range check
(R98) is made by the command's own rule. -/
def decode (w : CmdWord) : Decoded :=
  if (opField w).toNat > 5 then .reject .unknownOp
  else if w &&& mustBeZero (opField w) ≠ 0 then .reject .reservedNonzero
  else commandOf w

/-! ### The opcode table as data (opcode_table.json) -/

/-- One row of `opcode_table.json`: a word is the row's when its bits under `mask` equal `pattern`. -/
structure Row where
  mnemonic : String
  pattern  : CmdWord
  mask     : CmdWord
deriving DecidableEq, Repr

/-- A word selects a row (30_encoding.md R99). -/
def Row.selects (r : Row) (w : CmdWord) : Bool := w &&& r.mask == r.pattern

/-- The row of each instruction. -/
def rowOf : Instr → Row
  | .nop           => ⟨"NOP",          0x0000000000000000, 0xFFFFFFFFFFFFFFFF⟩
  | .noteOn _ _    => ⟨"NOTE_ON",      0x0100000000000000, 0xFFFF80FF00000000⟩
  | .noteOff _     => ⟨"NOTE_OFF",     0x0200000000000000, 0xFFFF80FFFFFFFFFF⟩
  | .setAttack _   => ⟨"SET_ATTACK",   0x0300000000000000, 0xFFFFFFFF00000000⟩
  | .setDecay _    => ⟨"SET_DECAY",    0x0301000000000000, 0xFFFFFFFF00000000⟩
  | .setSustain _  => ⟨"SET_SUSTAIN",  0x0302000000000000, 0xFFFFFFFF00000000⟩
  | .setRelease _  => ⟨"SET_RELEASE",  0x0303000000000000, 0xFFFFFFFF00000000⟩
  | .setVolume _   => ⟨"SET_VOLUME",   0x0304000000000000, 0xFFFFFFFF00000000⟩
  | .setWaveform _ => ⟨"SET_WAVEFORM", 0x0305000000000000, 0xFFFFFFFF00000000⟩
  | .render _      => ⟨"RENDER",       0x0400000000000000, 0xFFFFFFFF00000000⟩
  | .reset         => ⟨"RESET",        0x0500000000000000, 0xFFFFFFFFFFFFFFFF⟩

/-- The eleven rows, in the table's order. -/
def opcodeTable : List Row :=
  [rowOf .nop, rowOf (.noteOn 0 0), rowOf (.noteOff 0), rowOf (.setAttack 0), rowOf (.setDecay 0),
    rowOf (.setSustain 0), rowOf (.setRelease 0), rowOf (.setVolume 0), rowOf (.setWaveform 0),
    rowOf (.render 0), rowOf .reset]

/-! ### Encoder (30_encoding.md R91 to R94) -/

/-- Format C assembled from its fields, RSV1 and RSV0 zero (30_encoding.md R91). -/
def formatC (op id : BitVec 8) (note : BitVec 8) (imm : BitVec 32) : CmdWord :=
  op ++ id ++ 0#1 ++ note.truncate 7 ++ 0#8 ++ imm

/-- The command word of an instruction. -/
def encode : Instr → CmdWord
  | .nop => formatC 0x00 0 0 0
  | .noteOn note velocity => formatC 0x01 0 note velocity
  | .noteOff note => formatC 0x02 0 note 0
  | .setAttack value => formatC 0x03 0 0 value
  | .setDecay value => formatC 0x03 1 0 value
  | .setSustain value => formatC 0x03 2 0 value
  | .setRelease value => formatC 0x03 3 0 value
  | .setVolume value => formatC 0x03 4 0 value
  | .setWaveform value => formatC 0x03 5 0 value
  | .render count => formatC 0x04 0 0 count
  | .reset => formatC 0x05 0 0 0

/-! ### Byte serialisation (20_memory.md R75) -/

/-- A command word over a byte-wide channel, least significant byte first. -/
def bytesOfWord (w : CmdWord) : List (BitVec 8) :=
  [w.extractLsb' 0 8, w.extractLsb' 8 8, w.extractLsb' 16 8, w.extractLsb' 24 8,
    w.extractLsb' 32 8, w.extractLsb' 40 8, w.extractLsb' 48 8, w.extractLsb' 56 8]

/-- The first whole command word of a byte stream, with the rest of the stream; `none` when fewer than eight bytes are
there: a partially written word does not exist (20_memory.md R77). -/
def wordOfBytes : List (BitVec 8) → Option (CmdWord × List (BitVec 8))
  | b0 :: b1 :: b2 :: b3 :: b4 :: b5 :: b6 :: b7 :: rest =>
    some (b7 ++ b6 ++ b5 ++ b4 ++ b3 ++ b2 ++ b1 ++ b0, rest)
  | _ => none

/-- A 32-bit word over a byte-wide channel, least significant byte first: an observation word, or one sample of a frame,
whose sign bit is then in the last byte (20_memory.md R75). -/
def bytesOfWord32 (w : BitVec 32) : List (BitVec 8) :=
  [w.extractLsb' 0 8, w.extractLsb' 8 8, w.extractLsb' 16 8, w.extractLsb' 24 8]

/-- The first whole 32-bit word of a byte stream, with the rest of the stream. -/
def wordOfBytes32 : List (BitVec 8) → Option (BitVec 32 × List (BitVec 8))
  | b0 :: b1 :: b2 :: b3 :: rest => some (b3 ++ b2 ++ b1 ++ b0, rest)
  | _ => none

/-- Decoding from a byte stream: total on any bytes. -/
def decodeBytes (bs : List (BitVec 8)) : Option (Decoded × List (BitVec 8)) :=
  (wordOfBytes bs).map fun p => (decode p.1, p.2)

/-! ### The host's reading of a table row's word -/

/-- The word whose low `nbits` bits are those of `w`, every other bit 0. -/
def tableWord (nbits w : Nat) : CmdWord := BitVec.ofNat 64 (w % 2 ^ nbits)

/-- The instruction the decoder reads from a word numbered as `opcode_table.json` numbers it; `none` where it rejects. The
word goes through the byte serialisation, as the hardware's channel carries it. -/
def decodeTableWord (nbits w : Nat) : Option Instr :=
  match decodeBytes (bytesOfWord (tableWord nbits w)) with
  | some (.cmd i, _) => some i
  | some (.reject _, _) => none
  | none => none

/-! ### Pseudo-instructions (30_encoding.md R102) -/

/-- The expansion of a pseudo-instruction, in order. -/
def expand : Pseudo → List Instr
  | .setAdsr a d s r => [.setAttack a, .setDecay d, .setSustain s, .setRelease r]
  | .allNotesOff => (List.range 128).map fun n => .noteOff (BitVec.ofNat 8 n)
  | .panic => [.reset]

end Sys2Proof
end

