-- ==== Sys2Proof/Config.lean ====
section
/-! DEFINITION. What one instance of the block fixes: the OPEN parameter `INIT_PARAMS`, the sample rate that
`State.reset` is activated with, and the one free value of the model. -/

namespace Sys2Proof

/-- `INIT_PARAMS`, the six global parameter values at activation (00_scope.md R12, 10_state.md R58). The spec leaves
them OPEN: `State.activated` takes them as an argument, and claims quantify over them. -/
structure InitParams where
  attack   : F32
  decay    : F32
  sustain  : F32
  release  : F32
  volume   : F32
  waveform : BitVec 3
deriving DecidableEq, Repr

namespace Config

/-- DESIGN CHOICE (log entry 1): the `INIT_PARAMS` of `State.reset`, all zero, which are admitted values. -/
def initParams : InitParams :=
  { attack := 0, decay := 0, sustain := 0, release := 0, volume := 0, waveform := 0 }

/-- DESIGN CHOICE (log entry 2): the configuration input that `State.reset` is activated with, 44100.0 Hz
(`0x472C4400`, the rate of 10_state.md R49). -/
def sampleRate : F32 := 0x472C4400

/-- Free value (log entry 3): the sine of an operand for which the model's bracket of the real sine does not single
out one binary32 value, or of an infinity or NaN. Nothing is known of it; `sin32` keeps only its bound
for a finite operand, and the one NaN pattern for another. -/
opaque sineOpen : F32 → F32

end Config

end Sys2Proof
end

