-- ==== Sys2Proof/Machine/Float.lean ====
section
/-! DEFINITION. IEEE 754 binary32 arithmetic on bit patterns (00_scope.md R13 to R16, R19): every operation computes
the exact result in whole numbers and rounds it once, to nearest, ties to even.

Every finite binary32 value is a whole number of UNITS of 2^-149, the smallest subnormal. Magnitude bits (the pattern
less its sign) order the magnitudes, and the magnitude bits of infinity are those of 2^128 in the same scheme. -/

namespace Sys2Proof.Machine

/-! ### Fields and classes -/

/-- The sign, bit 31 (00_scope.md R13). -/
def f32Sign (x : F32) : Bool := decide (2 ^ 31 ≤ x.toNat)

/-- The magnitude bits 30:0. -/
def f32Mag (x : F32) : Nat := x.toNat % 2 ^ 31

/-- The magnitude bits of infinity. -/
def infMag : Nat := 0x7F800000

/-- A NaN: exponent 255, fraction not 0. -/
def f32IsNaN (x : F32) : Bool := decide (infMag < f32Mag x)

/-- An infinity of either sign. -/
def f32IsInf (x : F32) : Bool := decide (f32Mag x = infMag)

/-- A finite value: neither an infinity nor a NaN. -/
def f32IsFinite (x : F32) : Bool := decide (f32Mag x < infMag)

/-- A pattern from its sign and magnitude bits. -/
def f32Pack (sign : Bool) (mag : Nat) : F32 := BitVec.ofNat 32 (if sign then 2 ^ 31 + mag else mag)

/-- The one NaN result (00_scope.md R16). -/
def f32NaN : F32 := 0x7FC00000

/-- A result that may be a NaN, with the one NaN in place of any other (00_scope.md R16). -/
def f32Canonical (x : F32) : F32 := if f32IsNaN x then f32NaN else x

/-! ### Exact values -/

/-- The value of magnitude bits, in units of 2^-149: the fraction alone when the biased exponent is 0, else the
significand with its hidden bit, scaled (00_scope.md R13). -/
def magUnits (mag : Nat) : Nat :=
  if mag / 2 ^ 23 = 0 then mag else (2 ^ 23 + mag % 2 ^ 23) * 2 ^ (mag / 2 ^ 23 - 1)

/-- The exact value of a pattern in units of 2^-149. For an infinity it is ±2^277, beyond every finite value. -/
def f32Units (x : F32) : Int := if f32Sign x then -(magUnits (f32Mag x) : Int) else magUnits (f32Mag x)

/-! ### Rounding (00_scope.md R14) -/

/-- `n ÷ d` rounded to the nearest whole number, ties to even. -/
def roundDiv (n d : Nat) : Nat :=
  if 2 * (n % d) < d then n / d
  else if d < 2 * (n % d) then n / d + 1
  else n / d + n / d % 2

/-- How far the significand's last bit stands above 2^-149 for the magnitude `n ÷ d` units. -/
def roundScale (n d : Nat) : Nat := Nat.log2 (n / d) - 23

/-- The magnitude bits nearest to `n ÷ d` units, ties to even; a value that rounds to 2^128 or more gives infinity. -/
def roundMag (n d : Nat) : Nat :=
  min (roundScale n d * 2 ^ 23 + roundDiv n (d * 2 ^ roundScale n d)) infMag

/-- The binary32 value nearest to a whole number of units; `+0` for 0. -/
def roundUnits (z : Int) : F32 := f32Pack (decide (z < 0)) (roundMag z.natAbs 1)

/-! ### The operations (00_scope.md R14, R16) -/

/-- Unary minus: flips the sign bit exactly (00_scope.md R14); of a NaN it gives the one NaN of R16 (log entry 8). -/
def f32Neg (x : F32) : F32 := f32Canonical (x ^^^ 0x80000000)

/-- `a + b`. An exact zero sum is `−0` when both operands are negative zeros, else `+0`. -/
def f32Add (a b : F32) : F32 :=
  if f32IsNaN a || f32IsNaN b then f32NaN
  else if f32IsInf a then if f32IsInf b && (f32Sign a != f32Sign b) then f32NaN else a
  else if f32IsInf b then b
  else if f32Units a + f32Units b = 0 then f32Pack (f32Sign a && f32Sign b) 0
  else roundUnits (f32Units a + f32Units b)

/-- `a − b`, the sum with the sign of `b` flipped. -/
def f32Sub (a b : F32) : F32 := f32Add a (f32Neg b)

/-- The sign of a product or quotient. -/
def f32SignXor (a b : F32) : Bool := f32Sign a != f32Sign b

/-- `a × b`. -/
def f32Mul (a b : F32) : F32 :=
  if f32IsNaN a || f32IsNaN b then f32NaN
  else if f32IsInf a || f32IsInf b then
    if f32Mag a = 0 ∨ f32Mag b = 0 then f32NaN else f32Pack (f32SignXor a b) infMag
  else f32Pack (f32SignXor a b) (roundMag (magUnits (f32Mag a) * magUnits (f32Mag b)) (2 ^ 149))

/-- `a ÷ b`. -/
def f32Div (a b : F32) : F32 :=
  if f32IsNaN a || f32IsNaN b then f32NaN
  else if f32IsInf a then if f32IsInf b then f32NaN else f32Pack (f32SignXor a b) infMag
  else if f32IsInf b then f32Pack (f32SignXor a b) 0
  else if f32Mag b = 0 then if f32Mag a = 0 then f32NaN else f32Pack (f32SignXor a b) infMag
  else f32Pack (f32SignXor a b) (roundMag (magUnits (f32Mag a) * 2 ^ 149) (magUnits (f32Mag b)))

/-! ### Comparisons (00_scope.md R15): false with any NaN; `+0 == −0` -/

/-- Neither operand is a NaN. -/
def f32Ordered (a b : F32) : Bool := !(f32IsNaN a || f32IsNaN b)

/-- `a < b`. -/
def f32Lt (a b : F32) : Bool := f32Ordered a b && decide (f32Units a < f32Units b)

/-- `a ≤ b`. -/
def f32Le (a b : F32) : Bool := f32Ordered a b && decide (f32Units a ≤ f32Units b)

/-- `a == b`. -/
def f32Eq (a b : F32) : Bool := f32Ordered a b && decide (f32Units a = f32Units b)

/-- `a ≥ b`. -/
def f32Ge (a b : F32) : Bool := f32Le b a

/-- `a > b`. -/
def f32Gt (a b : F32) : Bool := f32Lt b a

/-- `k > x` for an unsigned integer `k`, comparing the exact real values (00_scope.md R15, 40_voice.md R127). -/
def natGtF32 (k : Nat) (x : F32) : Bool := !f32IsNaN x && decide (f32Units x < (k : Int) * 2 ^ 149)

/-! ### Conversions (00_scope.md R19) -/

/-- `f32(k)`, exact for `|k| < 2^24`. -/
def f32OfInt (k : Int) : F32 := roundUnits (k * 2 ^ 149)

/-- `trunc(x)`: the integer part of a finite value, rounded toward zero. -/
def f32Trunc (x : F32) : Int :=
  if f32Sign x then -((magUnits (f32Mag x) / 2 ^ 149 : Nat) : Int) else (magUnits (f32Mag x) / 2 ^ 149 : Nat)

end Sys2Proof.Machine
end

