-- ==== Sys2Proof/Machine/Consts.lean ====
section
/-! DEFINITION. The named constants of the block (00_scope.md R5 to R9, R17) and the frequency ROM (40_voice.md R121). -/

namespace Sys2Proof.Machine

/-- `N`, the number of voices (00_scope.md R5). The bank's type, `Vector Voice 16`, carries the same number. -/
def numVoices : Nat := 16

/-- `+0.0` (00_scope.md R17). -/
def c0 : F32 := 0x00000000
/-- `1.0` (00_scope.md R17). -/
def c1 : F32 := 0x3F800000
/-- `−1.0`, the sign flip of `1.0`. -/
def cNeg1 : F32 := 0xBF800000
/-- `2.0` (00_scope.md R17). -/
def c2 : F32 := 0x40000000
/-- `3.0` (00_scope.md R17). -/
def c3 : F32 := 0x40400000
/-- `8.0`, the bound of the waveform operand (30_encoding.md R98). -/
def c8 : F32 := 0x41000000
/-- `AGE_SECONDS = 30.0` (00_scope.md R6). -/
def ageSeconds : F32 := 0x41F00000
/-- `RELEASE_FLOOR`, the binary32 value nearest to 0.001 (00_scope.md R7). -/
def releaseFloor : F32 := 0x3A83126F
/-- `PI32` (00_scope.md R17). -/
def pi32 : F32 := 0x40490FDB
/-- `TWO_PI32` (00_scope.md R17). -/
def twoPi32 : F32 := 0x40C90FDB
/-- `HALF_PI32` (00_scope.md R17). -/
def halfPi32 : F32 := 0x3FC90FDB
/-- `TUNING_HZ` (00_scope.md R8). -/
def tuningHz : Nat := 440
/-- `TUNING_NOTE` (00_scope.md R8). -/
def tuningNote : Nat := 69
/-- `STEPS_PER_OCTAVE` (00_scope.md R8). -/
def stepsPerOctave : Nat := 12
/-- The lowest admitted sample rate, 1.0 (00_scope.md R11). -/
def rateMin : F32 := 0x3F800000
/-- The highest admitted sample rate, 1000000.0 (00_scope.md R11). -/
def rateMax : F32 := 0x49742400

/-- The sample rate is admitted at activation: `1.0 ≤ SR ≤ 1000000.0` (00_scope.md R11, 70_reset_and_hazards.md R261). -/
def rateAdmitted (sr : F32) : Bool := f32Le rateMin sr && f32Le sr rateMax

/-- `G.AGE_LIMIT = G.SR × 30.0`, one rounding (10_state.md R49). -/
def ageLimitOf (sr : F32) : F32 := f32Mul sr ageSeconds

/-- Entries 0 to 31 of the frequency ROM (40_voice.md R121). -/
def freqRomA : List F32 :=
  [0x4102D013, 0x410A9760, 0x4112D517, 0x411B9041, 0x4124D054, 0x412E9D37, 0x4138FF49, 0x4143FF6A,
    0x414FA700, 0x415C0000, 0x416914F6, 0x4176F110, 0x4182D013, 0x418A9760, 0x4192D517, 0x419B9041,
    0x41A4D054, 0x41AE9D37, 0x41B8FF49, 0x41C3FF6A, 0x41CFA700, 0x41DC0000, 0x41E914F6, 0x41F6F110,
    0x4202D013, 0x420A9760, 0x4212D517, 0x421B9041, 0x4224D054, 0x422E9D37, 0x4238FF49, 0x4243FF6A]

/-- Entries 32 to 63. -/
def freqRomB : List F32 :=
  [0x424FA700, 0x425C0000, 0x426914F6, 0x4276F110, 0x4282D013, 0x428A9760, 0x4292D517, 0x429B9041,
    0x42A4D054, 0x42AE9D37, 0x42B8FF49, 0x42C3FF6A, 0x42CFA700, 0x42DC0000, 0x42E914F6, 0x42F6F110,
    0x4302D013, 0x430A9760, 0x4312D517, 0x431B9041, 0x4324D054, 0x432E9D37, 0x4338FF49, 0x4343FF6A,
    0x434FA700, 0x435C0000, 0x436914F6, 0x4376F110, 0x4382D013, 0x438A9760, 0x4392D517, 0x439B9041]

/-- Entries 64 to 95. -/
def freqRomC : List F32 :=
  [0x43A4D054, 0x43AE9D37, 0x43B8FF49, 0x43C3FF6A, 0x43CFA700, 0x43DC0000, 0x43E914F6, 0x43F6F110,
    0x4402D013, 0x440A9760, 0x4412D517, 0x441B9041, 0x4424D054, 0x442E9D37, 0x4438FF49, 0x4443FF6A,
    0x444FA700, 0x445C0000, 0x446914F6, 0x4476F110, 0x4482D013, 0x448A9760, 0x4492D517, 0x449B9041,
    0x44A4D054, 0x44AE9D37, 0x44B8FF49, 0x44C3FF6A, 0x44CFA700, 0x44DC0000, 0x44E914F6, 0x44F6F110]

/-- Entries 96 to 127. -/
def freqRomD : List F32 :=
  [0x4502D013, 0x450A9760, 0x4512D517, 0x451B9041, 0x4524D054, 0x452E9D37, 0x4538FF49, 0x4543FF6A,
    0x454FA700, 0x455C0000, 0x456914F6, 0x4576F110, 0x4582D013, 0x458A9760, 0x4592D517, 0x459B9041,
    0x45A4D054, 0x45AE9D37, 0x45B8FF49, 0x45C3FF6A, 0x45CFA700, 0x45DC0000, 0x45E914F6, 0x45F6F110,
    0x4602D013, 0x460A9760, 0x4612D517, 0x461B9041, 0x4624D054, 0x462E9D37, 0x4638FF49, 0x4643FF6A]

/-- `FREQ_ROM`, 128 entries (40_voice.md R121). -/
def freqRomTable : List F32 := freqRomA ++ freqRomB ++ freqRomC ++ freqRomD

/-- `FREQ_ROM[n]`; the table has an entry for every 7-bit note. -/
def freqRom (note : BitVec 7) : F32 := freqRomTable.getD note.toNat c0

end Sys2Proof.Machine
end

