-- ==== Sys2Proof/Machine/Operands.lean ====
section
/-! DEFINITION. The operand forms of the commands: the note number, the admitted ranges and the waveform selector
(30_encoding.md R95 to R98). -/

namespace Sys2Proof.Machine

/-- The note number as the 7-bit register holds it (30_encoding.md R95, 10_state.md R32). -/
def noteIndex (note : BitVec 8) : BitVec 7 := note.truncate 7

/-- `0 ≤ v ≤ 1`: a velocity, a sustain level or a volume (30_encoding.md R98). NaN fails. -/
def inUnitRange (v : F32) : Bool := f32Le c0 v && f32Le v c1

/-- `v ≥ 0`: a duration (30_encoding.md R98); `−0` and `+∞` pass, NaN fails. -/
def isDuration (v : F32) : Bool := f32Ge v c0

/-- `−1 < v < 8`: a waveform operand (30_encoding.md R98). NaN fails. -/
def inWaveRange (v : F32) : Bool := f32Lt cNeg1 v && f32Lt v c8

/-- The selector that a waveform operand stores, `trunc(v)` in 3 bits (30_encoding.md R97, 43_pool_commands.md R209). -/
def waveSelect (v : F32) : BitVec 3 := BitVec.ofInt 3 (f32Trunc v)

/-- The operand range check of a command (30_encoding.md R98, 60_exceptions.md R241). -/
def operandAdmitted : Instr → Bool
  | .nop => true
  | .noteOn _ velocity => inUnitRange velocity
  | .noteOff _ => true
  | .setAttack value => isDuration value
  | .setDecay value => isDuration value
  | .setSustain value => inUnitRange value
  | .setRelease value => isDuration value
  | .setVolume value => inUnitRange value
  | .setWaveform value => inWaveRange value
  | .render _ => true
  | .reset => true

/-- `INIT_PARAMS` are admitted values (10_state.md R58, 70_reset_and_hazards.md R260). -/
def initAdmitted (p : InitParams) : Bool :=
  isDuration p.attack && isDuration p.decay && inUnitRange p.sustain && isDuration p.release && inUnitRange p.volume

end Sys2Proof.Machine
end

