-- ==== Sys2Proof/Machine/State.lean ====
section
/-! DEFINITION. The state of the block (10_state.md), the reasons a transition can stop, and the state after the
activation reset. -/

namespace Sys2Proof.Machine

/-- `V[i].ENV_STATE` (10_state.md R37). The codes 5, 6 and 7 never occur, so they have no constructor. -/
inductive EnvState where
  | idle
  | attack
  | decay
  | sustain
  | release
deriving DecidableEq, Repr

/-- One voice register set `V[i]` (10_state.md R31 to R42). -/
structure Voice where
  /-- `ACTIVE`, 1 bit (R31). -/
  active   : Bool
  /-- `NOTE`, 7 bits (R32). -/
  note     : BitVec 7
  /-- `VELOCITY` (R33). -/
  velocity : F32
  /-- `FREQ` (R34). -/
  freq     : F32
  /-- `PHASE` (R35). -/
  phase    : F32
  /-- `PHASE_INC` (R36). -/
  phaseInc : F32
  /-- `ENV_STATE` (R37). -/
  envState : EnvState
  /-- `ENV_LEVEL` (R38). -/
  envLevel : F32
  /-- `ENV_INC` (R39). -/
  envInc   : F32
  /-- The voice's copy of `ATTACK` (R40). -/
  attack   : F32
  /-- The voice's copy of `DECAY` (R40). -/
  decay    : F32
  /-- The voice's copy of `SUSTAIN` (R40). -/
  sustain  : F32
  /-- The voice's copy of `RELEASE` (R40). -/
  release  : F32
  /-- `WAVEFORM`, 3 bits (R41). -/
  waveform : BitVec 3
  /-- `AGE`, 32 bits (R42). -/
  age      : BitVec 32
deriving DecidableEq, Repr

/-- The global registers `G` (10_state.md R45 to R52). -/
structure Globals where
  /-- `G.ATTACK` (R45). -/
  attack   : F32
  /-- `G.DECAY` (R45). -/
  decay    : F32
  /-- `G.SUSTAIN` (R45). -/
  sustain  : F32
  /-- `G.RELEASE` (R45). -/
  release  : F32
  /-- `G.VOLUME` (R46). -/
  volume   : F32
  /-- `G.WAVEFORM`, 3 bits (R47). -/
  waveform : BitVec 3
  /-- `G.SR` (R48). -/
  sr       : F32
  /-- `G.AGE_LIMIT` (R49). -/
  ageLimit : F32
  /-- `G.CURSOR`, 4 bits (R50). -/
  cursor   : BitVec 4
  /-- `G.ERR`, 1 bit (R51). -/
  err      : Bool
  /-- `G.ERR_CAUSE`, 3 bits (R52). -/
  errCause : BitVec 3
deriving DecidableEq, Repr

/-- One output frame, the pair `(L, R)` (20_memory.md R72). -/
structure Frame where
  left  : F32
  right : F32
deriving DecidableEq, Repr

/-- Why the model stops with a fault. The block has no trap (60_exceptions.md R246): both are faults of the model. -/
inductive Fault where
  /-- An `ENV_STATE` code 5, 6 or 7 in a VCTRL word that a host decodes: raised by `decodeVctrl` only, "a fault of the
  observation, not of the block" (93_implementation_defined.md I9). Safe: the block never presents such a word. -/
  | envStateCode (code : BitVec 3)
  /-- A step that computes a NaN: raised by `step` only, through `faultOnNaN`, as 93_implementation_defined.md I10 has a
  model do (log entry 8). Safe: its inputs were not admitted, and no admitted command sequence comes to it. -/
  | nanComputed
deriving DecidableEq, Repr

/-- Why the model refuses. -/
inductive Refusal where
  /-- An instruction with no meaning yet; raised by `exec`'s arms only, and no arm of this model raises it. Safe. -/
  | notModelled (mnemonic : String)
  /-- An activation with a sample rate outside `1.0 ≤ SR ≤ 1000000.0`: raised by `Block.hostEvent` only
  (70_reset_and_hazards.md R261: not an admitted launch, and the spec gives no behaviour). Safe. -/
  | sampleRate (sr : F32)
deriving DecidableEq, Repr

/-- The state of the block: the tuple of 10_state.md R30, the command FIFO and the output frame port of the table of
R58, the progress of a `RENDER` (20_memory.md R77), and the host's side of the frame port. -/
structure State where
  /-- The voice register bank `V[0..15]` (10_state.md R30, 00_scope.md R5). -/
  voices      : Vector Voice 16
  /-- The global registers (10_state.md R30). -/
  g           : Globals
  /-- The command FIFO, oldest word first (20_memory.md R71). -/
  fifo        : List CmdWord
  /-- The frames that the `RENDER` in progress has still to render; 0 when no `RENDER` is in progress
  (20_memory.md R77). -/
  renderLeft  : BitVec 32
  /-- The output frame port: the frame pushed and not yet accepted (20_memory.md R72). -/
  framePort   : Option Frame
  /-- The host's side of the frame port (log entry 5): the host accepts each frame as it is pushed. -/
  hostAccepts : Bool
  /-- The record of the output stream (log entry 6): the frames the host has accepted, in order
  (20_memory.md R80, 70_reset_and_hazards.md R266). -/
  output      : List Frame
deriving DecidableEq, Repr

/-- A voice after the activation reset (10_state.md R58): Idle, inactive, every other field 0 or `+0`. -/
def Voice.reset : Voice :=
  { active := false, note := 0, velocity := c0, freq := c0, phase := c0, phaseInc := c0, envState := .idle,
    envLevel := c0, envInc := c0, attack := c0, decay := c0, sustain := c0, release := c0, waveform := 0, age := 0 }

/-- The global registers after the activation reset (10_state.md R58, 70_reset_and_hazards.md R260). -/
def Globals.activated (sr : F32) (p : InitParams) : Globals :=
  { attack := p.attack, decay := p.decay, sustain := p.sustain, release := p.release, volume := p.volume,
    waveform := p.waveform, sr := sr, ageLimit := ageLimitOf sr, cursor := 0, err := false, errCause := 0 }

/-- The state after the activation reset with configuration input `sr` and `INIT_PARAMS` `p`
(70_reset_and_hazards.md R260). -/
def State.activated (sr : F32) (p : InitParams) : State :=
  { voices := Vector.replicate 16 Voice.reset, g := Globals.activated sr p, fifo := [], renderLeft := 0,
    framePort := none, hostAccepts := true, output := [] }

/-- The machine right after reset: the activation reset with the sample rate and the `INIT_PARAMS` that Config names
(log entries 1 and 2). -/
def State.reset : State := State.activated Config.sampleRate Config.initParams

end Sys2Proof.Machine
end

