-- ==== Sys2Proof/Machine/Flags.lean ====
section
/-! DEFINITION. The status fields: cause codes, the sticky error flag, and the packed words VCTRL and STATUS. -/

namespace Sys2Proof.Machine

/-- The cause codes of `G.ERR_CAUSE` (60_exceptions.md R241); 0 is NONE and 5 to 7 are never raised. -/
def causeCode : Cause → BitVec 3
  | .unknownOp => 1
  | .reservedNonzero => 2
  | .badParamId => 3
  | .operandRange => 4

/-- The error registers after a rejection: the flag is set, and the cause is latched if the flag was clear
(60_exceptions.md R242). -/
def latchError (c : Cause) (g : Globals) : Globals :=
  { g with err := true, errCause := if g.err then g.errCause else causeCode c }

/-- The codes of `ENV_STATE` (10_state.md R37). -/
def envCode : EnvState → BitVec 3
  | .idle => 0
  | .attack => 1
  | .decay => 2
  | .sustain => 3
  | .release => 4

/-- VCTRL (10_state.md R54): `ACTIVE` in bit 0, `ENV_STATE` in 3:1, `WAVEFORM` in 6:4, 0 in 7, `NOTE` in 14:8, 0 above. -/
def vctrlWord (v : Voice) : BitVec 32 :=
  0#17 ++ v.note ++ 0#1 ++ v.waveform ++ envCode v.envState ++ BitVec.ofBool v.active

/-- `ACTIVE_MASK` of a bank, read from the lowest voice up: voice `i` in bit `i` (10_state.md R56). -/
def maskOf : List Voice → Nat
  | [] => 0
  | v :: vs => v.active.toNat + 2 * maskOf vs

/-- `ACTIVE_MASK`, a live view of the voices' `ACTIVE` bits (10_state.md R56). -/
def activeMask (s : State) : BitVec 16 := BitVec.ofNat 16 (maskOf s.voices.toArray.toList)

/-- STATUS (10_state.md R56): `ACTIVE_MASK` in 15:0, `G.CURSOR` in 19:16, `G.ERR` in 20, `G.ERR_CAUSE` in 23:21, 0 above. -/
def statusWord (s : State) : BitVec 32 :=
  0#8 ++ s.g.errCause ++ BitVec.ofBool s.g.err ++ s.g.cursor ++ activeMask s

end Sys2Proof.Machine
end

