-- ==== Sys2Proof/Machine/Ops.lean ====
section
/-! DEFINITION. The named operations over the registers and the ports, which every command's meaning goes through. -/

namespace Sys2Proof.Machine

/-! ### The voice register bank -/

/-- A function applied to every register set of a bank, in index order. -/
def mapBank {α β : Type} (f : α → β) (bank : Vector α 16) : Vector β 16 :=
  ⟨⟨bank.toArray.toList.map f⟩, by simp⟩

/-- `V[i] <- v`. -/
def State.setVoice (s : State) (i : Fin 16) (v : Voice) : State := { s with voices := s.voices.set i v }

/-- `for i in 0 .. N-1: V[i] <- f(V[i])`. -/
def State.mapVoices (s : State) (f : Voice → Voice) : State := { s with voices := mapBank f s.voices }

/-- `force_idle(v)` (40_voice.md R131): every other field of `v` keeps its value. -/
def forceIdle (v : Voice) : Voice := { v with active := false, envState := .idle, envLevel := c0, envInc := c0 }

/-! ### Rejection of a command: the block's one exception mechanism (60_exceptions.md R240, R246) -/

/-- `raise CmdError(cause)` (60_exceptions.md R242): records the cause in `G.ERR` and `G.ERR_CAUSE` and nothing else. There
is no saved state, no handler and no return from it (R246): the block goes on with the next word. -/
def raiseCmdError (c : Cause) (s : State) : State := { s with g := latchError c s.g }

/-- A command with an operand range check: its effect when the check passes, else `raise CmdError(OPERAND_RANGE)` before
any state is written (43_pool_commands.md R200). -/
def checkedOperand (ok : Bool) (effect : State → State) (s : State) : State :=
  if ok then effect s else raiseCmdError .operandRange s

/-! ### The output frame port (20_memory.md R72) -/

/-- `emit(L, R)` on a port with no frame pending: the frame is pushed; a host that accepts takes it at once. -/
def emitFrame (f : Frame) (s : State) : State :=
  if s.hostAccepts then { s with output := s.output ++ [f] } else { s with framePort := some f }

/-- The port holds a frame the host has not accepted, so the block is held (70_reset_and_hazards.md R265). -/
def portBusy (s : State) : Bool := s.framePort.isSome

/-- The host accepts the pending frame, if there is one (20_memory.md R72). -/
def hostAccept (s : State) : State :=
  match s.framePort with
  | some f => { s with framePort := none, output := s.output ++ [f] }
  | none => s

end Sys2Proof.Machine
end

