-- ==== Sys2Proof/Machine/Envelope.lean ====
section
/-! DEFINITION. The envelope state machine and level ramp generator (42_envelope.md). -/

namespace Sys2Proof.Machine

/-! ### The increment function (42_envelope.md R171 to R175) -/

/-- Attack (R171): `if A == 0 then 1.0 else 1.0 ÷ (A × SR)`. -/
def attackInc (a sr : F32) : F32 := if f32Eq a c0 then c1 else f32Div c1 (f32Mul a sr)

/-- Decay (R172): `if D == 0 then −(1.0 − S) else −((1.0 − S) ÷ (D × SR))`. -/
def decayInc (d s sr : F32) : F32 :=
  if f32Eq d c0 then f32Neg (f32Sub c1 s) else f32Neg (f32Div (f32Sub c1 s) (f32Mul d sr))

/-- Release (R174): `if R == 0 then −L else −(L ÷ (R × SR))`, with the level at the instant of the call. -/
def releaseInc (r level sr : F32) : F32 :=
  if f32Eq r c0 then f32Neg level else f32Neg (f32Div level (f32Mul r sr))

/-- `inc_for(v)`, by the voice's current `ENV_STATE` (42_envelope.md R171 to R175). -/
def incFor (sr : F32) (v : Voice) : F32 :=
  match v.envState with
  | .idle => c0
  | .attack => attackInc v.attack sr
  | .decay => decayInc v.decay v.sustain sr
  | .sustain => c0
  | .release => releaseInc v.release v.envLevel sr

/-! ### The envelope step (42_envelope.md R176 to R180) -/

/-- The level after one ramp addition, `L + ENV_INC`. -/
def rampedLevel (v : Voice) : F32 := f32Add v.envLevel v.envInc

/-- Attack step (R176). -/
def attackStep (sr : F32) (v : Voice) : Voice :=
  if f32Ge (rampedLevel v) c1 then
    { v with envLevel := c1, envState := .decay, envInc := decayInc v.decay v.sustain sr }
  else { v with envLevel := rampedLevel v }

/-- Decay step (R177). -/
def decayStep (v : Voice) : Voice :=
  if f32Le (rampedLevel v) v.sustain then { v with envLevel := v.sustain, envState := .sustain, envInc := c0 }
  else { v with envLevel := rampedLevel v }

/-- Sustain step (R178): the level is rewritten from the voice's sustain copy. -/
def sustainStep (v : Voice) : Voice := { v with envLevel := v.sustain }

/-- Release step (R179). -/
def releaseStep (v : Voice) : Voice :=
  if f32Le (rampedLevel v) releaseFloor then forceIdle v else { v with envLevel := rampedLevel v }

/-- `env_step(v)`, by the voice's current `ENV_STATE` (42_envelope.md R176 to R180). -/
def envStep (sr : F32) (v : Voice) : Voice :=
  match v.envState with
  | .idle => forceIdle v
  | .attack => attackStep sr v
  | .decay => decayStep v
  | .sustain => sustainStep v
  | .release => releaseStep v

end Sys2Proof.Machine
end

