-- ==== Sys2Proof/Machine/Sine.lean ====
section
/-! DEFINITION. `sin32`, the correctly rounded binary32 sine (00_scope.md R18), computed: the operand is halved until it
is tiny, its sine and cosine are bracketed there by the first terms of their series, and the double-angle formulas bring
the bracket back. The bracket's two ends round to one binary32 value, which is then the nearest one; where they do
not, the value is free (log entry 3). -/

namespace Sys2Proof.Machine

/-- A bracket of a sine and a cosine in fixed point: the true values times `2^prec` lie within `err` of `sin` and `cos`. -/
structure SineBall where
  sin : Int
  cos : Int
  err : Nat
deriving DecidableEq, Repr

/-- One doubling of the angle: `sin 2θ = 2 sin θ cos θ`, `cos 2θ = cos² θ − sin² θ`. -/
def SineBall.double (prec : Nat) (b : SineBall) : SineBall :=
  { sin := 2 * b.sin * b.cos / 2 ^ prec
    cos := (b.cos * b.cos - b.sin * b.sin) / 2 ^ prec
    err := 4 * b.err + 2 }

/-- `n` doublings. -/
def sineDoublings (prec : Nat) : Nat → SineBall → SineBall
  | 0, b => b
  | n + 1, b => sineDoublings prec n (b.double prec)

/-- Halvings beyond those that bring the operand below 1, for an operand of `u` units of 2^-149. More for a very large
operand, whose bracket the doublings widen, and for a very small one, whose sine needs a finer bracket. -/
def sineGuard (u : Nat) : Nat := 64 + (u.log2 + 1 - 149) + (149 - (u.log2 + 1))

/-- The number of halvings: after them the angle is below `2^-sineGuard`. -/
def sineHalvings (u : Nat) : Nat := sineGuard u + (u.log2 + 1 - 149)

/-- The fraction bits of the fixed-point bracket. -/
def sinePrec (u : Nat) : Nat := 4 * sineGuard u + 64

/-- The halved angle in fixed point, exact. -/
def sineAngle (u : Nat) : Nat := u * 2 ^ (sinePrec u - 149 - sineHalvings u)

/-- The bracket at the halved angle θ: `θ − θ³/6` and `1 − θ²/2`, whose distance from the sine and the cosine is less than
`θ⁴`. -/
def sineStart (u : Nat) : SineBall :=
  { sin := (sineAngle u : Int) - (sineAngle u ^ 3 / (6 * 2 ^ (2 * sinePrec u)) : Nat)
    cos := (2 ^ sinePrec u : Nat) - (sineAngle u ^ 2 / (2 * 2 ^ sinePrec u) : Nat)
    err := 2 ^ 64 }

/-- The bracket of the sine of `u` units of 2^-149. -/
def sineBall (u : Nat) : SineBall := sineDoublings (sinePrec u) (sineHalvings u) (sineStart u)

/-- The magnitude bits nearest to the fixed-point number `z ÷ 2^prec`, less its sign. -/
def sineRound (prec : Nat) (z : Int) : Nat := roundMag (z.natAbs * 2 ^ 149) (2 ^ prec)

/-- The sine of `u` units when both ends of the bracket have one sign and round to one value, of magnitude at most 1 as
every sine is: its sign and magnitude bits. -/
def sineSettled (u : Nat) : Option (Bool × Nat) :=
  let b := sineBall u
  let lo := b.sin - b.err
  let hi := b.sin + b.err
  if decide (lo < 0) = decide (hi < 0) ∧ sineRound (sinePrec u) lo = sineRound (sinePrec u) hi ∧
      sineRound (sinePrec u) lo ≤ f32Mag c1 then
    some (decide (lo < 0), sineRound (sinePrec u) lo)
  else none

/-- A value within `[−1, 1]`, as every sine is: the free value itself where it is one, else `+0`. -/
def sineBounded (y : F32) : F32 := if f32Mag y ≤ f32Mag c1 then y else c0

/-- `sin32(x)` (00_scope.md R18). The sine of an infinity or a NaN, which the spec does not give, is a free value (log
entry 3); where that is a NaN, it is the one of 00_scope.md R16. -/
def sin32 (x : F32) : F32 :=
  if f32IsFinite x then
    if f32Mag x = 0 then x
    else
      match sineSettled (magUnits (f32Mag x)) with
      | some (neg, mag) => f32Pack (f32Sign x != neg) mag
      | none => sineBounded (Config.sineOpen x)
  else f32Canonical (Config.sineOpen x)

end Sys2Proof.Machine
end

