-- ==== Sys2Proof/Machine/Wave.lean ====
section
/-! DEFINITION. The wave shaper (41_waveform.md): a pure function of the selector and the phase. -/

namespace Sys2Proof.Machine

/-- Square (41_waveform.md R152): `+1.0 if θ < PI32 else −1.0`. -/
def waveSquare (θ : F32) : F32 := if f32Lt θ pi32 then c1 else cNeg1

/-- Saw (41_waveform.md R153): `(θ ÷ PI32) − 1.0`. -/
def waveSaw (θ : F32) : F32 := f32Sub (f32Div θ pi32) c1

/-- Triangle (41_waveform.md R154): `t = (2.0 × θ) ÷ PI32`; `t − 1.0 if θ < PI32 else 3.0 − t`. -/
def waveTriangle (θ : F32) : F32 :=
  let t := f32Div (f32Mul c2 θ) pi32
  if f32Lt θ pi32 then f32Sub t c1 else f32Sub c3 t

/-- Pulse, 25% duty (41_waveform.md R155): `+1.0 if θ < HALF_PI32 else −1.0`. -/
def wavePulse (θ : F32) : F32 := if f32Lt θ halfPi32 then c1 else cNeg1

/-- `wave(idx, θ)` (41_waveform.md R150, R151, R156, R157): the formulas as written for every θ, and sine for the unknown
indices 5 to 7. -/
def wave (idx : BitVec 3) (θ : F32) : F32 :=
  match idx.toNat with
  | 0 => sin32 θ
  | 1 => waveSquare θ
  | 2 => waveSaw θ
  | 3 => waveTriangle θ
  | 4 => wavePulse θ
  | _ => sin32 θ

end Sys2Proof.Machine
end

