-- ==== Sys2Proof/Machine/VoiceOps.lean ====
section
/-! DEFINITION. The voice operations (40_voice.md): `trigger`, `release`, `update_adsr`, `render_sample` and the phase
accumulator. Each acts on one voice and reads the global registers (00_scope.md R23, 40_voice.md R120). -/

namespace Sys2Proof.Machine

/-- `PHASE_INC = (TWO_PI32 × FREQ) ÷ SR`, two roundings (40_voice.md R123). -/
def phaseIncOf (freq sr : F32) : F32 := f32Div (f32Mul twoPi32 freq) sr

/-- `trigger(v, note, vel)` (40_voice.md R122): it writes every field, so it does not depend on `v`. -/
def triggerVoice (g : Globals) (note : BitVec 7) (vel : F32) : Voice :=
  { active := true
    note := note
    velocity := vel
    freq := freqRom note
    phase := c0
    phaseInc := phaseIncOf (freqRom note) g.sr
    envState := .attack
    envLevel := c0
    envInc := attackInc g.attack g.sr
    attack := g.attack
    decay := g.decay
    sustain := g.sustain
    release := g.release
    waveform := g.waveform
    age := 0 }

/-- `release(v)` (40_voice.md R124): a no-op on a voice that is inactive or already in Release. -/
def releaseVoice (g : Globals) (v : Voice) : Voice :=
  if v.active = true ∧ v.envState ≠ .release then
    { v with envState := .release, age := 0, envInc := releaseInc v.release v.envLevel g.sr }
  else v

/-- The voice with its ADSR copies rewritten from the global snapshot. -/
def copyAdsr (g : Globals) (v : Voice) : Voice :=
  { v with attack := g.attack, decay := g.decay, sustain := g.sustain, release := g.release }

/-- `update_adsr(v)` (40_voice.md R125). -/
def updateAdsr (g : Globals) (v : Voice) : Voice :=
  if v.active then { copyAdsr g v with envInc := incFor g.sr (copyAdsr g v) } else copyAdsr g v

/-- The phase accumulator's advance (40_voice.md R129): at most one conditional subtraction of `TWO_PI32`. -/
def advancePhase (phase inc : F32) : F32 :=
  let p := f32Add phase inc
  if f32Ge p twoPi32 then f32Sub p twoPi32 else p

/-- The watchdog fires on this call: the incremented `AGE` exceeds `G.AGE_LIMIT` (40_voice.md R127). -/
def watchdogFires (g : Globals) (v : Voice) : Bool := natGtF32 (v.age + 1).toNat g.ageLimit

/-- The sample an active voice gives: `(wave × VELOCITY) × ENV_LEVEL`, at the phase and the level before this call's
advance (40_voice.md R128, R130). -/
def voiceSample (v : Voice) : F32 := f32Mul (f32Mul (wave v.waveform v.phase) v.velocity) v.envLevel

/-- What `render_sample` gives back: the sample and the voice after it. -/
structure Rendered where
  sample : F32
  voice  : Voice
deriving DecidableEq, Repr

/-- `render_sample(v)` (40_voice.md R126 to R130). -/
def renderSample (g : Globals) (v : Voice) : Rendered :=
  if v.active then
    if watchdogFires g v then { sample := c0, voice := forceIdle { v with age := v.age + 1 } }
    else
      { sample := voiceSample v
        voice := envStep g.sr { v with age := v.age + 1, phase := advancePhase v.phase v.phaseInc } }
  else { sample := c0, voice := v }

end Sys2Proof.Machine
end

