-- ==== Sys2Proof/Machine/Pool.lean ====
section
/-! DEFINITION. The voice multiplexer and the summing stage (43_pool_commands.md): allocation, parameter propagation, and
one frame. -/

namespace Sys2Proof.Machine

/-! ### Allocation (43_pool_commands.md R201) -/

/-- The index of the first inactive voice from the list's head, counting from `i`. -/
def firstFree : List Voice → Nat → Option Nat
  | [], _ => none
  | v :: vs, i => if v.active then firstFree vs (i + 1) else some i

/-- The lowest free voice of the bank. -/
def lowestFree (s : State) : Option Nat := firstFree s.voices.toArray.toList 0

/-- `allocate()` (43_pool_commands.md R201): the lowest free voice, with the cursor unchanged; with every voice active, the
voice at the cursor, and the cursor advanced by 1 mod N. -/
def allocateVoice (s : State) : Fin 16 × Globals :=
  match lowestFree s with
  | some i => (Fin.ofNat 16 i, s.g)
  | none => (s.g.cursor.toFin, { s.g with cursor := s.g.cursor + 1 })

/-! ### Parameter propagation (43_pool_commands.md R210) -/

/-- `propagate_adsr()`: `update_adsr` on every active voice. -/
def propagateAdsr (s : State) : State := s.mapVoices fun v => if v.active then updateAdsr s.g v else v

/-! ### The summing stage (43_pool_commands.md R211, R212, R216) -/

/-- The 16 lanes of one frame: every voice's sample and its registers after it. -/
def renderLanes (s : State) : Vector Rendered 16 := mapBank (renderSample s.g) s.voices

/-- The ordered sum of a frame: from `+0.0`, lane 0 first, one rounding per addition (43_pool_commands.md R211). -/
def mixLanes (lanes : Vector Rendered 16) : F32 :=
  lanes.toArray.toList.foldl (fun acc r => f32Add acc r.sample) c0

/-- The frame's output value: the sum times the global volume, one rounding (43_pool_commands.md R212). -/
def frameValue (s : State) : F32 := f32Mul (mixLanes (renderLanes s)) s.g.volume

/-- One atomic frame step: every active voice advances once, and the value goes to both channels
(43_pool_commands.md R212, R213). -/
def frameStep (s : State) : State :=
  emitFrame ⟨frameValue s, frameValue s⟩ { s with voices := mapBank Rendered.voice (renderLanes s) }

/-- `repeat k times` of the `RENDER` pseudocode (43_pool_commands.md R213), with every frame accepted as it is emitted. -/
def renderFrames : Nat → State → State
  | 0, s => s
  | k + 1, s => renderFrames k (frameStep s)

/-- The next frame step of the `RENDER` in progress. With no `RENDER` in progress nothing happens; with a frame pending
that the host has not accepted, the step is held (20_memory.md R72, R77). -/
def renderProgress (s : State) : State :=
  if s.renderLeft = 0 ∨ portBusy s = true then s
  else frameStep { s with renderLeft := s.renderLeft - 1 }

end Sys2Proof.Machine
end

