-- ==== Sys2Proof/Machine/Note.lean ====
section
/-! DEFINITION. The meanings of `NOTE_ON` and `NOTE_OFF` (43_pool_commands.md R202, R203). -/

namespace Sys2Proof.Machine

/-- The effect of an admitted `NOTE_ON`: allocate a voice and trigger it. -/
def noteOnEffect (note : BitVec 8) (velocity : F32) (s : State) : State :=
  let a := allocateVoice s
  State.setVoice { s with g := a.2 } a.1 (triggerVoice s.g (noteIndex note) velocity)

/-- `NOTE_ON note, vel` (43_pool_commands.md R202). -/
def execNoteOn (note : BitVec 8) (velocity : F32) (s : State) : Host.Outcome State Fault Refusal :=
  .next (checkedOperand (inUnitRange velocity) (noteOnEffect note velocity) s)

/-- The voice is active and holds this note number. -/
def holdsNote (note : BitVec 8) (v : Voice) : Bool := v.active && v.note.zeroExtend 8 == note

/-- `NOTE_OFF note` (43_pool_commands.md R203): releases every active voice that holds the note. -/
def execNoteOff (note : BitVec 8) (s : State) : Host.Outcome State Fault Refusal :=
  .next (s.mapVoices fun v => if holdsNote note v then releaseVoice s.g v else v)

end Sys2Proof.Machine
end

