-- ==== Sys2Proof/Machine/Param.lean ====
section
/-! DEFINITION. The meanings of the six `SET_*` commands (43_pool_commands.md R204 to R209). -/

namespace Sys2Proof.Machine

/-- An ADSR parameter command: the operand check, the global register's write, then `propagate_adsr()`. -/
def setAdsrParam (ok : Bool) (write : Globals → Globals) (s : State) : State :=
  checkedOperand ok (fun s => propagateAdsr { s with g := write s.g }) s

/-- `SET_ATTACK v` (43_pool_commands.md R204). -/
def execSetAttack (v : F32) (s : State) : Host.Outcome State Fault Refusal :=
  .next (setAdsrParam (isDuration v) (fun g => { g with attack := v }) s)

/-- `SET_DECAY v` (43_pool_commands.md R205). -/
def execSetDecay (v : F32) (s : State) : Host.Outcome State Fault Refusal :=
  .next (setAdsrParam (isDuration v) (fun g => { g with decay := v }) s)

/-- `SET_SUSTAIN v` (43_pool_commands.md R206). -/
def execSetSustain (v : F32) (s : State) : Host.Outcome State Fault Refusal :=
  .next (setAdsrParam (inUnitRange v) (fun g => { g with sustain := v }) s)

/-- `SET_RELEASE v` (43_pool_commands.md R207). -/
def execSetRelease (v : F32) (s : State) : Host.Outcome State Fault Refusal :=
  .next (setAdsrParam (isDuration v) (fun g => { g with release := v }) s)

/-- `SET_VOLUME v` (43_pool_commands.md R208): no voice is touched. -/
def execSetVolume (v : F32) (s : State) : Host.Outcome State Fault Refusal :=
  .next (checkedOperand (inUnitRange v) (fun s => { s with g := { s.g with volume := v } }) s)

/-- `SET_WAVEFORM v` (43_pool_commands.md R209): `G.WAVEFORM <- trunc(v)`; no voice is touched. -/
def execSetWaveform (v : F32) (s : State) : Host.Outcome State Fault Refusal :=
  .next (checkedOperand (inWaveRange v) (fun s => { s with g := { s.g with waveform := waveSelect v } }) s)

end Sys2Proof.Machine
end

