-- ==== Sys2Proof/Machine/Render.lean ====
section
/-! DEFINITION. The meaning of `RENDER` (43_pool_commands.md R213). -/

namespace Sys2Proof.Machine

/-- `RENDER k` (43_pool_commands.md R213): `k` atomic frame steps (20_memory.md R77). This step is the first of them; the
rest are the machine's next steps, before which no command is taken. `k = 0` changes no state. -/
def execRender (k : BitVec 32) (s : State) : Host.Outcome State Fault Refusal :=
  .next (renderProgress { s with renderLeft := k })

end Sys2Proof.Machine
end

