-- ==== Sys2Proof/Machine/System.lean ====
section
/-! DEFINITION. The meanings of `NOP` and `RESET` (43_pool_commands.md R214, R215). -/

namespace Sys2Proof.Machine

/-- `NOP` (43_pool_commands.md R215): changes no state and emits nothing. -/
def execNop (s : State) : Host.Outcome State Fault Refusal := .next s

/-- `RESET` (43_pool_commands.md R214): `force_idle` on every voice; every other element keeps its value. -/
def execReset (s : State) : Host.Outcome State Fault Refusal := .next (s.mapVoices forceIdle)

end Sys2Proof.Machine
end

