-- ==== Sys2Proof/Machine/Dispatch.lean ====
section
/-! DEFINITION. exec: the meaning of each instruction, one arm per constructor (43_pool_commands.md R202 to R215). -/

namespace Sys2Proof.Machine

def exec (i : Instr) (s : State) : Host.Outcome State Fault Refusal :=
  match i with
  | .nop => Sys2Proof.Machine.execNop s
  | .noteOn note velocity => Sys2Proof.Machine.execNoteOn note velocity s
  | .noteOff note => Sys2Proof.Machine.execNoteOff note s
  | .setAttack value => Sys2Proof.Machine.execSetAttack value s
  | .setDecay value => Sys2Proof.Machine.execSetDecay value s
  | .setSustain value => Sys2Proof.Machine.execSetSustain value s
  | .setRelease value => Sys2Proof.Machine.execSetRelease value s
  | .setVolume value => Sys2Proof.Machine.execSetVolume value s
  | .setWaveform value => Sys2Proof.Machine.execSetWaveform value s
  | .render count => Sys2Proof.Machine.execRender count s
  | .reset => Sys2Proof.Machine.execReset s

end Sys2Proof.Machine
end

