-- ==== Sys2Proof/Machine/Fetch.lean ====
section
/-! DEFINITION. Taking a command word from the command FIFO and executing it (20_memory.md R71, 43_pool_commands.md R200). -/

namespace Sys2Proof.Machine

/-- The next word of the command FIFO, in the order written, and the state with it taken (20_memory.md R71). -/
def fetchWord (s : State) : Option (CmdWord × State) :=
  match s.fifo with
  | [] => none
  | w :: rest => some (w, { s with fifo := rest })

/-- The word placed where the next step takes its command: at the head of the FIFO, with no `RENDER` in progress and a
pending frame accepted, so that nothing holds the block. -/
def placeWord (w : CmdWord) (s : State) : State := { hostAccept s with renderLeft := 0, fifo := w :: s.fifo }

/-- Executing a command word (43_pool_commands.md R200): a rejected word only records its cause. -/
def executeWord (w : CmdWord) (s : State) : Host.Outcome State Fault Refusal :=
  match decode w with
  | .cmd i => exec i s
  | .reject c => .next (raiseCmdError c s)

/-- The block's step. While a frame is pending that the host has not accepted, the block is held: it neither renders nor
takes a command (20_memory.md R72, 70_reset_and_hazards.md R265; log entry 9). Else it makes the next frame step of a
`RENDER` in progress, or takes the next command word; with an empty FIFO it does nothing and keeps every register
(20_memory.md R77, 60_exceptions.md R251). -/
def blockStep (s : State) : Host.Outcome State Fault Refusal :=
  if portBusy s then .next s
  else if s.renderLeft ≠ 0 then .next (renderProgress s)
  else
    match fetchWord s with
    | none => .next s
    | some (w, s') => executeWord w s'

end Sys2Proof.Machine
end

