-- ==== Sys2Proof/Machine/Admitted.lean ====
section
/-! DEFINITION. The fault of a computed NaN: 93_implementation_defined.md I10 has a model take one for a fault, since its
inputs were not admitted (log entry 8). -/

namespace Sys2Proof.Machine

/-- A register now holds a NaN that was not there before. -/
def newNaN (old new : F32) : Bool := f32IsNaN new && new != old

/-- A new NaN in a register of a voice that arithmetic writes. A NaN that arises on the way to a phase, a level or an
increment is stored there, and one that arises on the way to a sample ends in the frame. -/
def voiceNewNaN (old new : Voice) : Bool :=
  newNaN old.phase new.phase || newNaN old.phaseInc new.phaseInc || newNaN old.envLevel new.envLevel ||
    newNaN old.envInc new.envInc

/-- A frame with a NaN on a channel. -/
def frameHoldsNaN (f : Frame) : Bool := f32IsNaN f.left || f32IsNaN f.right

/-- Going from `s` to `t` has put a NaN into a voice's register, the frame port or the output stream. -/
def computesNaN (s t : State) : Bool :=
  (List.finRange 16).any (fun i => voiceNewNaN s.voices[i] t.voices[i]) ||
    (t.framePort != s.framePort && t.framePort.any frameHoldsNaN) ||
    (t.output.drop s.output.length).any frameHoldsNaN

/-- An outcome reached from `s`, with the fault of a computed NaN in place of a next state that has one. -/
def faultOnNaN (s : State) (o : Host.Outcome State Fault Refusal) : Host.Outcome State Fault Refusal :=
  match o with
  | .next t => if computesNaN s t then .fault .nanComputed else .next t
  | .fault r => .fault r
  | .refused r => .refused r

end Sys2Proof.Machine
end

