-- ==== Sys2Proof/Machine/Step.lean ====
section
/-! DEFINITION. One step of the machine, and the placing of a word that the next step runs. -/

namespace Sys2Proof.Machine

/-- One step of the block: a command, or one frame of a `RENDER` (00_scope.md R22, 20_memory.md R77). A step that computes
a NaN is a fault of the model (93_implementation_defined.md I10; log entry 8). -/
def step (s : State) : Host.Outcome State Fault Refusal := faultOnNaN s (blockStep s)

/-- `s` with the instruction whose bits are `w` at the head of the command FIFO, so that the very next step runs it. -/
def State.withFetchWord (s : State) (nbits w : Nat) : State := placeWord (tableWord nbits w) s

end Sys2Proof.Machine
end

