-- ==== Sys2Proof/Machine/Assembler.lean ====
section
/-! DEFINITION. The assembler syntax (30_encoding.md R101, R102): one line of text to the command words it stands for. -/

namespace Sys2Proof.Machine

/-! ### Numbers -/

/-- The value of a digit character in base 16; letters in either case. -/
def digitValue (c : Char) : Option Nat :=
  if '0' ≤ c ∧ c ≤ '9' then some (c.toNat - '0'.toNat)
  else if 'a' ≤ c ∧ c ≤ 'f' then some (c.toNat - 'a'.toNat + 10)
  else if 'A' ≤ c ∧ c ≤ 'F' then some (c.toNat - 'A'.toNat + 10)
  else none

/-- The number of a digit string in a base, after `acc`; `none` at a character that is no digit of the base. -/
def digitsFrom (base acc : Nat) : List Char → Option Nat
  | [] => some acc
  | c :: cs =>
    match digitValue c with
    | some d => if d < base then digitsFrom base (base * acc + d) cs else none
    | none => none

/-- The number of a digit string that is not empty. -/
def readDigits (base : Nat) (cs : List Char) : Option Nat := if cs.isEmpty then none else digitsFrom base 0 cs

/-- The characters before the first `c`, and those after it when it is there. -/
def splitAt (c : Char) : List Char → List Char × Option (List Char)
  | [] => ([], none)
  | x :: xs => if x = c then ([], some xs) else (x :: (splitAt c xs).1, (splitAt c xs).2)

/-- An unsigned integer, decimal or `0x` hexadecimal. -/
def readNat : List Char → Option Nat
  | '0' :: 'x' :: cs => readDigits 16 cs
  | cs => readDigits 10 cs

/-- The binary32 value nearest to `num ÷ den`, ties to even, with a sign. -/
def nearestF32 (neg : Bool) (num den : Nat) : F32 := f32Pack neg (roundMag (num * 2 ^ 149) den)

/-- An unsigned decimal literal to the nearest binary32 value: digits, or digits, a point and digits. That a point needs
digits on both sides, so that `.5` and `1.` are refused, is a DESIGN CHOICE (log entry 13). -/
def readDecimal (neg : Bool) (cs : List Char) : Option F32 :=
  match splitAt '.' cs with
  | (whole, none) => (readDigits 10 whole).map fun n => nearestF32 neg n 1
  | (whole, some frac) =>
    match readDigits 10 whole, readDigits 10 frac with
    | some _, some _ => (readDigits 10 (whole ++ frac)).map fun n => nearestF32 neg n (10 ^ frac.length)
    | _, _ => none

/-- An `<f32>` operand: `f32:0xHHHHHHHH`, the exact bit pattern, or a decimal literal. -/
def readF32 : List Char → Option F32
  | 'f' :: '3' :: '2' :: ':' :: '0' :: 'x' :: cs =>
    if cs.length = 8 then (readDigits 16 cs).map (BitVec.ofNat 32) else none
  | '-' :: cs => readDecimal true cs
  | cs => readDecimal false cs

/-- A note operand, 0..127 decimal. -/
def readNote (cs : List Char) : Option (BitVec 8) :=
  match readDigits 10 cs with
  | some n => if n ≤ 127 then some (BitVec.ofNat 8 n) else none
  | none => none

/-- A frame count, decimal or `0x` hexadecimal, below 2^32. -/
def readCount (cs : List Char) : Option (BitVec 32) :=
  match readNat cs with
  | some n => if n < 2 ^ 32 then some (BitVec.ofNat 32 n) else none
  | none => none

/-! ### Lines -/

/-- Lower case: mnemonics and parameter names are case-insensitive. -/
def lowerChar (c : Char) : Char := if 'A' ≤ c ∧ c ≤ 'Z' then Char.ofNat (c.toNat + 32) else c

/-- The line before its comment. -/
def dropComment (cs : List Char) : List Char := (splitAt ';' cs).1

/-- The words of a line: blanks and commas stand between them. `acc` holds the word being read, last character first. -/
def wordsFrom (acc : List Char) : List Char → List (List Char)
  | [] => if acc.isEmpty then [] else [acc.reverse]
  | c :: cs =>
    if c = ' ' ∨ c = ',' ∨ c = '\t' then
      if acc.isEmpty then wordsFrom [] cs else acc.reverse :: wordsFrom [] cs
    else wordsFrom (c :: acc) cs

/-- The parameter number of a `SET_PARAM` operand: a name, or a number 0..255 (30_encoding.md R101). That the number is
written in decimal only, so that `0x` is refused, is a DESIGN CHOICE (log entry 13). -/
def readParam (cs : List Char) : Option (BitVec 8) :=
  match String.ofList (cs.map lowerChar) with
  | "attack" => some 0
  | "decay" => some 1
  | "sustain" => some 2
  | "release" => some 3
  | "volume" => some 4
  | "waveform" => some 5
  | _ =>
    match readDigits 10 cs with
    | some n => if n ≤ 255 then some (BitVec.ofNat 8 n) else none
    | none => none

/-- The words of a line with one `<f32>` operand. -/
def withF32 (f : F32 → CmdWord) (cs : List Char) : Option (List CmdWord) := (readF32 cs).map fun v => [f v]

/-- The command words of a line's mnemonic and operands; `none` when the line is not of the syntax. -/
def assembleWords (mnemonic : String) (operands : List (List Char)) : Option (List CmdWord) :=
  match mnemonic, operands with
  | "nop", [] => some [encode .nop]
  | "note_on", [n, v] =>
    match readNote n, readF32 v with
    | some n, some v => some [encode (.noteOn n v)]
    | _, _ => none
  | "note_off", [n] => (readNote n).map fun n => [encode (.noteOff n)]
  | "set_attack", [v] => withF32 (fun v => encode (.setAttack v)) v
  | "set_decay", [v] => withF32 (fun v => encode (.setDecay v)) v
  | "set_sustain", [v] => withF32 (fun v => encode (.setSustain v)) v
  | "set_release", [v] => withF32 (fun v => encode (.setRelease v)) v
  | "set_volume", [v] => withF32 (fun v => encode (.setVolume v)) v
  | "set_waveform", [v] => withF32 (fun v => encode (.setWaveform v)) v
  | "set_param", [p, v] =>
    match readParam p with
    | some id => withF32 (fun v => formatC 0x03 id 0 v) v
    | none => none
  | "render", [k] => (readCount k).map fun k => [encode (.render k)]
  | "reset", [] => some [encode .reset]
  | "set_adsr", [a, d, s, r] =>
    match readF32 a, readF32 d, readF32 s, readF32 r with
    | some a, some d, some s, some r => some ((expand (.setAdsr a d s r)).map encode)
    | _, _, _, _ => none
  | "all_notes_off", [] => some ((expand .allNotesOff).map encode)
  | "panic", [] => some ((expand .panic).map encode)
  | _, _ => none

/-- The command words of one line (30_encoding.md R101); a line that is blank or only a comment stands for none. -/
def assembleLine (line : String) : Option (List CmdWord) :=
  match wordsFrom [] (dropComment line.toList) with
  | [] => some []
  | m :: operands => assembleWords (String.ofList (m.map lowerChar)) operands

end Sys2Proof.Machine
end

