-- ==== Sys2Proof/Machine/Ports.lean ====
section
/-! DEFINITION. What the host can do to the block through its four ports (20_memory.md R71 to R74,
70_reset_and_hazards.md R265): write command words, accept frames, read registers, activate and deactivate. -/

namespace Sys2Proof.Machine

/-! ### The observation port (20_memory.md R73, R78; 10_state.md R53 to R56) -/

/-- The word at field offset `f` of a voice; offsets 12 to 15 are reserved and read 0 (10_state.md R53). -/
def voiceWord (v : Voice) (f : Nat) : BitVec 32 :=
  match f with
  | 0 => vctrlWord v
  | 1 => v.velocity
  | 2 => v.freq
  | 3 => v.phase
  | 4 => v.phaseInc
  | 5 => v.envLevel
  | 6 => v.envInc
  | 7 => v.attack
  | 8 => v.decay
  | 9 => v.sustain
  | 10 => v.release
  | 11 => v.age
  | _ => 0

/-- The word at `0x100 + f`; `0x109` to `0x1FF` are reserved and read 0 (10_state.md R55). -/
def globalWord (s : State) (f : Nat) : BitVec 32 :=
  match f with
  | 0 => s.g.attack
  | 1 => s.g.decay
  | 2 => s.g.sustain
  | 3 => s.g.release
  | 4 => s.g.volume
  | 5 => s.g.waveform.zeroExtend 32
  | 6 => s.g.sr
  | 7 => s.g.ageLimit
  | 8 => statusWord s
  | _ => 0

/-- A read of the observation port at a 9-bit word address (20_memory.md R73). It is a function of the state alone, so it
has no side effect. -/
def observe (s : State) (addr : BitVec 9) : BitVec 32 :=
  if addr.toNat < 256 then voiceWord s.voices[Fin.ofNat 16 (addr.toNat / 16)] (addr.toNat % 16)
  else globalWord s (addr.toNat - 256)

/-- A read of the observation port over a byte-wide channel (20_memory.md R75). -/
def observeBytes (s : State) (addr : BitVec 9) : List (BitVec 8) := bytesOfWord32 (observe s addr)

/-- The samples of one output channel over a byte-wide channel, in the order produced (20_memory.md R72, R75). -/
def sampleBytes (samples : List F32) : List (BitVec 8) := samples.flatMap bytesOfWord32

/-- The integer fields a host reads out of a VCTRL word (10_state.md R54). -/
structure VctrlFields where
  active   : Bool
  envState : EnvState
  waveform : BitVec 3
  note     : BitVec 7
deriving DecidableEq, Repr

/-- The state an `ENV_STATE` code names (10_state.md R37); 5 to 7 name none. -/
def envOfCode (code : BitVec 3) : Option EnvState :=
  match code.toNat with
  | 0 => some .idle
  | 1 => some .attack
  | 2 => some .decay
  | 3 => some .sustain
  | 4 => some .release
  | _ => none

/-- A host's decoding of a VCTRL word; an `ENV_STATE` code that never occurs is a fault of the observation
(93_implementation_defined.md I9). -/
def decodeVctrl (w : BitVec 32) : Host.Outcome VctrlFields Fault Refusal :=
  match envOfCode (w.extractLsb' 1 3) with
  | some e => .next { active := w.getLsbD 0, envState := e, waveform := w.extractLsb' 4 3, note := w.extractLsb' 8 7 }
  | none => .fault (.envStateCode (w.extractLsb' 1 3))

/-! ### The command port and the frame port -/

/-- The host writes a command word: it goes to the end of the FIFO, and no word is dropped (20_memory.md R71). -/
def hostWrite (w : CmdWord) (s : State) : State := { s with fifo := s.fifo ++ [w] }

/-- The host begins or stops accepting frames as they are pushed; when it begins, it takes the pending frame. -/
def hostSetAccepts (b : Bool) (s : State) : State :=
  if b then { hostAccept s with hostAccepts := true } else { s with hostAccepts := false }

/-! ### Activation and deactivation (70_reset_and_hazards.md R260, R261, R263) -/

/-- The block as the host sees it: not activated, with no state that survives, or active. -/
inductive Block where
  | inactive
  | active (s : State)
deriving DecidableEq, Repr

/-- What the host can do (70_reset_and_hazards.md R265). An observation changes nothing and is the function `observe`. -/
inductive HostEvent where
  /-- Activation with a sample rate on the configuration input. -/
  | activate (sr : F32)
  /-- Deactivation. -/
  | deactivate
  /-- A command word written to the FIFO. -/
  | writeWord (w : CmdWord)
  /-- The pending frame accepted. -/
  | acceptFrame
  /-- The host begins or stops accepting every frame at once. -/
  | setAccepts (b : Bool)
  /-- A change of the configuration input (20_memory.md R74). -/
  | changeRate (sr : F32)
deriving DecidableEq, Repr

/-- What the host does to the state of a block; it does nothing to a block that is not active (log entry 10). -/
def Block.onActive (f : State → State) (b : Block) : Block :=
  match b with
  | .inactive => .inactive
  | .active s => .active (f s)

/-- A host event, for a block with the `INIT_PARAMS` `p`. Every activation is a fresh activation reset
(70_reset_and_hazards.md R263; log entry 10), refused outside the admitted sample rates (R261); deactivation leaves no
state; a change of the configuration input has no effect (20_memory.md R74). DESIGN CHOICE (log entry 1): R260 says that
the six values of `p` must be admitted and gives no behaviour for others; the activation then takes them as they are. -/
def Block.hostEvent (p : InitParams) (e : HostEvent) (b : Block) : Host.Outcome Block Fault Refusal :=
  match e with
  | .activate sr => if rateAdmitted sr then .next (.active (State.activated sr p)) else .refused (.sampleRate sr)
  | .deactivate => .next .inactive
  | .writeWord w => .next (b.onActive (hostWrite w))
  | .acceptFrame => .next (b.onActive hostAccept)
  | .setAccepts v => .next (b.onActive (hostSetAccepts v))
  | .changeRate _ => .next b

end Sys2Proof.Machine
end

