-- ==== Sys2Proof/Safety.lean ====
section
/-! DEFINITION. The terms that claims use: the real value of a pattern, admitted values, the invariants of 10_state.md
R42 to R44, and the effect of a whole command. -/

namespace Sys2Proof.Machine

/-! ### Values -/

/-- The value of a finite pattern, as an exact rational number. -/
def f32ToRat (x : F32) : ℚ := (f32Units x : ℚ) / 2 ^ 149

/-- The value of magnitude bits, as an exact rational number. -/
def magToRat (m : Nat) : ℚ := (magUnits m : ℚ) / 2 ^ 149

/-- From here on a magnitude rounds to infinity: halfway from the largest finite value to 2^128. -/
def overflowBound : ℚ := 2 ^ 128 - 2 ^ 103

/-- `x` is the binary32 value that the exact result `q` rounds to: the nearest finite value, at a tie the one whose last
bit is 0, or from the overflow bound on the infinity of `q`'s sign (00_scope.md R14; log entry 12). -/
def RoundsTo (q : ℚ) (x : F32) : Prop :=
  (|q| < overflowBound → f32IsFinite x = true ∧
    ∀ c : F32, f32IsFinite c = true → |f32ToRat x - q| ≤ |f32ToRat c - q| ∧
      (|f32ToRat x - q| = |f32ToRat c - q| → f32ToRat c = f32ToRat x ∨ x.toNat % 2 = 0)) ∧
  (overflowBound ≤ q → x = 0x7F800000) ∧ (q ≤ -overflowBound → x = 0xFF800000)

/-- The zero of a sign. -/
def signedZero (neg : Bool) : F32 := if neg then 0x80000000 else 0x00000000

/-- The infinity of a sign. -/
def signedInf (neg : Bool) : F32 := if neg then 0xFF800000 else 0x7F800000

/-- The pattern is a finite value in `[0, 1]`: an admitted velocity, sustain level or volume. -/
def UnitValue (v : F32) : Prop := f32IsFinite v = true ∧ 0 ≤ f32ToRat v ∧ f32ToRat v ≤ 1

/-- The pattern is an admitted duration: `v ≥ 0`, `−0` and `+∞` included, no NaN (10_state.md R45). -/
def DurationValue (v : F32) : Prop := f32IsNaN v = false ∧ 0 ≤ f32Units v

/-- The pattern is an admitted waveform operand: `−1 < v < 8` (30_encoding.md R98). -/
def WaveValue (v : F32) : Prop := f32IsFinite v = true ∧ -1 < f32ToRat v ∧ f32ToRat v < 8

/-- The admitted operand ranges of every command, by value (30_encoding.md R98, 60_exceptions.md R241). -/
def AdmittedByValue : Instr → Prop
  | .nop => True
  | .noteOn _ velocity => UnitValue velocity
  | .noteOff _ => True
  | .setAttack value => DurationValue value
  | .setDecay value => DurationValue value
  | .setSustain value => UnitValue value
  | .setRelease value => DurationValue value
  | .setVolume value => UnitValue value
  | .setWaveform value => WaveValue value
  | .render _ => True
  | .reset => True

/-- The must-be-zero bits of a word's opcode are zero, by the bit ranges of 30_encoding.md R93. -/
def ReservedBitsZero (w : CmdWord) : Prop :=
  match (w.extractLsb' 56 8).toNat with
  | 0 => w.extractLsb' 0 56 = 0
  | 1 => w.extractLsb' 47 9 = 0 ∧ w.extractLsb' 32 8 = 0
  | 2 => w.extractLsb' 47 9 = 0 ∧ w.extractLsb' 0 40 = 0
  | 3 => w.extractLsb' 32 16 = 0
  | 4 => w.extractLsb' 32 24 = 0
  | _ => w.extractLsb' 0 56 = 0

/-! ### Invariants -/

/-- A voice is fully idle, or active in one of the four ADSR phases (10_state.md R43). -/
def VoiceIdleOk (v : Voice) : Prop :=
  (v.active = false ↔ v.envState = .idle) ∧ (v.active = false → v.envLevel = c0 ∧ v.envInc = c0)

/-- The invariant of 10_state.md R43 on every voice. -/
def IdleInv (s : State) : Prop := ∀ i : Fin 16, VoiceIdleOk s.voices[i]

/-- The copies of every active voice equal the global ADSR parameters (10_state.md R44 (c)). -/
def CopyInv (s : State) : Prop :=
  ∀ i : Fin 16, s.voices[i].active = true →
    s.voices[i].attack = s.g.attack ∧ s.voices[i].decay = s.g.decay ∧ s.voices[i].sustain = s.g.sustain ∧
      s.voices[i].release = s.g.release

/-- The error registers: no cause while no command has been rejected, else one of the causes 1 to 4
(10_state.md R52, 60_exceptions.md R241). -/
def ErrInv (s : State) : Prop :=
  (s.g.err = false → s.g.errCause = 0) ∧ (s.g.err = true → 1 ≤ s.g.errCause.toNat ∧ s.g.errCause.toNat ≤ 4)

/-- The sample rate is admitted, and the age limit is its product with 30.0 (10_state.md R48, R49). -/
def RateInv (s : State) : Prop := rateAdmitted s.g.sr = true ∧ s.g.ageLimit = ageLimitOf s.g.sr

/-- The global parameters hold admitted values (10_state.md R45, R46). -/
def GlobalsInv (s : State) : Prop :=
  DurationValue s.g.attack ∧ DurationValue s.g.decay ∧ UnitValue s.g.sustain ∧ DurationValue s.g.release ∧
    UnitValue s.g.volume

/-- The age counter has not passed the watchdog's ceiling, and never passes the bound of 10_state.md R42. -/
def VoiceAgeOk (g : Globals) (v : Voice) : Prop :=
  (v.active = true → natGtF32 v.age.toNat g.ageLimit = false) ∧ v.age.toNat ≤ 30000001

/-- The age bound on every voice, at an admitted sample rate. -/
def AgeInv (s : State) : Prop := RateInv s ∧ ∀ i : Fin 16, VoiceAgeOk s.g s.voices[i]

/-- The increment pulls the level the way its state moves it: up in Attack, down in Decay and Release, not at all in
Sustain and Idle. It may be infinite (10_state.md R39), but is no NaN. -/
def IncSignOk (v : Voice) : Prop :=
  f32IsNaN v.envInc = false ∧
    match v.envState with
    | .idle => f32Units v.envInc = 0
    | .attack => 0 ≤ f32Units v.envInc
    | .decay => f32Units v.envInc ≤ 0
    | .sustain => f32Units v.envInc = 0
    | .release => f32Units v.envInc ≤ 0

/-- A voice's level is finite and in `[0, 1]` (10_state.md R44 (a)), with what keeps it there: admitted copies and an
increment of the right sign. -/
def VoiceLevelOk (v : Voice) : Prop :=
  UnitValue v.envLevel ∧ DurationValue v.attack ∧ DurationValue v.decay ∧ UnitValue v.sustain ∧
    DurationValue v.release ∧ IncSignOk v

/-- The level range on every voice, with admitted global registers. -/
def LevelInv (s : State) : Prop := RateInv s ∧ GlobalsInv s ∧ ∀ i : Fin 16, VoiceLevelOk s.voices[i]

/-- A voice's phase and phase increment: finite, not negative, the increment at most 2^17 and the phase at most 2^42;
and the phase stays below `TWO_PI32` while the increment is (10_state.md R44 (b)). -/
def VoicePhaseOk (v : Voice) : Prop :=
  f32IsFinite v.phase = true ∧ f32IsFinite v.phaseInc = true ∧
    0 ≤ f32ToRat v.phase ∧ f32ToRat v.phase ≤ 2 ^ 42 ∧ 0 ≤ f32ToRat v.phaseInc ∧ f32ToRat v.phaseInc ≤ 2 ^ 17 ∧
    (f32Lt v.phaseInc twoPi32 = true → f32Lt v.phase twoPi32 = true)

/-- The phase range on every voice, at an admitted sample rate. -/
def PhaseInv (s : State) : Prop := RateInv s ∧ ∀ i : Fin 16, VoicePhaseOk s.voices[i]

/-- A frame whose two channels are bitwise equal (20_memory.md R72). -/
def StereoFrame (f : Frame) : Prop := f.left = f.right

/-- Every frame that has left the summing stage is a stereo duplicate. -/
def StereoInv (s : State) : Prop := (∀ f ∈ s.output, StereoFrame f) ∧ ∀ f, s.framePort = some f → StereoFrame f

/-- Every output value is finite (10_state.md R44 (d)), with what keeps it so. -/
def OutputInv (s : State) : Prop :=
  LevelInv s ∧ PhaseInv s ∧ (∀ i : Fin 16, UnitValue s.voices[i].velocity) ∧
    (∀ f ∈ s.output, f32IsFinite f.left = true ∧ f32IsFinite f.right = true) ∧
    ∀ f, s.framePort = some f → f32IsFinite f.left = true ∧ f32IsFinite f.right = true

/-- A host that accepts frames as they are pushed leaves none pending. -/
def PortInv (s : State) : Prop := s.hostAccepts = true → s.framePort = none

/-! ### The effect of a whole command -/

/-- The effect of a command word run to completion, every frame accepted: a `RENDER` with all its frames, another command
in one step, a rejection of a word that decodes to no command (20_memory.md R80, 43_pool_commands.md R200). -/
def commandEffect (s : State) (w : CmdWord) : State :=
  match decode w with
  | .reject c => raiseCmdError c s
  | .cmd (.render k) => renderFrames k.toNat s
  | .cmd i =>
    match exec i s with
    | .next t => t
    | .fault _ => s
    | .refused _ => s

/-- The commands of a list run to completion in order, each on the state the one before it left (20_memory.md R80). -/
def commandsEffect (s : State) (ws : List CmdWord) : State := ws.foldl commandEffect s

/-- The command that the next step takes is `i`: no frame is pending, no `RENDER` is in progress, and the oldest word
decodes to `i`. -/
def NextCommand (s : State) (i : Instr) : Prop :=
  s.framePort = none ∧ s.renderLeft = 0 ∧ ∃ w rest, s.fifo = w :: rest ∧ decode w = .cmd i

/-- The next step is a step of a `RENDER`: one in progress and not held, or the one it takes. -/
def NextIsFrame (s : State) : Prop :=
  (s.framePort = none ∧ s.renderLeft ≠ 0) ∨ ∃ k, NextCommand s (.render k)

/-- The increment of a voice for its state, written out from 42_envelope.md R171 to R175. -/
def incByState (sr : F32) (v : Voice) : F32 :=
  match v.envState with
  | .idle => 0x00000000
  | .attack => if f32Eq v.attack 0 then 0x3F800000 else f32Div 0x3F800000 (f32Mul v.attack sr)
  | .decay =>
    if f32Eq v.decay 0 then f32Neg (f32Sub 0x3F800000 v.sustain)
    else f32Neg (f32Div (f32Sub 0x3F800000 v.sustain) (f32Mul v.decay sr))
  | .sustain => 0x00000000
  | .release =>
    if f32Eq v.release 0 then f32Neg v.envLevel else f32Neg (f32Div v.envLevel (f32Mul v.release sr))

/-- `t` is `s` with the global registers `g'` propagated (43_pool_commands.md R210, 40_voice.md R125): every active voice has
the new copies and its state's increment recomputed, and nothing else has changed. -/
def PropagatedTo (s : State) (g' : Globals) (t : State) : Prop :=
  t = { s with g := g', voices := t.voices } ∧
    ∀ i : Fin 16,
      (s.voices[i].active = false → t.voices[i] = s.voices[i]) ∧
      (s.voices[i].active = true → t.voices[i] =
        { s.voices[i] with
          attack := g'.attack, decay := g'.decay, sustain := g'.sustain, release := g'.release
          envInc := incByState g'.sr
            { s.voices[i] with
              attack := g'.attack, decay := g'.decay, sustain := g'.sustain, release := g'.release } })

/-- `n` calls of `render_sample` on one voice. -/
def renderTimes (g : Globals) (n : Nat) (v : Voice) : Voice := (fun v => (renderSample g v).voice)^[n] v

/-- The block has nothing to do and nothing to wait for. -/
def Quiescent (s : State) : Prop := s.renderLeft = 0 ∧ s.framePort = none ∧ s.hostAccepts = true

end Sys2Proof.Machine
end

