-- ==== Sys2Proof/Certificates/Slice0/Obligations.lean ====
section
/-! DEFINITION. The statements for the provers, from the numbered rules of the spec. -/

open Sys2Proof Sys2Proof.Machine

/-! ### Encoding (30_encoding.md) -/

/-- Every instruction that has an encoding decodes back to itself, with every operand at every value. -/
def Obligations.DecodeInvertsEncode : Prop :=
  ∀ i : Instr, i.wellFormed = true → decode (encode i) = .cmd i

/-- A word that decodes to an instruction is that instruction's one encoding: no bit of an accepted word is ignored. -/
def Obligations.EncodeInvertsDecode : Prop :=
  ∀ (w : CmdWord) (i : Instr), decode w = .cmd i → i.wellFormed = true ∧ encode i = w

/-- R99: decoding is total, one row or one cause, with the checks in the order UNKNOWN_OP, RESERVED_NONZERO, BAD_PARAM_ID
and, when the command executes, OPERAND_RANGE. -/
def Obligations.DecodingIsTotalInTheOrderOfChecks : Prop :=
  ∀ w : CmdWord,
    (5 < (w.extractLsb' 56 8).toNat → decode w = .reject .unknownOp) ∧
    ((w.extractLsb' 56 8).toNat ≤ 5 → ¬ReservedBitsZero w → decode w = .reject .reservedNonzero) ∧
    ((w.extractLsb' 56 8).toNat = 3 → ReservedBitsZero w → 5 < (w.extractLsb' 48 8).toNat →
      decode w = .reject .badParamId) ∧
    ((w.extractLsb' 56 8).toNat ≤ 5 → ReservedBitsZero w →
      ((w.extractLsb' 56 8).toNat = 3 → (w.extractLsb' 48 8).toNat ≤ 5) →
      ∃ i, decode w = .cmd i ∧ opcodeTable.filter (fun r => r.selects w) = [rowOf i] ∧
        ∀ s, operandAdmitted i = false → exec i s = .next (raiseCmdError .operandRange s)) ∧
    ∀ c, decode w = .reject c → opcodeTable.filter (fun r => r.selects w) = []

/-- R92, R94, R95, R96: the command and the operands of every accepted word, field by field. -/
def Obligations.CommandsTakeTheirFields : Prop :=
  ∀ w : CmdWord, ReservedBitsZero w →
    (w.extractLsb' 56 8 = 0x00 → decode w = .cmd .nop) ∧
    (w.extractLsb' 56 8 = 0x01 →
      decode w = .cmd (.noteOn ((w.extractLsb' 40 7).zeroExtend 8) (w.extractLsb' 0 32))) ∧
    (w.extractLsb' 56 8 = 0x02 → decode w = .cmd (.noteOff ((w.extractLsb' 40 7).zeroExtend 8))) ∧
    (w.extractLsb' 56 8 = 0x03 →
      (w.extractLsb' 48 8 = 0 → decode w = .cmd (.setAttack (w.extractLsb' 0 32))) ∧
      (w.extractLsb' 48 8 = 1 → decode w = .cmd (.setDecay (w.extractLsb' 0 32))) ∧
      (w.extractLsb' 48 8 = 2 → decode w = .cmd (.setSustain (w.extractLsb' 0 32))) ∧
      (w.extractLsb' 48 8 = 3 → decode w = .cmd (.setRelease (w.extractLsb' 0 32))) ∧
      (w.extractLsb' 48 8 = 4 → decode w = .cmd (.setVolume (w.extractLsb' 0 32))) ∧
      (w.extractLsb' 48 8 = 5 → decode w = .cmd (.setWaveform (w.extractLsb' 0 32)))) ∧
    (w.extractLsb' 56 8 = 0x04 → decode w = .cmd (.render (w.extractLsb' 0 32))) ∧
    (w.extractLsb' 56 8 = 0x05 → decode w = .cmd .reset)

/-- R103: the worked encodings of the spec, the four rejected words included: what each word decodes to, and the words that
the lines of assembly stand for. -/
def Obligations.WorkedEncodingsDecode : Prop :=
  decode 0x0000000000000000 = .cmd .nop ∧
  decode 0x010045003F800000 = .cmd (.noteOn 69 0x3F800000) ∧
  decode 0x01003C003F000000 = .cmd (.noteOn 60 0x3F000000) ∧
  decode 0x0200450000000000 = .cmd (.noteOff 69) ∧
  decode 0x02007F0000000000 = .cmd (.noteOff 127) ∧
  decode 0x030000003C23D70A = .cmd (.setAttack 0x3C23D70A) ∧
  decode 0x030100003DCCCCCD = .cmd (.setDecay 0x3DCCCCCD) ∧
  decode 0x030200003F333333 = .cmd (.setSustain 0x3F333333) ∧
  decode 0x030300003E99999A = .cmd (.setRelease 0x3E99999A) ∧
  decode 0x030400003F800000 = .cmd (.setVolume 0x3F800000) ∧
  decode 0x0305000040400000 = .cmd (.setWaveform 0x40400000) ∧
  decode 0x040000000000AC44 = .cmd (.render 44100) ∧
  decode 0x0400000000000000 = .cmd (.render 0) ∧
  decode 0x0500000000000000 = .cmd .reset ∧
  decode 0x0600000000000000 = .reject .unknownOp ∧
  decode 0x0200450000000001 = .reject .reservedNonzero ∧
  decode 0x030600003F800000 = .reject .badParamId ∧
  decode 0x010045003FC00000 = .cmd (.noteOn 69 0x3FC00000) ∧
  (∀ s, exec (.noteOn 69 0x3FC00000) s = .next (raiseCmdError .operandRange s)) ∧
  ["NOP", "NOTE_ON 69, 1.0", "NOTE_ON 60, 0.5", "NOTE_OFF 69", "NOTE_OFF 127", "SET_ATTACK 0.01", "SET_DECAY 0.1",
      "SET_SUSTAIN 0.7", "SET_RELEASE 0.3", "SET_VOLUME 1.0", "SET_WAVEFORM 3.0", "RENDER 44100", "RENDER 0", "RESET",
      "SET_PARAM 6, 1.0", "NOTE_ON 69, 1.5"].map assembleLine =
    [some [0x0000000000000000], some [0x010045003F800000], some [0x01003C003F000000], some [0x0200450000000000],
      some [0x02007F0000000000], some [0x030000003C23D70A], some [0x030100003DCCCCCD], some [0x030200003F333333],
      some [0x030300003E99999A], some [0x030400003F800000], some [0x0305000040400000], some [0x040000000000AC44],
      some [0x0400000000000000], some [0x0500000000000000], some [0x030600003F800000], some [0x010045003FC00000]]

/-- 20_memory.md R75: a word over a byte-wide channel, least significant byte first, is read back whole, and the byte holding
bits 7:0 is the first: a 64-bit command word, and a 32-bit observation word or sample. -/
def Obligations.ByteChannelIsLittleEndian : Prop :=
  (∀ (w : CmdWord) (rest : List (BitVec 8)),
    wordOfBytes (bytesOfWord w ++ rest) = some (w, rest) ∧
    ∀ k : Fin 8, (bytesOfWord w)[k.val]? = some (w.extractLsb' (8 * k.val) 8)) ∧
  (∀ (w : BitVec 32) (rest : List (BitVec 8)),
    wordOfBytes32 (bytesOfWord32 w ++ rest) = some (w, rest) ∧
    ∀ k : Fin 4, (bytesOfWord32 w)[k.val]? = some (w.extractLsb' (8 * k.val) 8)) ∧
  (∀ (s : State) (a : BitVec 9), wordOfBytes32 (observeBytes s a) = some (observe s a, [])) ∧
  ∀ (x : F32) (xs : List F32), wordOfBytes32 (sampleBytes (x :: xs)) = some (x, sampleBytes xs)

/-! ### Rejection and the error registers (60_exceptions.md) -/

/-- R242, R241: a rejection by decode takes the word and latches its cause; a rejection by an operand check latches cause 4;
nothing else changes. -/
def Obligations.RejectionOnlyLatchesItsCause : Prop :=
  (∀ (s : State) (w : CmdWord) (rest : List CmdWord) (c : Cause),
    s.framePort = none → s.renderLeft = 0 → s.fifo = w :: rest → decode w = .reject c →
    step s = .next { s with
      fifo := rest
      g := { s.g with err := true, errCause := if s.g.err then s.g.errCause else causeCode c } }) ∧
  (∀ (i : Instr) (s : State), operandAdmitted i = false →
    exec i s = .next { s with g := { s.g with err := true, errCause := if s.g.err then s.g.errCause else 4 } }) ∧
  causeCode .unknownOp = 1 ∧ causeCode .reservedNonzero = 2 ∧ causeCode .badParamId = 3 ∧ causeCode .operandRange = 4

/-- R98: the operand check of every command, by the operand's value, and the cause of its failure; an admitted waveform
operand truncates to 0..7. -/
def Obligations.OperandRangesByValue : Prop :=
  (∀ i : Instr, (operandAdmitted i = true ↔ AdmittedByValue i) ∧
    (¬AdmittedByValue i → ∀ s, exec i s = .next (raiseCmdError .operandRange s))) ∧
  ∀ v : F32, WaveValue v → 0 ≤ f32Trunc v ∧ f32Trunc v ≤ 7

/-- R243: once set, the error flag and its cause survive every step; the activation reset clears them; the host reads
them in STATUS. -/
def Obligations.ErrorRegistersAreSticky : Prop :=
  (∀ s t : State, step s = .next t → s.g.err = true → t.g.err = true ∧ t.g.errCause = s.g.errCause) ∧
  (∀ (sr : F32) (p : InitParams), (State.activated sr p).g.err = false ∧ (State.activated sr p).g.errCause = 0) ∧
  ∀ s : State, (observe s 0x108).getLsbD 20 = s.g.err ∧ (observe s 0x108).extractLsb' 21 3 = s.g.errCause

/-- 10_state.md section 3 and 60_exceptions.md section 2: from every state in which no cause is latched without the flag and
every latched cause is 1 to 4, a step gives such a state. -/
def Obligations.ErrorCauseStaysLegal : Prop :=
  ∀ s t : State, ErrInv s → step s = .next t → ErrInv t

/-! ### Note commands (43_pool_commands.md section 3) -/

/-- R122: what a trigger leaves in every field of the voice. -/
def Obligations.TriggerWritesEveryField : Prop :=
  ∀ (g : Globals) (n : BitVec 7) (vel : F32),
    triggerVoice g n vel =
      { active := true, note := n, velocity := vel, freq := freqRom n, phase := 0x00000000
        phaseInc := f32Div (f32Mul 0x40C90FDB (freqRom n)) g.sr
        envState := .attack, envLevel := 0x00000000
        envInc := if f32Eq g.attack 0 then 0x3F800000 else f32Div 0x3F800000 (f32Mul g.attack g.sr)
        attack := g.attack, decay := g.decay, sustain := g.sustain, release := g.release
        waveform := g.waveform, age := 0 }

/-- R202, with the policy of R201: an admitted `NOTE_ON` triggers the lowest free voice, with the cursor unchanged; with
every voice active it triggers the voice at the cursor and advances the cursor; one of the two always holds. -/
def Obligations.NoteOnAllocatesAndTriggers : Prop :=
  ∀ (s : State) (note : BitVec 8) (vel : F32),
    (inUnitRange vel = true →
      (∀ i : Fin 16, s.voices[i].active = false → (∀ j : Fin 16, j < i → s.voices[j].active = true) →
        exec (.noteOn note vel) s =
          .next { s with voices := s.voices.set i (triggerVoice s.g (note.truncate 7) vel) }) ∧
      ((∀ j : Fin 16, s.voices[j].active = true) →
        exec (.noteOn note vel) s =
          .next { s with
            voices := s.voices.set s.g.cursor.toFin (triggerVoice s.g (note.truncate 7) vel)
            g := { s.g with cursor := s.g.cursor + 1 } })) ∧
    (inUnitRange vel = false → exec (.noteOn note vel) s = .next (raiseCmdError .operandRange s)) ∧
    ((∃ i : Fin 16, s.voices[i].active = false ∧ ∀ j : Fin 16, j < i → s.voices[j].active = true) ∨
      ∀ j : Fin 16, s.voices[j].active = true)

/-- R203, R124: `NOTE_OFF` puts every active voice that holds the note and is not yet in Release into Release, from its
current level; every other voice and every other register keeps its value. -/
def Obligations.NoteOffReleasesEveryHolder : Prop :=
  ∀ (s : State) (note : BitVec 8), ∃ t, exec (.noteOff note) s = .next t ∧
    t = { s with voices := t.voices } ∧
    ∀ i : Fin 16, t.voices[i] =
      if s.voices[i].active = true ∧ s.voices[i].note.zeroExtend 8 = note ∧ s.voices[i].envState ≠ .release then
        { s.voices[i] with
          envState := .release, age := 0
          envInc :=
            if f32Eq s.voices[i].release 0 then f32Neg s.voices[i].envLevel
            else f32Neg (f32Div s.voices[i].envLevel (f32Mul s.voices[i].release s.g.sr)) }
      else s.voices[i]

/-- 40_voice.md section 3: a second `NOTE_OFF` of the same note changes nothing. -/
def Obligations.NoteOffIsIdempotent : Prop :=
  ∀ (s : State) (note : BitVec 8), ∃ t, exec (.noteOff note) s = .next t ∧ exec (.noteOff note) t = .next t

/-- 43_pool_commands.md section 2: with every voice active, k admitted `NOTE_ON`s steal the voices in rotation: the cursor
moves by k modulo 16, every voice stays active, and the last voice stolen, at the cursor plus k − 1, holds the last note. -/
def Obligations.StealsRotateThroughThePool : Prop :=
  ∀ (notes : List (BitVec 8 × F32)) (s : State),
    (∀ n ∈ notes, noteFits n.1 = true ∧ inUnitRange n.2 = true) →
    (∀ j : Fin 16, s.voices[j].active = true) →
    (commandsEffect s (notes.map fun n => encode (.noteOn n.1 n.2))).g =
        { s.g with cursor := s.g.cursor + BitVec.ofNat 4 notes.length } ∧
      (∀ j : Fin 16, (commandsEffect s (notes.map fun n => encode (.noteOn n.1 n.2))).voices[j].active = true) ∧
      ∀ n, notes.getLast? = some n →
        (commandsEffect s (notes.map fun n => encode (.noteOn n.1 n.2))).voices[
            (s.g.cursor + BitVec.ofNat 4 (notes.length - 1)).toFin] =
          triggerVoice s.g (n.1.truncate 7) n.2

/-- 30_encoding.md section 4: the expansion of `ALL_NOTES_OFF` puts every active voice in Release and leaves every inactive
voice, and every global register, alone. -/
def Obligations.AllNotesOffReleasesEveryVoice : Prop :=
  ∀ s : State,
    (commandsEffect s ((expand .allNotesOff).map encode)).g = s.g ∧
    ∀ i : Fin 16,
      (s.voices[i].active = true →
        (commandsEffect s ((expand .allNotesOff).map encode)).voices[i].active = true ∧
        (commandsEffect s ((expand .allNotesOff).map encode)).voices[i].envState = .release) ∧
      (s.voices[i].active = false →
        (commandsEffect s ((expand .allNotesOff).map encode)).voices[i] = s.voices[i])

/-! ### Parameter commands (43_pool_commands.md section 4) -/

/-- R204 to R207, R210, R125: each ADSR command writes its global register and propagates the snapshot to every active voice,
or is rejected. -/
def Obligations.AdsrCommandsWriteAndPropagate : Prop :=
  ∀ (s : State) (v : F32),
    (isDuration v = true → ∃ t, exec (.setAttack v) s = .next t ∧ PropagatedTo s { s.g with attack := v } t) ∧
    (isDuration v = true → ∃ t, exec (.setDecay v) s = .next t ∧ PropagatedTo s { s.g with decay := v } t) ∧
    (inUnitRange v = true → ∃ t, exec (.setSustain v) s = .next t ∧ PropagatedTo s { s.g with sustain := v } t) ∧
    (isDuration v = true → ∃ t, exec (.setRelease v) s = .next t ∧ PropagatedTo s { s.g with release := v } t) ∧
    (isDuration v = false → ∀ i ∈ [Instr.setAttack v, .setDecay v, .setRelease v],
      exec i s = .next (raiseCmdError .operandRange s)) ∧
    (inUnitRange v = false → exec (.setSustain v) s = .next (raiseCmdError .operandRange s))

/-- R208: `SET_VOLUME` writes the global volume and touches no voice. -/
def Obligations.SetVolumeWritesTheGain : Prop :=
  ∀ (s : State) (v : F32),
    (inUnitRange v = true → exec (.setVolume v) s = .next { s with g := { s.g with volume := v } }) ∧
    (inUnitRange v = false → exec (.setVolume v) s = .next (raiseCmdError .operandRange s))

/-- R209: `SET_WAVEFORM` stores the operand truncated toward zero (0 for an operand between −1 and 0) and touches no
voice. -/
def Obligations.SetWaveformStoresTheTruncation : Prop :=
  ∀ (s : State) (v : F32),
    (inWaveRange v = true →
      exec (.setWaveform v) s = .next { s with g := { s.g with waveform := BitVec.ofNat 3 ⌊f32ToRat v⌋₊ } } ∧
      ⌊f32ToRat v⌋₊ < 8) ∧
    (inWaveRange v = false → exec (.setWaveform v) s = .next (raiseCmdError .operandRange s))

/-- 10_state.md section 3: a step changes an ADSR parameter, the volume or the waveform of the snapshot only by the command of
that parameter; the sample rate and the age limit it never changes. -/
def Obligations.GlobalsChangeOnlyByTheirCommand : Prop :=
  ∀ s t : State, step s = .next t →
    t.g.sr = s.g.sr ∧ t.g.ageLimit = s.g.ageLimit ∧
    (t.g.attack ≠ s.g.attack → NextCommand s (.setAttack t.g.attack)) ∧
    (t.g.decay ≠ s.g.decay → NextCommand s (.setDecay t.g.decay)) ∧
    (t.g.sustain ≠ s.g.sustain → NextCommand s (.setSustain t.g.sustain)) ∧
    (t.g.release ≠ s.g.release → NextCommand s (.setRelease t.g.release)) ∧
    (t.g.volume ≠ s.g.volume → NextCommand s (.setVolume t.g.volume)) ∧
    (t.g.waveform ≠ s.g.waveform → ∃ v, NextCommand s (.setWaveform v))

/-- R50: the cursor moves only when a `NOTE_ON` steals, and then by 1 modulo 16. -/
def Obligations.CursorMovesOnlyOnASteal : Prop :=
  ∀ s t : State, step s = .next t → t.g.cursor ≠ s.g.cursor →
    t.g.cursor = s.g.cursor + 1 ∧ (∀ j : Fin 16, s.voices[j].active = true) ∧
    ∃ note vel, NextCommand s (.noteOn note vel) ∧ inUnitRange vel = true

/-! ### RENDER and the frame port (43_pool_commands.md section 5, 20_memory.md) -/

/-- R213, R211, R212: `RENDER 0` changes nothing; `RENDER k` renders its first frame: every voice once, the ordered sum from
`+0.0` times the volume on both channels. The model's choices: one frame in this step, with `k − 1` left to the next steps
(log entry 4); a host that accepts at once or leaves the frame pending (log entry 5); and, with a frame already pending, all
`k` frames left unrendered (log entry 9). -/
def Obligations.RenderEmitsItsFirstFrame : Prop :=
  ∀ (s : State) (k : BitVec 32),
    (k = 0 → s.renderLeft = 0 → exec (.render k) s = .next s) ∧
    (k ≠ 0 → s.framePort = none → ∃ t out, exec (.render k) s = .next t ∧
      out = f32Mul ((List.finRange 16).foldl
        (fun acc i => f32Add acc (renderSample s.g s.voices[i]).sample) 0x00000000) s.g.volume ∧
      (∀ i : Fin 16, t.voices[i] = (renderSample s.g s.voices[i]).voice) ∧
      t.renderLeft = k - 1 ∧ t.g = s.g ∧ t.fifo = s.fifo ∧ t.hostAccepts = s.hostAccepts ∧
      t.output = (if s.hostAccepts then s.output ++ [⟨out, out⟩] else s.output) ∧
      t.framePort = (if s.hostAccepts then none else some ⟨out, out⟩)) ∧
    (s.framePort.isSome = true → exec (.render k) s = .next { s with renderLeft := k })

/-- R213: a `RENDER k` whose frames the host accepts completes with the state that `k` frame steps give. The number of machine
steps, `max 1 k`, one step for `k = 0` included, is the model's choice (log entry 4), and so is the host that accepts every
frame at once (log entry 5); outside the invariant `OutputInv` a step could compute a NaN, a fault of the model (log entry 8). -/
def Obligations.RenderCompletesInItsFrames : Prop :=
  ∀ (s : State) (k : BitVec 32) (rest : List CmdWord),
    OutputInv s → Quiescent s → s.fifo = encode (.render k) :: rest →
    Host.Core.run Sys2Proof.core (max 1 k.toNat) s = .next (renderFrames k.toNat { s with fifo := rest })

/-- R251: with an empty FIFO and no `RENDER` in progress the block does nothing. R265: a frame pending that the host does not
accept holds the block for ever, so a `RENDER k` of one frame or more does, for a host that accepts none; when the host accepts
the frame the next step goes on. The model's choices: a held frame is one not yet rendered, so every register keeps its value
(log entry 9); the host's side is `hostAccepts` and `hostAccept` (log entry 5); a step that waits answers the same state (log
entry 18); and a step that computes a NaN is a fault of the model (`faultOnNaN`, log entry 8). -/
def Obligations.TheBlockWaitsOnlyForItsHost : Prop :=
  (∀ s : State, s.renderLeft = 0 → s.fifo = [] → step s = .next s) ∧
  (∀ s : State, s.framePort.isSome = true → ∀ n, Host.Core.run Sys2Proof.core n s = .next s) ∧
  (∀ (s : State) (k : BitVec 32) (rest : List CmdWord),
    OutputInv s → s.framePort = none → s.renderLeft = 0 → s.hostAccepts = false →
    s.fifo = encode (.render k) :: rest → k ≠ 0 →
    ∃ t, t.fifo = rest ∧ t.renderLeft = k - 1 ∧ ∀ n, Host.Core.run Sys2Proof.core (n + 1) s = .next t) ∧
  ∀ (s : State) (f : Frame), s.framePort = some f →
    hostAccept s = { s with framePort := none, output := s.output ++ [f] } ∧
    (s.renderLeft ≠ 0 →
      step (hostAccept s) =
        faultOnNaN (hostAccept s) (.next (frameStep { hostAccept s with renderLeft := s.renderLeft - 1 }))) ∧
    ∀ (w : CmdWord) (rest : List CmdWord) (i : Instr),
      s.renderLeft = 0 → s.fifo = w :: rest → decode w = .cmd i →
      step (hostAccept s) = faultOnNaN (hostAccept s) (exec i { hostAccept s with fifo := rest })

/-- 20_memory.md section 1: only a frame step of a `RENDER` adds to the output stream or the frame port, and no step takes a
frame from either. -/
def Obligations.OnlyRenderEmitsFrames : Prop :=
  ∀ s t : State, step s = .next t →
    (∃ fs, t.output = s.output ++ fs ∧ fs.length ≤ 1) ∧
    (¬NextIsFrame s → t.output = s.output ∧ t.framePort = s.framePort) ∧
    (s.framePort.isSome = true → t.framePort = s.framePort)

/-- 43_pool_commands.md section 5: with no voice active, any number of frames are zeros, `+0.0` or, when the volume is `−0`,
`−0.0`, and no voice changes. -/
def Obligations.SilenceStaysSilent : Prop :=
  ∀ (s : State) (k : Nat), (∀ i : Fin 16, s.voices[i].active = false) → UnitValue s.g.volume → s.hostAccepts = true →
    (renderFrames k s).voices = s.voices ∧ (renderFrames k s).g = s.g ∧
    (renderFrames k s).output =
      s.output ++ List.replicate k
        (if f32Sign s.g.volume then ⟨0x80000000, 0x80000000⟩ else ⟨0x00000000, 0x00000000⟩)

/-! ### RESET and NOP (43_pool_commands.md section 6) -/

/-- R214, R59, R131: `RESET` forces every voice idle and keeps every other element. -/
def Obligations.ResetForcesEveryVoiceIdle : Prop :=
  ∀ s : State, ∃ t, exec .reset s = .next t ∧ t = { s with voices := t.voices } ∧
    ∀ i : Fin 16, t.voices[i] =
      { s.voices[i] with active := false, envState := .idle, envLevel := 0x00000000, envInc := 0x00000000 }

/-- R215: `NOP` is the all-zero word, and it changes no state. -/
def Obligations.NopChangesNothing : Prop :=
  encode .nop = 0 ∧ ∀ s : State, exec .nop s = .next s

/-! ### Voice operations (40_voice.md, 42_envelope.md) -/

/-- R126 to R130: an inactive voice returns `+0.0` unchanged; the watchdog ends a voice whose new age exceeds the limit; any
other voice gives `(wave × velocity) × level` at the old phase and level, advances its phase with one conditional
subtraction, and then steps its envelope. -/
def Obligations.RenderSampleFollowsItsSteps : Prop :=
  ∀ (g : Globals) (v : Voice), f32IsFinite g.ageLimit = true →
    (v.active = false → renderSample g v = { sample := 0x00000000, voice := v }) ∧
    (v.active = true → f32ToRat g.ageLimit < ((v.age + 1).toNat : ℚ) →
      renderSample g v =
        { sample := 0x00000000
          voice := { v with
            age := v.age + 1, active := false, envState := .idle, envLevel := 0x00000000, envInc := 0x00000000 } }) ∧
    (v.active = true → ((v.age + 1).toNat : ℚ) ≤ f32ToRat g.ageLimit →
      (renderSample g v).sample = f32Mul (f32Mul (wave v.waveform v.phase) v.velocity) v.envLevel ∧
      (renderSample g v).voice = envStep g.sr { v with
        age := v.age + 1
        phase :=
          if f32Ge (f32Add v.phase v.phaseInc) 0x40C90FDB then f32Sub (f32Add v.phase v.phaseInc) 0x40C90FDB
          else f32Add v.phase v.phaseInc })

/-- R171 to R180: the increment of each envelope state, and the envelope step of each state with its clamp and
transition. -/
def Obligations.EnvelopeIncrementsAndSteps : Prop :=
  ∀ (sr : F32) (v : Voice),
    incFor sr v = incByState sr v ∧
    (v.envState = .attack → envStep sr v =
      if f32Ge (f32Add v.envLevel v.envInc) 0x3F800000 then
        { v with
          envLevel := 0x3F800000, envState := .decay
          envInc := incByState sr { v with envLevel := 0x3F800000, envState := .decay } }
      else { v with envLevel := f32Add v.envLevel v.envInc }) ∧
    (v.envState = .decay → envStep sr v =
      if f32Le (f32Add v.envLevel v.envInc) v.sustain then
        { v with envLevel := v.sustain, envState := .sustain, envInc := 0x00000000 }
      else { v with envLevel := f32Add v.envLevel v.envInc }) ∧
    (v.envState = .sustain → envStep sr v = { v with envLevel := v.sustain }) ∧
    (v.envState = .release → envStep sr v =
      if f32Le (f32Add v.envLevel v.envInc) 0x3A83126F then
        { v with active := false, envState := .idle, envLevel := 0x00000000, envInc := 0x00000000 }
      else { v with envLevel := f32Add v.envLevel v.envInc }) ∧
    (v.envState = .idle → envStep sr v =
      { v with active := false, envState := .idle, envLevel := 0x00000000, envInc := 0x00000000 })

/-- R170: every change of a voice's envelope state that a step makes, and what makes it; no other transition exists. -/
def Obligations.EnvelopeTransitionsAreTheTables : Prop :=
  ∀ s t : State, IdleInv s → step s = .next t → ∀ i : Fin 16, t.voices[i].envState ≠ s.voices[i].envState →
    (t.voices[i].envState = .attack ∧ ∃ note vel, NextCommand s (.noteOn note vel)) ∨
    (NextIsFrame s ∧ s.voices[i].envState = .attack ∧ t.voices[i].envState = .decay) ∨
    (NextIsFrame s ∧ s.voices[i].envState = .decay ∧ t.voices[i].envState = .sustain) ∨
    (s.voices[i].envState ≠ .idle ∧ t.voices[i].envState = .release ∧
      ∃ note, NextCommand s (.noteOff note) ∧ s.voices[i].note.zeroExtend 8 = note) ∨
    (NextIsFrame s ∧ s.voices[i].envState = .release ∧ t.voices[i].envState = .idle) ∨
    (NextIsFrame s ∧ s.voices[i].active = true ∧ watchdogFires s.g s.voices[i] = true ∧
      t.voices[i].envState = .idle) ∨
    (t.voices[i].envState = .idle ∧ NextCommand s .reset)

/-- 10_state.md section 2: note, velocity, frequency, phase increment and waveform of a voice change only when a `NOTE_ON`
triggers that voice, which leaves the triggered voice whole. -/
def Obligations.IdentityFieldsChangeOnlyAtTrigger : Prop :=
  ∀ s t : State, step s = .next t → ∀ i : Fin 16,
    (t.voices[i].note = s.voices[i].note ∧ t.voices[i].velocity = s.voices[i].velocity ∧
      t.voices[i].freq = s.voices[i].freq ∧ t.voices[i].phaseInc = s.voices[i].phaseInc ∧
      t.voices[i].waveform = s.voices[i].waveform) ∨
    ∃ note vel, NextCommand s (.noteOn note vel) ∧ inUnitRange vel = true ∧
      t.voices[i] = triggerVoice s.g (note.truncate 7) vel

/-- R130, 70_reset_and_hazards.md R273 (a): the first sample of every triggered note is a signed zero; with a zero attack
that call leaves the voice in Decay at level 1.0. -/
def Obligations.FirstSampleIsASignedZero : Prop :=
  ∀ (g : Globals) (n : BitVec 7) (vel : F32), rateAdmitted g.sr = true → g.ageLimit = ageLimitOf g.sr → UnitValue vel →
    f32Mag (renderSample g (triggerVoice g n vel)).sample = 0 ∧
    (f32Mag g.attack = 0 →
      (renderSample g (triggerVoice g n vel)).voice.envState = .decay ∧
      (renderSample g (triggerVoice g n vel)).voice.envLevel = 0x3F800000)

/-- R178 with 10_state.md R42: a voice in Sustain at its sustain level holds that level bitwise for as many samples as the
watchdog allows. -/
def Obligations.SustainHoldsWithoutDrift : Prop :=
  ∀ (g : Globals) (v : Voice) (k : Nat),
    v.active = true → v.envState = .sustain → v.envLevel = v.sustain → v.age.toNat + k < 2 ^ 32 →
    natGtF32 (v.age.toNat + k) g.ageLimit = false →
    (renderTimes g k v).active = true ∧ (renderTimes g k v).envState = .sustain ∧
      (renderTimes g k v).envLevel = v.sustain ∧ (renderTimes g k v).age.toNat = v.age.toNat + k

/-- R127, 60_exceptions.md R248: at an admitted sample rate, a voice that is only rendered is inactive after at most 30000001
samples, whatever its envelope. -/
def Obligations.EveryVoiceEndsByTheWatchdog : Prop :=
  ∀ (g : Globals) (v : Voice), rateAdmitted g.sr = true → g.ageLimit = ageLimitOf g.sr → v.age.toNat ≤ 30000001 →
    ∃ k ≤ 30000001, (renderTimes g k v).active = false

/-! ### Wave shaper (41_waveform.md) -/

/-- R150, R152 to R156: the formula of each selector, at every phase. -/
def Obligations.WaveformFormulas : Prop :=
  ∀ θ : F32,
    wave 0 θ = sin32 θ ∧ wave 5 θ = sin32 θ ∧ wave 6 θ = sin32 θ ∧ wave 7 θ = sin32 θ ∧
    wave 1 θ = (if f32Lt θ 0x40490FDB then 0x3F800000 else 0xBF800000) ∧
    wave 2 θ = f32Sub (f32Div θ 0x40490FDB) 0x3F800000 ∧
    wave 3 θ =
      (if f32Lt θ 0x40490FDB then f32Sub (f32Div (f32Mul 0x40000000 θ) 0x40490FDB) 0x3F800000
      else f32Sub 0x40400000 (f32Div (f32Mul 0x40000000 θ) 0x40490FDB)) ∧
    wave 4 θ = (if f32Lt θ 0x3FC90FDB then 0x3F800000 else 0xBF800000)

/-- R158: for a phase in `[0, TWO_PI32)` every waveform is finite and in `[−1, 1]`, and square and pulse are exactly ±1. -/
def Obligations.WaveformsStayInRange : Prop :=
  ∀ (idx : BitVec 3) (θ : F32), f32IsFinite θ = true → 0 ≤ f32ToRat θ → f32Lt θ 0x40C90FDB = true →
    f32IsFinite (wave idx θ) = true ∧ -1 ≤ f32ToRat (wave idx θ) ∧ f32ToRat (wave idx θ) ≤ 1 ∧
    (idx = 1 ∨ idx = 4 → f32ToRat (wave idx θ) = 1 ∨ f32ToRat (wave idx θ) = -1)

/-- R18 for every finite operand whose bracket settles: `sin32` is the binary32 value nearest to the real sine; the sine of a
zero is that zero. The bracket is the model's (log entry 3): an operand whose bracket does not settle is left out, and that
there is none is established outside Lean only (log entry 15). -/
def Obligations.SineIsTheNearestValue : Prop :=
  (∀ x : F32, f32Mag x = 0 → sin32 x = x) ∧
  ∀ x : F32, f32IsFinite x = true → sineSettled (magUnits (f32Mag x)) ≠ none →
    f32IsFinite (sin32 x) = true ∧
    ∀ c : F32, f32IsFinite c = true →
      |((f32ToRat (sin32 x) : ℚ) : ℝ) - Real.sin ((f32ToRat x : ℚ) : ℝ)| ≤
        |((f32ToRat c : ℚ) : ℝ) - Real.sin ((f32ToRat x : ℚ) : ℝ)|

/-! ### Numbers (00_scope.md section 4) -/

/-- R14, the one rounding every operation uses: the nearest representable magnitude, to the even one at a tie, and infinity
exactly from the midpoint above the largest finite value on. -/
def Obligations.RoundingIsNearestEven : Prop :=
  ∀ n d : Nat, 0 < d →
    (roundMag n d < infMag → ∀ m < infMag,
      |magToRat (roundMag n d) - (n : ℚ) / d / 2 ^ 149| ≤ |magToRat m - (n : ℚ) / d / 2 ^ 149| ∧
      (|magToRat (roundMag n d) - (n : ℚ) / d / 2 ^ 149| = |magToRat m - (n : ℚ) / d / 2 ^ 149| →
        m = roundMag n d ∨ roundMag n d % 2 = 0)) ∧
    (roundMag n d = infMag ↔ (2 ^ 128 - 2 ^ 103 : ℚ) ≤ (n : ℚ) / d / 2 ^ 149)

/-- R14: `+ − × ÷` on finite operands give the exact result rounded (`RoundsTo`: nearest, ties to even, and the infinity of its
sign from 2^128 − 2^103 on), with the sign of a zero result; and the results with an infinite operand or a zero divisor that
are no NaN. Unary minus of anything but a NaN flips the sign bit. The special results are IEEE 754's, which the spec names from general knowledge
(log entry 12). -/
def Obligations.ArithmeticIsCorrectlyRounded : Prop :=
  (∀ a b : F32, f32IsFinite a = true → f32IsFinite b = true →
    RoundsTo (f32ToRat a + f32ToRat b) (f32Add a b) ∧
    f32Sign (f32Add a b) =
      (if f32ToRat a + f32ToRat b = 0 then f32Sign a && f32Sign b else decide (f32ToRat a + f32ToRat b < 0)) ∧
    RoundsTo (f32ToRat a - f32ToRat b) (f32Sub a b) ∧
    f32Sign (f32Sub a b) =
      (if f32ToRat a - f32ToRat b = 0 then f32Sign a && !f32Sign b else decide (f32ToRat a - f32ToRat b < 0)) ∧
    RoundsTo (f32ToRat a * f32ToRat b) (f32Mul a b) ∧ f32Sign (f32Mul a b) = (f32Sign a != f32Sign b) ∧
    (f32Mag b ≠ 0 →
      RoundsTo (f32ToRat a / f32ToRat b) (f32Div a b) ∧ f32Sign (f32Div a b) = (f32Sign a != f32Sign b)) ∧
    (f32Mag a ≠ 0 → f32Mag b = 0 → f32Div a b = signedInf (f32Sign a != f32Sign b))) ∧
  (∀ a b : F32, f32IsFinite a = true → f32IsInf b = true →
    f32Add a b = b ∧ f32Add b a = b ∧ f32Sub a b = f32Neg b ∧ f32Sub b a = b ∧
    f32Div a b = signedZero (f32Sign a != f32Sign b) ∧ f32Div b a = signedInf (f32Sign a != f32Sign b) ∧
    (f32Mag a ≠ 0 →
      f32Mul a b = signedInf (f32Sign a != f32Sign b) ∧ f32Mul b a = signedInf (f32Sign a != f32Sign b))) ∧
  (∀ a b : F32, f32IsInf a = true → f32IsInf b = true →
    (f32Sign a = f32Sign b → f32Add a b = a) ∧ (f32Sign a ≠ f32Sign b → f32Sub a b = a) ∧
    f32Mul a b = signedInf (f32Sign a != f32Sign b)) ∧
  ∀ a : F32, f32IsNaN a = false → f32Neg a = a ^^^ 0x80000000

/-- R16: an operation with a NaN operand, unary minus included, and each invalid operation gives the one NaN `0x7FC00000`, and
so does every operation whose result is a NaN, the sine included. Which operations are invalid is IEEE 754's list, presumed
(log entry 12); that unary minus of a NaN follows R16, not the sign flip of R14, is the model's reading (log entry 8). -/
def Obligations.NaNResultsAreTheOnePattern : Prop :=
  (∀ a b : F32, f32IsNaN a = true ∨ f32IsNaN b = true →
    f32Add a b = 0x7FC00000 ∧ f32Sub a b = 0x7FC00000 ∧ f32Mul a b = 0x7FC00000 ∧ f32Div a b = 0x7FC00000) ∧
  (∀ a : F32, f32IsNaN a = true → f32Neg a = 0x7FC00000) ∧
  (∀ x : F32, f32IsNaN (sin32 x) = true → sin32 x = 0x7FC00000) ∧
  (∀ a b : F32, ∀ op ∈ [f32Add, f32Sub, f32Mul, f32Div], f32IsNaN (op a b) = true → op a b = 0x7FC00000) ∧
  ∀ a b : F32,
    (f32IsInf a = true → f32IsInf b = true → f32Sign a ≠ f32Sign b → f32Add a b = 0x7FC00000) ∧
    (f32IsInf a = true → f32IsInf b = true → f32Sign a = f32Sign b → f32Sub a b = 0x7FC00000) ∧
    (f32IsInf a = true → f32Mag b = 0 → f32Mul a b = 0x7FC00000 ∧ f32Mul b a = 0x7FC00000) ∧
    (f32IsInf a = true → f32IsInf b = true → f32Div a b = 0x7FC00000) ∧
    (f32Mag a = 0 → f32Mag b = 0 → f32Div a b = 0x7FC00000)

/-- R15: the comparisons by value, infinities beyond every finite value, the two zeros equal, every comparison with a NaN
false, and an integer compared with an F32 value by exact real values. -/
def Obligations.ComparisonsAreByValue : Prop :=
  (∀ a b : F32, f32IsFinite a = true → f32IsFinite b = true →
    (f32Lt a b = true ↔ f32ToRat a < f32ToRat b) ∧ (f32Le a b = true ↔ f32ToRat a ≤ f32ToRat b) ∧
    (f32Gt a b = true ↔ f32ToRat b < f32ToRat a) ∧ (f32Ge a b = true ↔ f32ToRat b ≤ f32ToRat a) ∧
    (f32Eq a b = true ↔ f32ToRat a = f32ToRat b)) ∧
  (∀ a b : F32, f32IsNaN a = true ∨ f32IsNaN b = true →
    f32Lt a b = false ∧ f32Le a b = false ∧ f32Gt a b = false ∧ f32Ge a b = false ∧ f32Eq a b = false) ∧
  (∀ a b : F32, f32IsFinite a = true → f32IsInf b = true →
    f32Lt a b = !f32Sign b ∧ f32Lt b a = f32Sign b ∧ f32Eq a b = false) ∧
  (∀ a b : F32, f32IsInf a = true → f32IsInf b = true →
    f32Lt a b = (f32Sign a && !f32Sign b) ∧ f32Eq a b = (f32Sign a == f32Sign b)) ∧
  (∀ a b : F32, f32Le a b = (f32Lt a b || f32Eq a b) ∧ f32Gt a b = f32Lt b a ∧ f32Ge a b = f32Le b a) ∧
  (f32Eq 0x00000000 0x80000000 = true ∧ f32Lt 0x80000000 0x00000000 = false) ∧
  ∀ (k : Nat) (x : F32), (f32IsFinite x = true → (natGtF32 k x = true ↔ f32ToRat x < k)) ∧
    (f32IsNaN x = true → natGtF32 k x = false) ∧ (f32IsInf x = true → k < 2 ^ 128 → natGtF32 k x = f32Sign x)

/-- R19: the integer conversions: exact below 2^24, and truncation toward zero. -/
def Obligations.ConversionsAreExactOrTruncating : Prop :=
  (∀ k : Int, |k| < 2 ^ 24 → f32IsFinite (f32OfInt k) = true ∧ f32ToRat (f32OfInt k) = k) ∧
  ∀ x : F32, f32IsFinite x = true →
    f32Trunc x = if 0 ≤ f32ToRat x then ⌊f32ToRat x⌋ else ⌈f32ToRat x⌉

/-- R121: every entry of the frequency ROM is the binary32 value nearest to `440·2^((n−69)/12)`, entry 69 is exactly 440.0, and
each octave doubles. -/
def Obligations.FrequencyRomIsNearest : Prop :=
  (∀ (n : BitVec 7) (c : F32), f32IsFinite c = true →
    |((f32ToRat (freqRom n) : ℚ) : ℝ) - 440 * (2 : ℝ) ^ (((n.toNat : ℝ) - 69) / 12)| ≤
      |((f32ToRat c : ℚ) : ℝ) - 440 * (2 : ℝ) ^ (((n.toNat : ℝ) - 69) / 12)|) ∧
  freqRom 69 = 0x43DC0000 ∧ f32ToRat (freqRom 69) = 440 ∧
  ∀ n : BitVec 7, (freqRom n).toNat = (freqRom (BitVec.ofNat 7 (n.toNat % 12))).toNat + n.toNat / 12 * 2 ^ 23

/-! ### The step (20_memory.md, 60_exceptions.md) -/

/-- 20_memory.md section 1, 43_pool_commands.md section 1: with no frame pending and no `RENDER` in progress a step takes the
oldest word and runs exactly the instruction it decodes to; a word placed by `withFetchWord`, which accepts a pending frame
and ends a `RENDER` in progress (log entry 4), is that word. Around `exec` a step only turns a computed NaN into a fault of the
model (`faultOnNaN`, log entry 8), which in an admitted state never arises. -/
def Obligations.StepRunsTheDecodedInstruction : Prop :=
  (∀ (s : State) (w : CmdWord) (rest : List CmdWord) (i : Instr),
    s.framePort = none → s.renderLeft = 0 → s.fifo = w :: rest → decode w = .cmd i →
      step s = faultOnNaN s (exec i { s with fifo := rest }) ∧
      (OutputInv s → step s = exec i { s with fifo := rest })) ∧
  ∀ (s : State) (i : Instr), i.wellFormed = true →
    step (s.withFetchWord 64 (encode i).toNat) =
      faultOnNaN (s.withFetchWord 64 (encode i).toNat) (exec i { hostAccept s with renderLeft := 0 }) ∧
    (OutputInv s →
      step (s.withFetchWord 64 (encode i).toNat) = exec i { hostAccept s with renderLeft := 0 })

/-- 60_exceptions.md sections 1 and 3, 93_implementation_defined.md I10: the block itself always answers a next state, and the
machine's step is that state, or the fault of a computed NaN where the block has put a NaN into a register, the frame port or
the output stream that was not there; in an admitted state it never has. That the fault looks at those places is the model's
form of I10 (log entry 8). -/
def Obligations.StepFaultsOnlyOnAComputedNaN : Prop :=
  (∀ s : State, ∃ t, blockStep s = .next t ∧ step s = if computesNaN s t then .fault .nanComputed else .next t) ∧
  (∀ s t : State, computesNaN s t = true ↔
    (∃ i : Fin 16, ∃ r ∈ [Voice.phase, Voice.phaseInc, Voice.envLevel, Voice.envInc],
      f32IsNaN (r t.voices[i]) = true ∧ r t.voices[i] ≠ r s.voices[i]) ∨
    ∃ f : Frame, (t.framePort = some f ∧ s.framePort ≠ some f ∨ f ∈ t.output.drop s.output.length) ∧
      (f32IsNaN f.left = true ∨ f32IsNaN f.right = true)) ∧
  ∀ s : State, OutputInv s → ∃ t, step s = .next t

/-- R80: from a state with nothing in progress, with a host that accepts every frame (log entry 5), the machine runs any sequence
of command words to the left fold of the commands' effects, rejected words included. Outside the invariant `OutputInv` a step
could compute a NaN, a fault of the model (log entry 8). -/
def Obligations.RunIsTheFoldOfTheCommands : Prop :=
  ∀ (ws : List CmdWord) (s : State), OutputInv s → Quiescent s → s.fifo = ws →
    ∃ n, Host.Core.run Sys2Proof.core n s = .next (commandsEffect { s with fifo := [] } ws)

/-! ### The observation port (10_state.md section 4) -/

/-- R53, R55: the register at every address of the observation port, reserved addresses reading 0. -/
def Obligations.ObservationMapPlacesEveryRegister : Prop :=
  (∀ (s : State) (i : Fin 16) (f : Nat), f < 16 →
    observe s (BitVec.ofNat 9 (16 * i.val + f)) =
      match f with
      | 0 => vctrlWord s.voices[i]
      | 1 => s.voices[i].velocity
      | 2 => s.voices[i].freq
      | 3 => s.voices[i].phase
      | 4 => s.voices[i].phaseInc
      | 5 => s.voices[i].envLevel
      | 6 => s.voices[i].envInc
      | 7 => s.voices[i].attack
      | 8 => s.voices[i].decay
      | 9 => s.voices[i].sustain
      | 10 => s.voices[i].release
      | 11 => s.voices[i].age
      | _ => 0) ∧
  ∀ (s : State),
    observe s 0x100 = s.g.attack ∧ observe s 0x101 = s.g.decay ∧ observe s 0x102 = s.g.sustain ∧
    observe s 0x103 = s.g.release ∧ observe s 0x104 = s.g.volume ∧
    observe s 0x105 = s.g.waveform.zeroExtend 32 ∧ observe s 0x106 = s.g.sr ∧ observe s 0x107 = s.g.ageLimit ∧
    observe s 0x108 = statusWord s ∧
    ∀ a : BitVec 9, 0x109 ≤ a.toNat → observe s a = 0

/-- R54, R56: every bit of VCTRL and STATUS, and STATUS after activation. -/
def Obligations.PackedWordsHoldTheirFields : Prop :=
  (∀ v : Voice,
    (vctrlWord v).getLsbD 0 = v.active ∧
    (vctrlWord v).extractLsb' 1 3 =
      (match v.envState with | .idle => 0 | .attack => 1 | .decay => 2 | .sustain => 3 | .release => 4) ∧
    (vctrlWord v).extractLsb' 4 3 = v.waveform ∧ (vctrlWord v).getLsbD 7 = false ∧
    (vctrlWord v).extractLsb' 8 7 = v.note ∧ (vctrlWord v).extractLsb' 15 17 = 0) ∧
  (∀ (sr : F32) (p : InitParams), observe (State.activated sr p) 0x108 = 0) ∧
  ∀ s : State,
    observe s 0x108 = statusWord s ∧
    (∀ i : Fin 16, (statusWord s).getLsbD i.val = s.voices[i].active) ∧
    (statusWord s).extractLsb' 16 4 = s.g.cursor ∧ (statusWord s).getLsbD 20 = s.g.err ∧
    (statusWord s).extractLsb' 21 3 = s.g.errCause ∧ (statusWord s).extractLsb' 24 8 = 0

/-! ### Activation and the host (70_reset_and_hazards.md) -/

/-- R58, R260: the state after the activation reset, for every admitted sample rate and every `INIT_PARAMS`. The model's choices:
R260 requires admitted `INIT_PARAMS`, and that others are taken as they are is log entry 1; that an activation of a block already
active is a fresh reset too is log entry 10. -/
def Obligations.ActivationSetsEveryElement : Prop :=
  ∀ (sr : F32) (p : InitParams) (b : Block), rateAdmitted sr = true →
    ∃ s, b.hostEvent p (.activate sr) = .next (.active s) ∧
      (∀ i : Fin 16, s.voices[i] =
        { active := false, note := 0, velocity := 0, freq := 0, phase := 0, phaseInc := 0, envState := .idle
          envLevel := 0, envInc := 0, attack := 0, decay := 0, sustain := 0, release := 0, waveform := 0, age := 0 }) ∧
      s.g =
        { attack := p.attack, decay := p.decay, sustain := p.sustain, release := p.release, volume := p.volume
          waveform := p.waveform, sr := sr, ageLimit := f32Mul sr 0x41F00000, cursor := 0, err := false, errCause := 0 } ∧
      s.fifo = [] ∧ s.framePort = none ∧ s.renderLeft = 0 ∧ observe s 0x108 = 0

/-- 70_reset_and_hazards.md section 1, 20_memory.md section 1: an activation outside the admitted rates is refused; no state
survives deactivation; a change of the rate input has no effect; a written word only joins the FIFO; accepting the pending frame
only moves it to the output stream; and beginning or ceasing to accept frames drops no command and no frame. So no host event
other than activation and deactivation writes a register of an active block. The model's choices: the FIFO has no bound (log
entry 7), a host that begins to accept takes the pending frame (log entry 5), the output stream is a field (log entry 6), and
an event other than an activation does nothing to a block that is not active (log entry 10). -/
def Obligations.HostEventsActOnlyThroughThePorts : Prop :=
  (∀ (p : InitParams) (sr : F32) (b : Block), rateAdmitted sr = false →
    b.hostEvent p (.activate sr) = .refused (.sampleRate sr)) ∧
  (∀ (p : InitParams) (b : Block), b.hostEvent p .deactivate = .next .inactive) ∧
  (∀ (p : InitParams) (s : State) (w : CmdWord),
    Block.hostEvent p (.writeWord w) (.active s) = .next (.active { s with fifo := s.fifo ++ [w] })) ∧
  (∀ (p : InitParams) (s : State) (sr : F32), Block.hostEvent p (.changeRate sr) (.active s) = .next (.active s)) ∧
  (∀ (p : InitParams) (s : State),
    Block.hostEvent p .acceptFrame (.active s) = .next (.active (hostAccept s)) ∧
    hostAccept s = { s with framePort := none, output := s.output ++ s.framePort.toList } ∧
    Block.hostEvent p (.setAccepts true) (.active s) =
      .next (.active { s with hostAccepts := true, framePort := none, output := s.output ++ s.framePort.toList }) ∧
    Block.hostEvent p (.setAccepts false) (.active s) = .next (.active { s with hostAccepts := false })) ∧
  (∀ (p : InitParams) (e : HostEvent) (s : State), (∀ sr, e ≠ .activate sr) → e ≠ .deactivate →
    ∃ t, Block.hostEvent p e (.active s) = .next (.active t) ∧
      t.voices = s.voices ∧ t.g = s.g ∧ t.renderLeft = s.renderLeft) ∧
  ∀ (p : InitParams) (e : HostEvent), (∀ sr, e ≠ .activate sr) → Block.hostEvent p e .inactive = .next .inactive

/-! ### Invariants (10_state.md R42 to R44, 20_memory.md) -/

/-- R43: every step keeps every voice either fully idle or active in one of the four phases. -/
def Obligations.StepKeepsVoicesIdleOrActive : Prop :=
  ∀ s t : State, IdleInv s → step s = .next t → IdleInv t

/-- 10_state.md R44 (c): every step keeps the copies of every active voice equal to the global parameters. -/
def Obligations.StepKeepsActiveCopiesEqual : Prop :=
  ∀ s t : State, CopyInv s → step s = .next t → CopyInv t

/-- 10_state.md R42: at an admitted sample rate every step keeps every age at most 30000001, and the age of every active voice
at most the age limit, so the counter never wraps. -/
def Obligations.StepKeepsAgesBounded : Prop :=
  ∀ s t : State, AgeInv s → step s = .next t → AgeInv t

/-- 10_state.md R44 (a): at an admitted sample rate, with admitted parameters, every step keeps every level finite and in
`[0, 1]`, and every increment no NaN and of its state's sign. -/
def Obligations.StepKeepsLevelsInRange : Prop :=
  ∀ s t : State, LevelInv s → step s = .next t → LevelInv t

/-- 10_state.md R44 (b): at an admitted sample rate every step keeps every phase finite, not negative and bounded, and below
`TWO_PI32` whenever the phase increment is. -/
def Obligations.StepKeepsPhasesInRange : Prop :=
  ∀ s t : State, PhaseInv s → step s = .next t → PhaseInv t

/-- 10_state.md R44 (b): in that range the wrap's subtraction is exact. -/
def Obligations.PhaseWrapIsExact : Prop :=
  ∀ phase inc : F32, f32IsFinite phase = true → f32IsFinite inc = true →
    0 ≤ f32ToRat phase → 0 ≤ f32ToRat inc → f32Lt phase 0x40C90FDB = true → f32Lt inc 0x40C90FDB = true →
    f32Ge (f32Add phase inc) 0x40C90FDB = true →
    f32ToRat (advancePhase phase inc) = f32ToRat (f32Add phase inc) - f32ToRat 0x40C90FDB

/-- 10_state.md R44 (d): every step keeps every frame of the output stream and the frame port finite. -/
def Obligations.StepKeepsOutputsFinite : Prop :=
  ∀ s t : State, OutputInv s → step s = .next t → OutputInv t

/-- 20_memory.md R72: every step keeps both channels of every frame bitwise equal. The second half is about the model's own
field `hostAccepts` (log entry 5): a host that accepts frames as they are pushed is left with none pending. -/
def Obligations.StepKeepsFramesStereo : Prop :=
  ∀ s t : State, StereoInv s → PortInv s → step s = .next t → StereoInv t ∧ PortInv t

/-- The invariants hold after every admitted activation, and so at `State.reset`, whose sample rate and `INIT_PARAMS` are the
model's choice (log entries 1 and 2). -/
def Obligations.InvariantsHoldAtActivation : Prop :=
  (∀ (sr : F32) (p : InitParams), rateAdmitted sr = true → initAdmitted p = true →
    IdleInv (State.activated sr p) ∧ CopyInv (State.activated sr p) ∧ ErrInv (State.activated sr p) ∧
    AgeInv (State.activated sr p) ∧ LevelInv (State.activated sr p) ∧ PhaseInv (State.activated sr p) ∧
    OutputInv (State.activated sr p) ∧ StereoInv (State.activated sr p) ∧ PortInv (State.activated sr p)) ∧
  ∃ sr p, State.reset = State.activated sr p ∧ rateAdmitted sr = true ∧ initAdmitted p = true
end

