-- ==== Sys2Proof/Laws/Float.lean ====
section
/-! SUPPORT. The laws of binary32 rounding: magnitude bits order the values, rounding is monotone, and it leaves a
representable value alone. Every range fact about the arithmetic follows from these. -/

namespace Sys2Proof.Machine

/-! ### Magnitude bits and their values -/

/-- The next magnitude's value lies one unit in the last place above. -/
theorem magUnits_succ (b : Nat) : magUnits (b + 1) = magUnits b + 2 ^ (b / 2 ^ 23 - 1) := by
  unfold magUnits
  obtain h | h : (b + 1) / 2 ^ 23 = b / 2 ^ 23 ∨ (b + 1) / 2 ^ 23 = b / 2 ^ 23 + 1 := by omega
  · rw [h]
    split
    · rename_i h0
      rw [h0, Nat.zero_sub, Nat.pow_zero]
    · rw [show (b + 1) % 2 ^ 23 = b % 2 ^ 23 + 1 by omega, ← Nat.add_assoc, Nat.add_mul, Nat.one_mul]
  · rw [h, if_neg (Nat.succ_ne_zero _), show (b + 1) % 2 ^ 23 = 0 by omega]
    split
    · rename_i h0
      rw [h0, show b = 2 ^ 23 - 1 by omega]
      norm_num
    · obtain ⟨e, he⟩ := Nat.exists_eq_succ_of_ne_zero ‹¬b / 2 ^ 23 = 0›
      have hf : b % 2 ^ 23 = 2 ^ 23 - 1 := by omega
      rw [he, hf]
      simp only [Nat.succ_eq_add_one, Nat.add_sub_cancel]
      rw [Nat.pow_succ]
      ring_nf

/-- Magnitude bits order the values they stand for. -/
theorem magUnits_strictMono : StrictMono magUnits :=
  strictMono_nat_of_lt_succ fun b => by
    rw [magUnits_succ]
    exact Nat.lt_add_of_pos_right (Nat.two_pow_pos _)

theorem magUnits_lt_iff {a b : Nat} : magUnits a < magUnits b ↔ a < b := magUnits_strictMono.lt_iff_lt

theorem magUnits_le_iff {a b : Nat} : magUnits a ≤ magUnits b ↔ a ≤ b := magUnits_strictMono.le_iff_le

theorem magUnits_inj {a b : Nat} : magUnits a = magUnits b ↔ a = b := magUnits_strictMono.injective.eq_iff

@[simp] theorem magUnits_zero : magUnits 0 = 0 := by decide

/-- The value of the magnitude bits of a significand of 24 bits at scale `k`, the carry to the next scale included. -/
theorem magUnits_scaled {k m : Nat} (hm : m ≤ 2 ^ 24) (hk : k ≠ 0 → 2 ^ 23 ≤ m) :
    magUnits (k * 2 ^ 23 + m) = m * 2 ^ k := by
  unfold magUnits
  by_cases h1 : m < 2 ^ 23
  · have : k = 0 := by by_contra h; have := hk h; omega
    subst this
    rw [if_pos (by omega)]
    simp
  · by_cases h2 : m < 2 ^ 24
    · rw [if_neg (by omega), show (k * 2 ^ 23 + m) / 2 ^ 23 - 1 = k by omega,
        show 2 ^ 23 + (k * 2 ^ 23 + m) % 2 ^ 23 = m by omega]
    · have : m = 2 ^ 24 := by omega
      subst this
      rw [if_neg (by omega), show (k * 2 ^ 23 + 2 ^ 24) / 2 ^ 23 - 1 = k + 1 by omega,
        show 2 ^ 23 + (k * 2 ^ 23 + 2 ^ 24) % 2 ^ 23 = 2 ^ 23 by omega, Nat.pow_succ]
      ring

/-! ### Rounding to a whole number -/

/-- `roundDiv` gives the whole number nearest to `n ÷ d`: twice the distance is at most `d`. -/
theorem roundDiv_bounds (n : Nat) {d : Nat} (hd : 0 < d) :
    2 * n ≤ 2 * (d * roundDiv n d) + d ∧ 2 * (d * roundDiv n d) ≤ 2 * n + d := by
  have h := Nat.div_add_mod n d
  have hlt := Nat.mod_lt n hd
  unfold roundDiv
  split
  · omega
  · split
    · rw [Nat.mul_add, Nat.mul_one]
      omega
    · obtain he | he := Nat.mod_two_eq_zero_or_one (n / d)
      · rw [he, Nat.add_zero]
        omega
      · rw [he, Nat.mul_add, Nat.mul_one]
        omega

/-- At equal distance from two whole numbers `roundDiv` gives the even one. -/
theorem roundDiv_tie (n : Nat) {d : Nat} (hd : 0 < d)
    (h : 2 * n = 2 * (d * roundDiv n d) + d ∨ 2 * (d * roundDiv n d) = 2 * n + d) : roundDiv n d % 2 = 0 := by
  have hn := Nat.div_add_mod n d
  have hlt := Nat.mod_lt n hd
  unfold roundDiv at h ⊢
  split
  · rename_i h1
    rw [if_pos h1] at h
    omega
  · rename_i h1
    rw [if_neg h1] at h
    split
    · rename_i h2
      rw [if_pos h2, Nat.mul_add, Nat.mul_one] at h
      omega
    · omega

theorem roundDiv_mul_self (k : Nat) {d : Nat} (hd : 0 < d) : roundDiv (k * d) d = k := by
  unfold roundDiv
  simp [hd]

/-- Rounding to a whole number is monotone. -/
theorem roundDiv_mono {n₁ d₁ n₂ d₂ : Nat} (h₁ : 0 < d₁) (h₂ : 0 < d₂) (h : n₁ * d₂ ≤ n₂ * d₁) :
    roundDiv n₁ d₁ ≤ roundDiv n₂ d₂ := by
  by_contra hc
  have b₁ := (roundDiv_bounds n₁ h₁).2
  have b₂ := (roundDiv_bounds n₂ h₂).1
  have hr : roundDiv n₂ d₂ + 1 ≤ roundDiv n₁ d₁ := by omega
  have e₁ : d₁ * d₂ * (2 * roundDiv n₂ d₂ + 1) ≤ d₁ * d₂ * (2 * roundDiv n₁ d₁ - 1) :=
    Nat.mul_le_mul_left _ (by omega)
  have p₁ : d₁ * (2 * roundDiv n₁ d₁ - 1) ≤ 2 * n₁ := by
    rw [Nat.mul_sub, Nat.mul_one]
    have : d₁ * (2 * roundDiv n₁ d₁) = 2 * (d₁ * roundDiv n₁ d₁) := by ring
    omega
  have p₂ : 2 * n₂ ≤ d₂ * (2 * roundDiv n₂ d₂ + 1) := by
    have : d₂ * (2 * roundDiv n₂ d₂ + 1) = 2 * (d₂ * roundDiv n₂ d₂) + d₂ := by ring
    omega
  have q₁ := Nat.mul_le_mul_left d₂ p₁
  have q₂ := Nat.mul_le_mul_left d₁ p₂
  have s₁ : d₂ * (d₁ * (2 * roundDiv n₁ d₁ - 1)) = d₁ * d₂ * (2 * roundDiv n₁ d₁ - 1) := by ring
  have s₂ : d₁ * (d₂ * (2 * roundDiv n₂ d₂ + 1)) = d₁ * d₂ * (2 * roundDiv n₂ d₂ + 1) := by ring
  have s₃ : d₂ * (2 * n₁) = 2 * (n₁ * d₂) := by ring
  have s₄ : d₁ * (2 * n₂) = 2 * (n₂ * d₁) := by ring
  -- every inequality of the chain is an equality, so both distances are ties and both results are even
  have t₁ : d₂ * (d₁ * (2 * roundDiv n₁ d₁ - 1)) = d₂ * (2 * n₁) := by omega
  have t₂ : d₁ * (2 * n₂) = d₁ * (d₂ * (2 * roundDiv n₂ d₂ + 1)) := by omega
  have u₁ := Nat.eq_of_mul_eq_mul_left h₂ t₁
  have u₂ := Nat.eq_of_mul_eq_mul_left h₁ t₂
  have v : d₁ * d₂ * (2 * roundDiv n₂ d₂ + 1) = d₁ * d₂ * (2 * roundDiv n₁ d₁ - 1) := by omega
  have w := Nat.eq_of_mul_eq_mul_left (Nat.mul_pos h₁ h₂) v
  have x₁ := roundDiv_tie n₁ h₁ (Or.inr (by
    rw [Nat.mul_sub, Nat.mul_one] at u₁
    have : d₁ * (2 * roundDiv n₁ d₁) = 2 * (d₁ * roundDiv n₁ d₁) := by ring
    have : d₁ ≤ d₁ * (2 * roundDiv n₁ d₁) := Nat.le_mul_of_pos_right _ (by omega)
    omega))
  have x₂ := roundDiv_tie n₂ h₂ (Or.inl (by
    have : d₂ * (2 * roundDiv n₂ d₂ + 1) = 2 * (d₂ * roundDiv n₂ d₂) + d₂ := by ring
    omega))
  omega

/-! ### Rounding to magnitude bits -/

/-- The significand of `roundMag` fits 24 bits or is the carry 2^24, and is normal at every scale but the lowest. -/
theorem roundSig_bounds (n : Nat) {d : Nat} (hd : 0 < d) :
    roundDiv n (d * 2 ^ roundScale n d) ≤ 2 ^ 24 ∧
      (roundScale n d ≠ 0 → 2 ^ 23 ≤ roundDiv n (d * 2 ^ roundScale n d)) := by
  have hp : 0 < d * 2 ^ roundScale n d := Nat.mul_pos hd (Nat.two_pow_pos _)
  have hdm := Nat.div_add_mod n d
  have hlt := Nat.mod_lt n hd
  constructor
  · rw [← roundDiv_mul_self (2 ^ 24) Nat.one_pos]
    refine roundDiv_mono hp Nat.one_pos ?_
    have hq : n / d < 2 ^ (roundScale n d + 24) :=
      Nat.lt_of_lt_of_le Nat.lt_log2_self (Nat.pow_le_pow_right (by omega) (by unfold roundScale; omega))
    have : d * (n / d) + d ≤ d * 2 ^ (roundScale n d + 24) := by
      rw [← Nat.mul_succ]
      exact Nat.mul_le_mul_left _ hq
    rw [Nat.pow_add] at this
    have e : 2 ^ 24 * 1 * (d * 2 ^ roundScale n d) = d * (2 ^ roundScale n d * 2 ^ 24) := by ring
    omega
  · intro hk
    rw [← roundDiv_mul_self (2 ^ 23) Nat.one_pos]
    refine roundDiv_mono Nat.one_pos hp ?_
    have hq : 2 ^ (roundScale n d + 23) ≤ n / d := by
      have hne : n / d ≠ 0 := by
        intro h0
        simp [roundScale, h0] at hk
      refine Nat.le_trans (Nat.pow_le_pow_right (by omega) ?_) (Nat.log2_self_le hne)
      unfold roundScale at hk ⊢
      omega
    have := Nat.mul_le_mul_left d hq
    rw [Nat.pow_add] at this
    have e : 2 ^ 23 * 1 * (d * 2 ^ roundScale n d) = d * (2 ^ roundScale n d * 2 ^ 23) := by ring
    omega

theorem roundMag_le_inf (n d : Nat) : roundMag n d ≤ infMag := Nat.min_le_right _ _

theorem roundScale_mono {n₁ d₁ n₂ d₂ : Nat} (h₁ : 0 < d₁) (h₂ : 0 < d₂) (h : n₁ * d₂ ≤ n₂ * d₁) :
    roundScale n₁ d₁ ≤ roundScale n₂ d₂ := by
  have hq : n₁ / d₁ ≤ n₂ / d₂ := by
    rw [Nat.le_div_iff_mul_le h₂]
    have := Nat.mul_le_mul_right d₂ (Nat.div_mul_le_self n₁ d₁)
    refine le_of_mul_le_mul_right ?_ h₁
    calc n₁ / d₁ * d₂ * d₁ = n₁ / d₁ * d₁ * d₂ := by ring
      _ ≤ n₁ * d₂ := this
      _ ≤ n₂ * d₁ := h
  unfold roundScale
  have : Nat.log2 (n₁ / d₁) ≤ Nat.log2 (n₂ / d₂) := by
    rw [Nat.log2_eq_log_two, Nat.log2_eq_log_two]
    exact Nat.log_mono_right hq
  omega

/-- Rounding is monotone: a larger exact value never gives a smaller result. -/
theorem roundMag_mono {n₁ d₁ n₂ d₂ : Nat} (h₁ : 0 < d₁) (h₂ : 0 < d₂) (h : n₁ * d₂ ≤ n₂ * d₁) :
    roundMag n₁ d₁ ≤ roundMag n₂ d₂ := by
  have hs := roundScale_mono h₁ h₂ h
  have b₁ := roundSig_bounds n₁ h₁
  have b₂ := roundSig_bounds n₂ h₂
  unfold roundMag
  refine min_le_min_right _ ?_
  rcases Nat.eq_or_lt_of_le hs with he | hl
  · rw [he] at b₁ ⊢
    refine Nat.add_le_add_left (roundDiv_mono (Nat.mul_pos h₁ (Nat.two_pow_pos _))
      (Nat.mul_pos h₂ (Nat.two_pow_pos _)) ?_) _
    calc n₁ * (d₂ * 2 ^ roundScale n₂ d₂) = n₁ * d₂ * 2 ^ roundScale n₂ d₂ := by ring
      _ ≤ n₂ * d₁ * 2 ^ roundScale n₂ d₂ := Nat.mul_le_mul_right _ h
      _ = n₂ * (d₁ * 2 ^ roundScale n₂ d₂) := by ring
  · have := b₂.2 (by omega)
    have := b₁.1
    omega

/-- A representable value rounds to itself. -/
theorem roundMag_exact {b d : Nat} (hd : 0 < d) (hb : b ≤ infMag) : roundMag (magUnits b * d) d = b := by
  have key : roundScale (magUnits b * d) d * 2 ^ 23 + roundDiv (magUnits b * d) (d * 2 ^ roundScale (magUnits b * d) d)
      = b := by
    unfold roundScale
    rw [Nat.mul_div_cancel _ hd]
    unfold magUnits
    split
    · rename_i h
      have hlog : Nat.log2 b - 23 = 0 := by
        by_cases h0 : b = 0
        · subst h0; decide
        · have := (Nat.log2_lt h0 (k := 23)).2 (by omega)
          omega
      rw [hlog]
      simp [roundDiv_mul_self b hd]
    · rename_i h
      obtain ⟨e, he⟩ := Nat.exists_eq_succ_of_ne_zero h
      have hlog : Nat.log2 ((2 ^ 23 + b % 2 ^ 23) * 2 ^ (b / 2 ^ 23 - 1)) = 23 + e := by
        rw [he, Nat.succ_sub_one, Nat.log2_eq_iff (by positivity)]
        constructor
        · rw [Nat.pow_add]
          exact Nat.mul_le_mul_right _ (by omega)
        · rw [show 23 + e + 1 = 24 + e by omega, Nat.pow_add 2 24]
          exact Nat.mul_lt_mul_of_pos_right (by omega) (Nat.two_pow_pos _)
      rw [hlog, Nat.add_sub_cancel_left, he, Nat.succ_sub_one,
        show (2 ^ 23 + b % 2 ^ 23) * 2 ^ e * d = (2 ^ 23 + b % 2 ^ 23) * (d * 2 ^ e) by ring,
        roundDiv_mul_self _ (Nat.mul_pos hd (Nat.two_pow_pos _))]
      omega
  unfold roundMag
  rw [key]
  omega

/-! ### Patterns -/

theorem f32Mag_lt (x : F32) : f32Mag x < 2 ^ 31 := Nat.mod_lt _ (by decide)

theorem f32Mag_pack (s : Bool) {m : Nat} (h : m < 2 ^ 31) : f32Mag (f32Pack s m) = m := by
  unfold f32Mag f32Pack
  cases s <;> simp only [BitVec.toNat_ofNat, if_true] <;> simp <;> omega

theorem f32Sign_pack (s : Bool) {m : Nat} (h : m < 2 ^ 31) : f32Sign (f32Pack s m) = s := by
  unfold f32Sign f32Pack
  cases s <;> simp <;> omega

/-- A pattern is its sign and its magnitude bits. -/
theorem f32Pack_sign_mag (x : F32) : f32Pack (f32Sign x) (f32Mag x) = x := by
  have := x.isLt
  apply BitVec.eq_of_toNat_eq
  unfold f32Pack f32Sign f32Mag
  rw [BitVec.toNat_ofNat]
  by_cases h : 2 ^ 31 ≤ x.toNat
  · rw [if_pos (decide_eq_true h)]
    omega
  · rw [if_neg (by simpa using h)]
    omega

theorem roundMag_lt (n d : Nat) : roundMag n d < 2 ^ 31 :=
  Nat.lt_of_le_of_lt (roundMag_le_inf n d) (by decide)

theorem infMag_lt : infMag < 2 ^ 31 := by decide

/-- The value of a packed pattern. -/
theorem f32Units_pack (s : Bool) {m : Nat} (h : m < 2 ^ 31) :
    f32Units (f32Pack s m) = if s then -(magUnits m : Int) else magUnits m := by
  unfold f32Units
  rw [f32Sign_pack s h, f32Mag_pack s h]

/-- Every pattern is a NaN, an infinity or finite, by its magnitude bits alone. -/
theorem f32IsNaN_pack_of_le {s : Bool} {m : Nat} (h : m ≤ infMag) : f32IsNaN (f32Pack s m) = false := by
  unfold f32IsNaN
  rw [f32Mag_pack s (Nat.lt_of_le_of_lt h infMag_lt)]
  simp [h]

theorem f32Mag_flip (x : F32) : f32Mag (x ^^^ 0x80000000) = f32Mag x := by
  unfold f32Mag
  rw [BitVec.toNat_xor]
  have : (0x80000000 : F32).toNat = 2 ^ 31 := rfl
  rw [this, Nat.xor_mod_two_pow]
  simp

theorem f32Sign_eq_msb (x : F32) : f32Sign x = x.msb := (BitVec.msb_eq_decide x).symm

/-- Unary minus of a NaN is the one NaN. -/
theorem f32Neg_of_nan {x : F32} (h : f32IsNaN x = true) : f32Neg x = f32NaN := by
  unfold f32Neg f32Canonical
  rw [if_pos (by rw [f32IsNaN, f32Mag_flip]; exact h)]

/-- Unary minus of anything else flips the sign bit. -/
theorem f32Neg_of_not_nan {x : F32} (h : f32IsNaN x = false) : f32Neg x = x ^^^ 0x80000000 := by
  unfold f32Neg f32Canonical
  rw [if_neg (by rw [f32IsNaN, f32Mag_flip]; exact ne_true_of_eq_false h)]

theorem f32Mag_neg {x : F32} (h : f32IsNaN x = false) : f32Mag (f32Neg x) = f32Mag x := by
  rw [f32Neg_of_not_nan h, f32Mag_flip]

theorem f32Sign_neg {x : F32} (h : f32IsNaN x = false) : f32Sign (f32Neg x) = !f32Sign x := by
  rw [f32Neg_of_not_nan h, f32Sign_eq_msb, f32Sign_eq_msb, BitVec.msb_xor,
    show (0x80000000 : F32).msb = true from rfl, Bool.xor_true]

theorem f32Units_neg {x : F32} (h : f32IsNaN x = false) : f32Units (f32Neg x) = -f32Units x := by
  unfold f32Units
  rw [f32Sign_neg h, f32Mag_neg h]
  cases f32Sign x <;> simp

@[simp] theorem f32IsNaN_neg (x : F32) : f32IsNaN (f32Neg x) = f32IsNaN x := by
  cases h : f32IsNaN x with
  | true => rw [f32Neg_of_nan h]; rfl
  | false => rw [f32IsNaN, f32Mag_neg h]; exact h

@[simp] theorem f32IsInf_neg (x : F32) : f32IsInf (f32Neg x) = f32IsInf x := by
  cases h : f32IsNaN x with
  | true =>
    have hm : infMag < f32Mag x := of_decide_eq_true h
    rw [f32Neg_of_nan h, f32IsInf, f32IsInf, decide_eq_false (Nat.ne_of_gt hm)]
    rfl
  | false => rw [f32IsInf, f32Mag_neg h]; rfl

@[simp] theorem f32IsFinite_neg (x : F32) : f32IsFinite (f32Neg x) = f32IsFinite x := by
  cases h : f32IsNaN x with
  | true =>
    have hm : infMag < f32Mag x := of_decide_eq_true h
    rw [f32Neg_of_nan h, f32IsFinite, f32IsFinite, decide_eq_false (Nat.lt_asymm hm)]
    rfl
  | false => rw [f32IsFinite, f32Mag_neg h]; rfl

theorem f32IsFinite_iff (x : F32) : f32IsFinite x = true ↔ f32IsNaN x = false ∧ f32IsInf x = false := by
  simp only [f32IsFinite, f32IsNaN, f32IsInf, decide_eq_true_eq, decide_eq_false_iff_not]
  omega

/-- A value is finite when it is no NaN and lies strictly between the infinities. -/
theorem f32IsFinite_iff_units (x : F32) :
    f32IsFinite x = true ↔ f32IsNaN x = false ∧ |f32Units x| < magUnits infMag := by
  have hu : |f32Units x| = magUnits (f32Mag x) := by
    unfold f32Units
    cases f32Sign x <;> simp
  rw [hu]
  simp only [f32IsFinite, f32IsNaN, decide_eq_true_eq, decide_eq_false_iff_not, Nat.cast_lt,
    magUnits_lt_iff]
  omega

/-! ### Rounding a whole number of units -/

theorem f32IsNaN_roundUnits (z : Int) : f32IsNaN (roundUnits z) = false :=
  f32IsNaN_pack_of_le (roundMag_le_inf _ _)

theorem f32Units_roundUnits (z : Int) :
    f32Units (roundUnits z) = if z < 0 then -(magUnits (roundMag z.natAbs 1) : Int) else magUnits (roundMag z.natAbs 1) := by
  unfold roundUnits
  rw [f32Units_pack _ (roundMag_lt _ _)]
  simp

/-- Rounding whole numbers of units is monotone. -/
theorem roundUnits_mono {z₁ z₂ : Int} (h : z₁ ≤ z₂) : f32Units (roundUnits z₁) ≤ f32Units (roundUnits z₂) := by
  rw [f32Units_roundUnits, f32Units_roundUnits]
  by_cases h₁ : z₁ < 0 <;> by_cases h₂ : z₂ < 0 <;> simp only [h₁, h₂, if_true, if_false]
  · rw [neg_le_neg_iff, Nat.cast_le, magUnits_le_iff]
    exact roundMag_mono Nat.one_pos Nat.one_pos (by omega)
  · omega
  · omega
  · rw [Nat.cast_le, magUnits_le_iff]
    exact roundMag_mono Nat.one_pos Nat.one_pos (by omega)

/-- Rounding a value that a pattern holds gives that value. -/
theorem roundUnits_f32Units {x : F32} (hx : f32IsNaN x = false) : f32Units (roundUnits (f32Units x)) = f32Units x := by
  have hm : f32Mag x ≤ infMag := by
    simpa [f32IsNaN] using hx
  have hn : (f32Units x).natAbs = magUnits (f32Mag x) := by
    unfold f32Units
    cases f32Sign x <;> simp
  have he := roundMag_exact (b := f32Mag x) Nat.one_pos hm
  rw [Nat.mul_one] at he
  rw [f32Units_roundUnits, hn, he]
  unfold f32Units
  cases f32Sign x
  · simp
  · rcases Nat.eq_zero_or_pos (f32Mag x) with h0 | h0
    · simp [h0]
    · have : 0 < magUnits (f32Mag x) := by
        have := magUnits_lt_iff.2 h0
        simpa using this
      simp [this]

/-- A rounded value stays between two patterns its exact value lies between. -/
theorem roundUnits_between {lo hi : F32} {z : Int} (hlo : f32IsNaN lo = false) (hhi : f32IsNaN hi = false)
    (h₁ : f32Units lo ≤ z) (h₂ : z ≤ f32Units hi) :
    f32Units lo ≤ f32Units (roundUnits z) ∧ f32Units (roundUnits z) ≤ f32Units hi :=
  ⟨roundUnits_f32Units hlo ▸ roundUnits_mono h₁, roundUnits_f32Units hhi ▸ roundUnits_mono h₂⟩

end Sys2Proof.Machine
end

