-- ==== Sys2Proof/Laws/Arith.lean ====
section
/-! SUPPORT. What each binary32 operation gives, once per operation: the exact result rounded, or the special value. -/

namespace Sys2Proof.Machine

/-- The value of a pattern's magnitude is never below zero, so a sign decides the order. -/
theorem f32Units_eq (x : F32) : f32Units x = if f32Sign x then -(magUnits (f32Mag x) : Int) else magUnits (f32Mag x) := rfl

theorem f32Units_abs (x : F32) : (f32Units x).natAbs = magUnits (f32Mag x) := by
  rw [f32Units_eq]
  cases f32Sign x <;> simp

theorem f32Units_eq_zero_iff (x : F32) : f32Units x = 0 ↔ f32Mag x = 0 := by
  rw [← Int.natAbs_eq_zero, f32Units_abs]
  constructor
  · intro h
    exact magUnits_inj.1 (h.trans magUnits_zero.symm)
  · intro h
    rw [h, magUnits_zero]

theorem f32NotNaN_of_finite {x : F32} (h : f32IsFinite x = true) : f32IsNaN x = false := ((f32IsFinite_iff x).1 h).1

theorem f32NotInf_of_finite {x : F32} (h : f32IsFinite x = true) : f32IsInf x = false := ((f32IsFinite_iff x).1 h).2

/-! ### Addition -/

/-- The sum of finite values has the value of the exact sum, rounded. -/
theorem f32Add_finite {a b : F32} (ha : f32IsFinite a = true) (hb : f32IsFinite b = true) :
    f32IsNaN (f32Add a b) = false ∧ f32Units (f32Add a b) = f32Units (roundUnits (f32Units a + f32Units b)) := by
  obtain ⟨na, ia⟩ := (f32IsFinite_iff a).1 ha
  obtain ⟨nb, ib⟩ := (f32IsFinite_iff b).1 hb
  unfold f32Add
  simp only [na, nb, ia, ib, Bool.or_self, Bool.false_eq_true, if_false]
  split
  · rename_i h
    rw [h]
    refine ⟨f32IsNaN_pack_of_le (Nat.zero_le _), ?_⟩
    rw [f32Units_pack _ (by decide), f32Units_roundUnits]
    have : roundMag 0 1 = 0 := by decide
    simp [this]
  · exact ⟨f32IsNaN_roundUnits _, rfl⟩

/-- A sum of finite values stays between two patterns the exact sum lies between. -/
theorem f32Add_between {a b lo hi : F32} (ha : f32IsFinite a = true) (hb : f32IsFinite b = true)
    (hlo : f32IsNaN lo = false) (hhi : f32IsNaN hi = false)
    (h₁ : f32Units lo ≤ f32Units a + f32Units b) (h₂ : f32Units a + f32Units b ≤ f32Units hi) :
    f32Units lo ≤ f32Units (f32Add a b) ∧ f32Units (f32Add a b) ≤ f32Units hi := by
  rw [(f32Add_finite ha hb).2]
  exact roundUnits_between hlo hhi h₁ h₂

/-- Adding an infinity to a finite value gives the infinity. -/
theorem f32Add_inf_right {a b : F32} (ha : f32IsFinite a = true) (hb : f32IsInf b = true) : f32Add a b = b := by
  obtain ⟨na, ia⟩ := (f32IsFinite_iff a).1 ha
  have nb : f32IsNaN b = false := by
    simp only [f32IsInf, decide_eq_true_eq] at hb
    simp [f32IsNaN, hb]
  unfold f32Add
  simp [na, nb, ia, hb]

/-! ### Multiplication -/

/-- The product of finite values: the signs' exclusive or, and the exact product of the magnitudes, rounded. -/
theorem f32Mul_finite {a b : F32} (ha : f32IsFinite a = true) (hb : f32IsFinite b = true) :
    f32Mul a b = f32Pack (f32SignXor a b) (roundMag (magUnits (f32Mag a) * magUnits (f32Mag b)) (2 ^ 149)) := by
  obtain ⟨na, ia⟩ := (f32IsFinite_iff a).1 ha
  obtain ⟨nb, ib⟩ := (f32IsFinite_iff b).1 hb
  unfold f32Mul
  simp [na, nb, ia, ib]

theorem f32Mag_mul_finite {a b : F32} (ha : f32IsFinite a = true) (hb : f32IsFinite b = true) :
    f32Mag (f32Mul a b) = roundMag (magUnits (f32Mag a) * magUnits (f32Mag b)) (2 ^ 149) := by
  rw [f32Mul_finite ha hb, f32Mag_pack _ (roundMag_lt _ _)]

theorem f32Sign_mul_finite {a b : F32} (ha : f32IsFinite a = true) (hb : f32IsFinite b = true) :
    f32Sign (f32Mul a b) = f32SignXor a b := by
  rw [f32Mul_finite ha hb, f32Sign_pack _ (roundMag_lt _ _)]

theorem f32IsNaN_mul_finite {a b : F32} (ha : f32IsFinite a = true) (hb : f32IsFinite b = true) :
    f32IsNaN (f32Mul a b) = false := by
  rw [f32Mul_finite ha hb]
  exact f32IsNaN_pack_of_le (roundMag_le_inf _ _)

/-- The magnitude of one, and its value. -/
theorem magUnits_one : magUnits (f32Mag c1) = 2 ^ 149 := by decide

/-- Multiplying by a magnitude of at most 1 does not enlarge a magnitude. -/
theorem f32Mag_mul_le {a b : F32} (ha : f32IsFinite a = true) (hb : f32Mag b ≤ f32Mag c1) :
    f32IsFinite (f32Mul a b) = true ∧ f32Mag (f32Mul a b) ≤ f32Mag a := by
  have hbf : f32IsFinite b = true := by
    simp only [f32IsFinite, decide_eq_true_eq]
    exact Nat.lt_of_le_of_lt hb (by decide)
  have ha' : f32Mag a < infMag := by simpa [f32IsFinite] using ha
  have key : f32Mag (f32Mul a b) ≤ f32Mag a := by
    rw [f32Mag_mul_finite ha hbf]
    conv_rhs => rw [← roundMag_exact (b := f32Mag a) (d := 2 ^ 149) (by positivity) (Nat.le_of_lt ha')]
    refine roundMag_mono (by positivity) (by positivity) (Nat.mul_le_mul_right _ (Nat.mul_le_mul_left _ ?_))
    rw [← magUnits_one]
    exact magUnits_le_iff.2 hb
  refine ⟨?_, key⟩
  simp only [f32IsFinite, decide_eq_true_eq]
  omega

/-! ### Division -/

/-- The quotient of finite values with a divisor that is no zero. -/
theorem f32Div_finite {a b : F32} (ha : f32IsFinite a = true) (hb : f32IsFinite b = true) (h0 : f32Mag b ≠ 0) :
    f32Div a b = f32Pack (f32SignXor a b) (roundMag (magUnits (f32Mag a) * 2 ^ 149) (magUnits (f32Mag b))) := by
  obtain ⟨na, ia⟩ := (f32IsFinite_iff a).1 ha
  obtain ⟨nb, ib⟩ := (f32IsFinite_iff b).1 hb
  unfold f32Div
  simp [na, nb, ia, ib, h0]

/-- A finite value over an infinity is a signed zero. -/
theorem f32Div_inf_right {a b : F32} (ha : f32IsFinite a = true) (hb : f32IsInf b = true) :
    f32Div a b = f32Pack (f32SignXor a b) 0 := by
  obtain ⟨na, ia⟩ := (f32IsFinite_iff a).1 ha
  have nb : f32IsNaN b = false := by
    simp only [f32IsInf, decide_eq_true_eq] at hb
    simp [f32IsNaN, hb]
  unfold f32Div
  simp [na, nb, ia, hb]

end Sys2Proof.Machine
end

