-- ==== Sys2Proof/Laws/State.lean ====
section
/-! SUPPORT. One lemma per field per named update, true by unfolding, so that no later proof unfolds a record update. -/

namespace Sys2Proof.Machine

variable (s : State) (v w : Voice) (i : Fin 16) (f : Voice → Voice) (c : Cause) (fr : Frame)

/-! ### State.setVoice -/

@[simp] theorem State.setVoice_voices : (s.setVoice i v).voices = s.voices.set i v := rfl
@[simp] theorem State.setVoice_g : (s.setVoice i v).g = s.g := rfl
@[simp] theorem State.setVoice_fifo : (s.setVoice i v).fifo = s.fifo := rfl
@[simp] theorem State.setVoice_renderLeft : (s.setVoice i v).renderLeft = s.renderLeft := rfl
@[simp] theorem State.setVoice_framePort : (s.setVoice i v).framePort = s.framePort := rfl
@[simp] theorem State.setVoice_hostAccepts : (s.setVoice i v).hostAccepts = s.hostAccepts := rfl
@[simp] theorem State.setVoice_output : (s.setVoice i v).output = s.output := rfl

/-! ### State.mapVoices -/

@[simp] theorem State.mapVoices_voices : (s.mapVoices f).voices = mapBank f s.voices := rfl
@[simp] theorem State.mapVoices_g : (s.mapVoices f).g = s.g := rfl
@[simp] theorem State.mapVoices_fifo : (s.mapVoices f).fifo = s.fifo := rfl
@[simp] theorem State.mapVoices_renderLeft : (s.mapVoices f).renderLeft = s.renderLeft := rfl
@[simp] theorem State.mapVoices_framePort : (s.mapVoices f).framePort = s.framePort := rfl
@[simp] theorem State.mapVoices_hostAccepts : (s.mapVoices f).hostAccepts = s.hostAccepts := rfl
@[simp] theorem State.mapVoices_output : (s.mapVoices f).output = s.output := rfl

/-! ### raiseCmdError -/

@[simp] theorem raiseCmdError_voices : (raiseCmdError c s).voices = s.voices := rfl
@[simp] theorem raiseCmdError_g : (raiseCmdError c s).g = latchError c s.g := rfl
@[simp] theorem raiseCmdError_fifo : (raiseCmdError c s).fifo = s.fifo := rfl
@[simp] theorem raiseCmdError_renderLeft : (raiseCmdError c s).renderLeft = s.renderLeft := rfl
@[simp] theorem raiseCmdError_framePort : (raiseCmdError c s).framePort = s.framePort := rfl
@[simp] theorem raiseCmdError_hostAccepts : (raiseCmdError c s).hostAccepts = s.hostAccepts := rfl
@[simp] theorem raiseCmdError_output : (raiseCmdError c s).output = s.output := rfl

/-! ### latchError -/

variable (g : Globals)

@[simp] theorem latchError_attack : (latchError c g).attack = g.attack := rfl
@[simp] theorem latchError_decay : (latchError c g).decay = g.decay := rfl
@[simp] theorem latchError_sustain : (latchError c g).sustain = g.sustain := rfl
@[simp] theorem latchError_release : (latchError c g).release = g.release := rfl
@[simp] theorem latchError_volume : (latchError c g).volume = g.volume := rfl
@[simp] theorem latchError_waveform : (latchError c g).waveform = g.waveform := rfl
@[simp] theorem latchError_sr : (latchError c g).sr = g.sr := rfl
@[simp] theorem latchError_ageLimit : (latchError c g).ageLimit = g.ageLimit := rfl
@[simp] theorem latchError_cursor : (latchError c g).cursor = g.cursor := rfl
@[simp] theorem latchError_err : (latchError c g).err = true := rfl
@[simp] theorem latchError_errCause :
    (latchError c g).errCause = if g.err then g.errCause else causeCode c := rfl

/-! ### forceIdle -/

@[simp] theorem forceIdle_active : (forceIdle v).active = false := rfl
@[simp] theorem forceIdle_envState : (forceIdle v).envState = .idle := rfl
@[simp] theorem forceIdle_envLevel : (forceIdle v).envLevel = c0 := rfl
@[simp] theorem forceIdle_envInc : (forceIdle v).envInc = c0 := rfl
@[simp] theorem forceIdle_note : (forceIdle v).note = v.note := rfl
@[simp] theorem forceIdle_velocity : (forceIdle v).velocity = v.velocity := rfl
@[simp] theorem forceIdle_freq : (forceIdle v).freq = v.freq := rfl
@[simp] theorem forceIdle_phase : (forceIdle v).phase = v.phase := rfl
@[simp] theorem forceIdle_phaseInc : (forceIdle v).phaseInc = v.phaseInc := rfl
@[simp] theorem forceIdle_attack : (forceIdle v).attack = v.attack := rfl
@[simp] theorem forceIdle_decay : (forceIdle v).decay = v.decay := rfl
@[simp] theorem forceIdle_sustain : (forceIdle v).sustain = v.sustain := rfl
@[simp] theorem forceIdle_release : (forceIdle v).release = v.release := rfl
@[simp] theorem forceIdle_waveform : (forceIdle v).waveform = v.waveform := rfl
@[simp] theorem forceIdle_age : (forceIdle v).age = v.age := rfl

/-! ### emitFrame: it writes the output stream or the frame port, and nothing else -/

@[simp] theorem emitFrame_voices : (emitFrame fr s).voices = s.voices := by unfold emitFrame; split <;> rfl
@[simp] theorem emitFrame_g : (emitFrame fr s).g = s.g := by unfold emitFrame; split <;> rfl
@[simp] theorem emitFrame_fifo : (emitFrame fr s).fifo = s.fifo := by unfold emitFrame; split <;> rfl
@[simp] theorem emitFrame_renderLeft : (emitFrame fr s).renderLeft = s.renderLeft := by unfold emitFrame; split <;> rfl
@[simp] theorem emitFrame_hostAccepts : (emitFrame fr s).hostAccepts = s.hostAccepts := by
  unfold emitFrame; split <;> rfl
@[simp] theorem emitFrame_output :
    (emitFrame fr s).output = if s.hostAccepts then s.output ++ [fr] else s.output := by unfold emitFrame; split <;> rfl
@[simp] theorem emitFrame_framePort :
    (emitFrame fr s).framePort = if s.hostAccepts then s.framePort else some fr := by unfold emitFrame; split <;> rfl

/-! ### hostAccept: it empties the frame port into the output stream, and writes nothing else -/

@[simp] theorem hostAccept_voices : (hostAccept s).voices = s.voices := by unfold hostAccept; split <;> rfl
@[simp] theorem hostAccept_g : (hostAccept s).g = s.g := by unfold hostAccept; split <;> rfl
@[simp] theorem hostAccept_fifo : (hostAccept s).fifo = s.fifo := by unfold hostAccept; split <;> rfl
@[simp] theorem hostAccept_renderLeft : (hostAccept s).renderLeft = s.renderLeft := by unfold hostAccept; split <;> rfl
@[simp] theorem hostAccept_hostAccepts : (hostAccept s).hostAccepts = s.hostAccepts := by
  unfold hostAccept; split <;> rfl
@[simp] theorem hostAccept_framePort : (hostAccept s).framePort = none := by
  unfold hostAccept; split <;> first | rfl | assumption
@[simp] theorem hostAccept_output : (hostAccept s).output = s.output ++ s.framePort.toList := by
  unfold hostAccept; split <;> simp [*]

end Sys2Proof.Machine
end

