-- ==== Sys2Proof/Laws/Bank.lean ====
section
/-! SUPPORT. The voice register bank: what a map and a write leave in each voice, and what the allocator finds. -/

namespace Sys2Proof.Machine

/-- `mapBank` is the library's map, written so that it computes. -/
theorem mapBank_eq_map {α β : Type} (f : α → β) (bank : Vector α 16) : mapBank f bank = bank.map f := by
  ext i hi
  simp [mapBank]

@[simp] theorem mapBank_getElem {α β : Type} (f : α → β) (bank : Vector α 16) (i : Nat) (h : i < 16) :
    (mapBank f bank)[i] = f bank[i] := by
  simp [mapBank_eq_map]

@[simp] theorem mapBank_get {α β : Type} (f : α → β) (bank : Vector α 16) (i : Fin 16) :
    (mapBank f bank)[i] = f bank[i] := by
  simp [mapBank_eq_map]

/-- Two banks are equal when each voice is. -/
theorem bank_ext {α : Type} {a b : Vector α 16} (h : ∀ i : Fin 16, a[i] = b[i]) : a = b := by
  ext i hi
  exact h ⟨i, hi⟩

theorem mapBank_mapBank {α β γ : Type} (f : α → β) (f' : β → γ) (bank : Vector α 16) :
    mapBank f' (mapBank f bank) = mapBank (f' ∘ f) bank := by
  apply bank_ext
  simp

/-- A write to voice `i` leaves the other voices alone. -/
theorem setVoice_get (s : State) (i j : Fin 16) (v : Voice) :
    (s.setVoice i v).voices[j] = if i = j then v else s.voices[j] := by
  simp [State.setVoice, Vector.getElem_set, Fin.ext_iff]

/-! ### The allocator's scan (43_pool_commands.md R201) -/

/-- The scan finds the first inactive voice of a list, or finds that every voice is active. -/
theorem firstFree_spec (vs : List Voice) (k : Nat) :
    (∃ i, ∃ h : i < vs.length, firstFree vs k = some (k + i) ∧ vs[i].active = false ∧
      ∀ j, ∀ hj : j < i, vs[j].active = true) ∨
    (firstFree vs k = none ∧ ∀ v ∈ vs, v.active = true) := by
  induction vs generalizing k with
  | nil => exact .inr ⟨rfl, by simp⟩
  | cons v vs ih =>
    unfold firstFree
    by_cases hv : v.active
    · rw [if_pos hv]
      rcases ih (k + 1) with ⟨i, hi, he, hf, hl⟩ | ⟨he, hl⟩
      · refine .inl ⟨i + 1, by simpa using hi, by rw [he]; congr 1; omega, by simpa using hf, ?_⟩
        intro j hj
        cases j with
        | zero => simpa using hv
        | succ j => simpa using hl j (by omega)
      · exact .inr ⟨he, by simpa [hv] using hl⟩
    · exact .inl ⟨0, by simp, by simp [hv], by simpa using hv, by omega⟩

theorem bank_toList_get {α : Type} (bank : Vector α 16) (i : Nat) (h : i < bank.toArray.toList.length) :
    bank.toArray.toList[i] = bank[i]'(by simpa using h) := by
  simp

/-- The allocator gives the lowest free voice and keeps the cursor. -/
theorem allocateVoice_free (s : State) (i : Fin 16) (hf : s.voices[i].active = false)
    (hl : ∀ j : Fin 16, j < i → s.voices[j].active = true) : allocateVoice s = (i, s.g) := by
  unfold allocateVoice lowestFree
  rcases firstFree_spec s.voices.toArray.toList 0 with ⟨k, hk, he, hkf, hkl⟩ | ⟨he, hall⟩
  · have hk16 : k < 16 := by simpa using hk
    have hki : k = i.val := by
      rcases Nat.lt_trichotomy k i.val with h | h | h
      · have h1 := hl ⟨k, hk16⟩ h
        have h2 : s.voices[k].active = false := by simpa using hkf
        simp [h2] at h1
      · exact h
      · have h1 := hkl i.val h
        have h2 : s.voices[i.val].active = false := hf
        simp [h2] at h1
    rw [he]
    simp [hki]
  · have := hall s.voices[i] (by simp)
    rw [hf] at this
    exact absurd this (by decide)

/-- With every voice active the allocator steals at the cursor and advances it. -/
theorem allocateVoice_steal (s : State) (h : ∀ j : Fin 16, s.voices[j].active = true) :
    allocateVoice s = (s.g.cursor.toFin, { s.g with cursor := s.g.cursor + 1 }) := by
  unfold allocateVoice lowestFree
  rcases firstFree_spec s.voices.toArray.toList 0 with ⟨k, hk, he, hkf, hkl⟩ | ⟨he, hall⟩
  · have hk16 : k < 16 := by simpa using hk
    have h1 := h ⟨k, hk16⟩
    have h2 : s.voices[k].active = false := by simpa using hkf
    simp [h2] at h1
  · rw [he]

/-- Some voice is free and lowest, or every voice is active. -/
theorem free_or_full (s : State) :
    (∃ i : Fin 16, s.voices[i].active = false ∧ ∀ j : Fin 16, j < i → s.voices[j].active = true) ∨
    (∀ j : Fin 16, s.voices[j].active = true) := by
  rcases firstFree_spec s.voices.toArray.toList 0 with ⟨k, hk, -, hkf, hkl⟩ | ⟨-, hall⟩
  · refine .inl ⟨⟨k, by simpa using hk⟩, by simpa using hkf, ?_⟩
    intro j hj
    simpa using hkl j.val hj
  · exact .inr fun j => hall _ (by simp [Array.mem_toList_iff])

end Sys2Proof.Machine
end

