-- ==== Sys2Proof/Laws/PerInstr.lean ====
section
/-! SUPPORT. Facts made per instruction: every encoding lies in its row of `opcode_table.json`. -/

namespace Sys2Proof.Laws

/-- The word of an instruction selects the instruction's row of the opcode table. -/
def EncodeInRow.Statement (i : Instr) : Prop := (rowOf i).selects (encode i) = true

/-- A word of format C under a mask, field by field. -/
theorem formatC_and (op id note : BitVec 8) (imm : BitVec 32) (mo mi : BitVec 8) (mr : BitVec 1) (mn : BitVec 7)
    (m0 : BitVec 8) (mm : BitVec 32) :
    formatC op id note imm &&& (mo ++ mi ++ mr ++ mn ++ m0 ++ mm : BitVec (8 + 8 + 1 + 7 + 8 + 32)) =
      ((op &&& mo) ++ (id &&& mi) ++ (0#1 &&& mr) ++ (note.truncate 7 &&& mn) ++ (0#8 &&& m0) ++ (imm &&& mm) :
        BitVec (8 + 8 + 1 + 7 + 8 + 32)) := by
  rw [← BitVec.and_append, ← BitVec.and_append, ← BitVec.and_append, ← BitVec.and_append, ← BitVec.and_append]
  rfl

/-- A word whose NOTE is 0 and whose IMM is free, under the mask of its row. -/
theorem formatC_and_imm (op id : BitVec 8) (imm : BitVec 32) :
    formatC op id 0 imm &&& 0xFFFFFFFF00000000 = formatC op id 0 0 := by
  have h := formatC_and op id 0 imm (BitVec.allOnes 8) (BitVec.allOnes 8) (BitVec.allOnes 1) (BitVec.allOnes 7)
    (BitVec.allOnes 8) 0#32
  simp only [BitVec.and_allOnes, BitVec.and_zero] at h
  exact h

/-- A note command's word, under the mask of its row: NOTE is free, and IMM under the mask `mm`. -/
theorem formatC_and_note (op note : BitVec 8) (imm mm : BitVec 32) (h0 : imm &&& mm = 0) :
    formatC op 0 note imm &&& (0xFFFF80FF#32 ++ mm : BitVec (32 + 32)) = formatC op 0 0 0 := by
  have h := formatC_and op 0 note imm (BitVec.allOnes 8) (BitVec.allOnes 8) (BitVec.allOnes 1) 0#7 (BitVec.allOnes 8) mm
  simp only [BitVec.and_allOnes, BitVec.and_zero, h0] at h
  exact h

theorem EncodeInRow.nop : EncodeInRow.Statement .nop := by unfold EncodeInRow.Statement; decide

theorem EncodeInRow.noteOn (note : BitVec 8) (velocity : F32) : EncodeInRow.Statement (.noteOn note velocity) :=
  beq_iff_eq.2 (formatC_and_note 1 note velocity 0 (by simp))

theorem EncodeInRow.noteOff (note : BitVec 8) : EncodeInRow.Statement (.noteOff note) :=
  beq_iff_eq.2 (formatC_and_note 2 note 0 (BitVec.allOnes 32) (by simp))

theorem EncodeInRow.setAttack (value : F32) : EncodeInRow.Statement (.setAttack value) :=
  beq_iff_eq.2 (formatC_and_imm 3 0 value)

theorem EncodeInRow.setDecay (value : F32) : EncodeInRow.Statement (.setDecay value) :=
  beq_iff_eq.2 (formatC_and_imm 3 1 value)

theorem EncodeInRow.setSustain (value : F32) : EncodeInRow.Statement (.setSustain value) :=
  beq_iff_eq.2 (formatC_and_imm 3 2 value)

theorem EncodeInRow.setRelease (value : F32) : EncodeInRow.Statement (.setRelease value) :=
  beq_iff_eq.2 (formatC_and_imm 3 3 value)

theorem EncodeInRow.setVolume (value : F32) : EncodeInRow.Statement (.setVolume value) :=
  beq_iff_eq.2 (formatC_and_imm 3 4 value)

theorem EncodeInRow.setWaveform (value : F32) : EncodeInRow.Statement (.setWaveform value) :=
  beq_iff_eq.2 (formatC_and_imm 3 5 value)

theorem EncodeInRow.render (count : BitVec 32) : EncodeInRow.Statement (.render count) :=
  beq_iff_eq.2 (formatC_and_imm 4 0 count)

theorem EncodeInRow.reset : EncodeInRow.Statement .reset := by unfold EncodeInRow.Statement; decide

end Sys2Proof.Laws
end

