-- ==== Sys2Proof/Laws/Pool.lean ====
section
/-! SUPPORT. What one frame step and the progress of a `RENDER` leave in each field of the state. -/

namespace Sys2Proof.Machine

variable (s : State)

@[simp] theorem frameStep_get (i : Fin 16) :
    (frameStep s).voices[i] = (renderSample s.g s.voices[i]).voice := by
  simp [frameStep, renderLanes]

@[simp] theorem frameStep_g : (frameStep s).g = s.g := by simp [frameStep]
@[simp] theorem frameStep_fifo : (frameStep s).fifo = s.fifo := by simp [frameStep]
@[simp] theorem frameStep_renderLeft : (frameStep s).renderLeft = s.renderLeft := by simp [frameStep]
@[simp] theorem frameStep_hostAccepts : (frameStep s).hostAccepts = s.hostAccepts := by simp [frameStep]
@[simp] theorem frameStep_output :
    (frameStep s).output =
      if s.hostAccepts then s.output ++ [⟨frameValue s, frameValue s⟩] else s.output := by simp [frameStep]
@[simp] theorem frameStep_framePort :
    (frameStep s).framePort =
      if s.hostAccepts then s.framePort else some ⟨frameValue s, frameValue s⟩ := by simp [frameStep]

/-- The frame's value depends on the voices and the global registers alone. -/
theorem frameValue_congr {s t : State} (hv : t.voices = s.voices) (hg : t.g = s.g) : frameValue t = frameValue s := by
  simp [frameValue, renderLanes, hv, hg]

/-- The progress of a `RENDER`: nothing to do, held at a pending frame, or the next frame. -/
theorem renderProgress_cases :
    ((s.renderLeft = 0 ∨ portBusy s = true) ∧ renderProgress s = s) ∨
    (s.renderLeft ≠ 0 ∧ s.framePort = none ∧
      renderProgress s = frameStep { s with renderLeft := s.renderLeft - 1 }) := by
  unfold renderProgress
  split
  · exact .inl ⟨‹_›, rfl⟩
  · rename_i h
    simp only [not_or] at h
    exact .inr ⟨h.1, by simpa [portBusy] using h.2, rfl⟩

/-- In a `RENDER`'s progress each voice is kept or rendered once. -/
theorem renderProgress_get (i : Fin 16) :
    (renderProgress s).voices[i] = s.voices[i] ∨
      (renderProgress s).voices[i] = (renderSample s.g s.voices[i]).voice := by
  rcases renderProgress_cases s with ⟨-, h⟩ | ⟨-, -, h⟩
  · exact .inl (by rw [h])
  · exact .inr (by rw [h, frameStep_get])

@[simp] theorem renderProgress_g : (renderProgress s).g = s.g := by
  rcases renderProgress_cases s with ⟨-, h⟩ | ⟨-, -, h⟩ <;> simp [h]

@[simp] theorem renderProgress_fifo : (renderProgress s).fifo = s.fifo := by
  rcases renderProgress_cases s with ⟨-, h⟩ | ⟨-, -, h⟩ <;> simp [h]

@[simp] theorem renderProgress_hostAccepts : (renderProgress s).hostAccepts = s.hostAccepts := by
  rcases renderProgress_cases s with ⟨-, h⟩ | ⟨-, -, h⟩ <;> simp [h]

end Sys2Proof.Machine
end

