-- ==== Sys2Proof/Laws/Sine.lean ====
section
/-! SUPPORT. What `sin32` can give: a magnitude of at most 1 for a finite operand, and no NaN but the one pattern. -/

namespace Sys2Proof.Machine

theorem f32Mag_c1 : f32Mag c1 = 0x3F800000 := by decide

/-- The one NaN pattern is the only NaN that a canonical result can be. -/
theorem f32Canonical_nan {x : F32} (h : f32IsNaN (f32Canonical x) = true) : f32Canonical x = f32NaN := by
  unfold f32Canonical at h ⊢
  split
  · rfl
  · rename_i hn
    rw [if_neg hn] at h
    exact absurd h hn

theorem sineBounded_mag (y : F32) : f32Mag (sineBounded y) ≤ f32Mag c1 := by
  unfold sineBounded
  split
  · assumption
  · decide

theorem sineSettled_mag {u m : Nat} {neg : Bool} (h : sineSettled u = some (neg, m)) : m ≤ f32Mag c1 := by
  unfold sineSettled at h
  simp only [Option.ite_none_right_eq_some, Option.some.injEq, Prod.mk.injEq] at h
  obtain ⟨⟨-, -, hm⟩, -, rfl⟩ := h
  exact hm

/-- The sine of a finite operand has a magnitude of at most 1. -/
theorem sin32_mag {x : F32} (h : f32IsFinite x = true) : f32Mag (sin32 x) ≤ f32Mag c1 := by
  unfold sin32
  rw [if_pos h]
  split
  · rename_i h0
    rw [h0]
    exact Nat.zero_le _
  · split
    · rename_i neg m hs
      have hm := sineSettled_mag hs
      rw [f32Mag_pack _ (by rw [f32Mag_c1] at hm; omega)]
      exact hm
    · exact sineBounded_mag _

/-- A NaN that `sin32` gives is the one pattern of 00_scope.md R16. -/
theorem sin32_nan {x : F32} (h : f32IsNaN (sin32 x) = true) : sin32 x = f32NaN := by
  by_cases hx : f32IsFinite x = true
  · have hm := sin32_mag hx
    rw [f32Mag_c1] at hm
    have hn : infMag < f32Mag (sin32 x) := of_decide_eq_true h
    unfold infMag at hn
    omega
  · unfold sin32 at h ⊢
    rw [if_neg hx] at h ⊢
    exact f32Canonical_nan h

end Sys2Proof.Machine
end

