-- ==== Sys2Proof/Laws/Step.lean ====
section
/-! SUPPORT. What one command and one step can do, said once: every invariant is derived from these inversions. -/

namespace Sys2Proof.Machine

/-- What an ADSR parameter command may write into the global registers: one admitted value. -/
def AdsrWrite (g g' : Globals) : Prop :=
  (∃ v, isDuration v = true ∧ g' = { g with attack := v }) ∨
  (∃ v, isDuration v = true ∧ g' = { g with decay := v }) ∨
  (∃ v, inUnitRange v = true ∧ g' = { g with sustain := v }) ∨
  (∃ v, isDuration v = true ∧ g' = { g with release := v })

/-- A command with an operand check either has its effect or is rejected. -/
theorem checkedOperand_cases (ok : Bool) (f : State → State) (s : State) :
    (ok = true ∧ checkedOperand ok f s = f s) ∨ (ok = false ∧ checkedOperand ok f s = raiseCmdError .operandRange s) := by
  cases ok <;> simp [checkedOperand]

/-- What a command can do, guards included. -/
theorem exec_cases {i : Instr} {s t : State} (h : exec i s = .next t) :
    (i = .nop ∧ t = s) ∨
    (operandAdmitted i = false ∧ t = raiseCmdError .operandRange s) ∨
    (∃ note vel, i = .noteOn note vel ∧ inUnitRange vel = true ∧ t = noteOnEffect note vel s) ∨
    (∃ note, i = .noteOff note ∧ t = s.mapVoices fun v => if holdsNote note v then releaseVoice s.g v else v) ∨
    (∃ g', AdsrWrite s.g g' ∧ t = propagateAdsr { s with g := g' }) ∨
    (∃ v, i = .setVolume v ∧ inUnitRange v = true ∧ t = { s with g := { s.g with volume := v } }) ∨
    (∃ v, i = .setWaveform v ∧ inWaveRange v = true ∧ t = { s with g := { s.g with waveform := waveSelect v } }) ∨
    (∃ k, i = .render k ∧ t = renderProgress { s with renderLeft := k }) ∨
    (i = .reset ∧ t = s.mapVoices forceIdle) := by
  cases i with
  | nop =>
    simp only [exec, execNop, Host.Outcome.next.injEq] at h
    exact .inl ⟨rfl, h.symm⟩
  | noteOn note vel =>
    simp only [exec, execNoteOn, Host.Outcome.next.injEq] at h
    rcases checkedOperand_cases (inUnitRange vel) (noteOnEffect note vel) s with ⟨ho, he⟩ | ⟨ho, he⟩
    · exact .inr (.inr (.inl ⟨note, vel, rfl, ho, h.symm.trans he⟩))
    · exact .inr (.inl ⟨ho, h.symm.trans he⟩)
  | noteOff note =>
    simp only [exec, execNoteOff, Host.Outcome.next.injEq] at h
    exact .inr (.inr (.inr (.inl ⟨note, rfl, h.symm⟩)))
  | setAttack v =>
    simp only [exec, execSetAttack, setAdsrParam, Host.Outcome.next.injEq] at h
    rcases checkedOperand_cases (isDuration v) (fun s => propagateAdsr { s with g := { s.g with attack := v } }) s
      with ⟨ho, he⟩ | ⟨ho, he⟩
    · exact .inr (.inr (.inr (.inr (.inl ⟨_, .inl ⟨v, ho, rfl⟩, h.symm.trans he⟩))))
    · exact .inr (.inl ⟨ho, h.symm.trans he⟩)
  | setDecay v =>
    simp only [exec, execSetDecay, setAdsrParam, Host.Outcome.next.injEq] at h
    rcases checkedOperand_cases (isDuration v) (fun s => propagateAdsr { s with g := { s.g with decay := v } }) s
      with ⟨ho, he⟩ | ⟨ho, he⟩
    · exact .inr (.inr (.inr (.inr (.inl ⟨_, .inr (.inl ⟨v, ho, rfl⟩), h.symm.trans he⟩))))
    · exact .inr (.inl ⟨ho, h.symm.trans he⟩)
  | setSustain v =>
    simp only [exec, execSetSustain, setAdsrParam, Host.Outcome.next.injEq] at h
    rcases checkedOperand_cases (inUnitRange v) (fun s => propagateAdsr { s with g := { s.g with sustain := v } }) s
      with ⟨ho, he⟩ | ⟨ho, he⟩
    · exact .inr (.inr (.inr (.inr (.inl ⟨_, .inr (.inr (.inl ⟨v, ho, rfl⟩)), h.symm.trans he⟩))))
    · exact .inr (.inl ⟨ho, h.symm.trans he⟩)
  | setRelease v =>
    simp only [exec, execSetRelease, setAdsrParam, Host.Outcome.next.injEq] at h
    rcases checkedOperand_cases (isDuration v) (fun s => propagateAdsr { s with g := { s.g with release := v } }) s
      with ⟨ho, he⟩ | ⟨ho, he⟩
    · exact .inr (.inr (.inr (.inr (.inl ⟨_, .inr (.inr (.inr ⟨v, ho, rfl⟩)), h.symm.trans he⟩))))
    · exact .inr (.inl ⟨ho, h.symm.trans he⟩)
  | setVolume v =>
    simp only [exec, execSetVolume, Host.Outcome.next.injEq] at h
    rcases checkedOperand_cases (inUnitRange v) (fun s : State => { s with g := { s.g with volume := v } }) s
      with ⟨ho, he⟩ | ⟨ho, he⟩
    · exact .inr (.inr (.inr (.inr (.inr (.inl ⟨v, rfl, ho, h.symm.trans he⟩)))))
    · exact .inr (.inl ⟨ho, h.symm.trans he⟩)
  | setWaveform v =>
    simp only [exec, execSetWaveform, Host.Outcome.next.injEq] at h
    rcases checkedOperand_cases (inWaveRange v) (fun s : State => { s with g := { s.g with waveform := waveSelect v } }) s
      with ⟨ho, he⟩ | ⟨ho, he⟩
    · exact .inr (.inr (.inr (.inr (.inr (.inr (.inl ⟨v, rfl, ho, h.symm.trans he⟩))))))
    · exact .inr (.inl ⟨ho, h.symm.trans he⟩)
  | render k =>
    simp only [exec, execRender, Host.Outcome.next.injEq] at h
    exact .inr (.inr (.inr (.inr (.inr (.inr (.inr (.inl ⟨k, rfl, h.symm⟩)))))))
  | reset =>
    simp only [exec, execReset, Host.Outcome.next.injEq] at h
    exact .inr (.inr (.inr (.inr (.inr (.inr (.inr (.inr ⟨rfl, h.symm⟩)))))))

/-! ### A step computes no NaN, or it faults -/

/-- An outcome that is no fault of a computed NaN is the outcome as it was, with none computed. -/
theorem faultOnNaN_eq_next {s t : State} {o : Host.Outcome State Fault Refusal} :
    faultOnNaN s o = .next t ↔ o = .next t ∧ computesNaN s t = false := by
  cases o with
  | next u =>
    show (if computesNaN s u then Host.Outcome.fault Fault.nanComputed else .next u) = .next t ↔ _
    constructor
    · intro he
      split at he
      · cases he
      · cases he
        exact ⟨rfl, eq_false_of_ne_true ‹_›⟩
    · rintro ⟨he, hn⟩
      cases he
      rw [if_neg (ne_true_of_eq_false hn)]
  | fault r => simp [faultOnNaN]
  | refused r => simp [faultOnNaN]

/-- A step answers what the block's step answers, with no NaN computed. -/
theorem step_eq_next {s t : State} : step s = .next t ↔ blockStep s = .next t ∧ computesNaN s t = false :=
  faultOnNaN_eq_next

@[simp] theorem newNaN_self (x : F32) : newNaN x x = false := by simp [newNaN]

@[simp] theorem voiceNewNaN_self (v : Voice) : voiceNewNaN v v = false := by simp [voiceNewNaN]

/-- A transition that writes no voice and emits no frame computes no NaN. -/
theorem computesNaN_of_kept {s t : State} (hv : t.voices = s.voices) (hp : t.framePort = s.framePort)
    (ho : t.output = s.output) : computesNaN s t = false := by
  simp [computesNaN, hv, hp, ho]

/-- No transition to a state whose levels, phases and frames are in range computes a NaN. -/
theorem computesNaN_of_outputInv {s t : State} (h : OutputInv t) : computesNaN s t = false := by
  obtain ⟨⟨-, -, hl⟩, ⟨-, hp⟩, -, ho, hf⟩ := h
  have fin : ∀ {x : F32}, f32IsFinite x = true → f32IsNaN x = false := fun h => ((f32IsFinite_iff _).mp h).1
  simp only [computesNaN, Bool.or_eq_false_iff, List.any_eq_false, List.mem_finRange, true_implies]
  refine ⟨⟨fun i => ?_, ?_⟩, fun f hm => ?_⟩
  · obtain ⟨hlev, -, -, -, -, hinc, -⟩ := hl i
    obtain ⟨hph, hpi, -⟩ := hp i
    rw [voiceNewNaN, newNaN, newNaN, newNaN, newNaN, fin hph, fin hpi, fin hlev.1, hinc]
    simp
  · cases h : t.framePort with
    | none => simp
    | some f => simp [frameHoldsNaN, fin (hf f h).1, fin (hf f h).2]
  · have := ho f (List.mem_of_mem_drop hm)
    simp [frameHoldsNaN, fin this.1, fin this.2]

/-- What the block's step can do: a frame step of the `RENDER` in progress, nothing (held by a pending frame, or with an
empty FIFO), a command, or a rejection. -/
theorem blockStep_cases {s t : State} (h : blockStep s = .next t) :
    (s.framePort = none ∧ s.renderLeft ≠ 0 ∧ t = renderProgress s) ∨
    ((s.framePort.isSome = true ∨ s.renderLeft = 0 ∧ s.fifo = []) ∧ t = s) ∨
    (∃ w rest i, s.framePort = none ∧ s.renderLeft = 0 ∧ s.fifo = w :: rest ∧ decode w = .cmd i ∧
      exec i { s with fifo := rest } = .next t) ∨
    (∃ w rest c, s.framePort = none ∧ s.renderLeft = 0 ∧ s.fifo = w :: rest ∧ decode w = .reject c ∧
      t = raiseCmdError c { s with fifo := rest }) := by
  unfold blockStep portBusy fetchWord at h
  split at h
  · exact .inr (.inl ⟨.inl ‹_›, by simpa using h.symm⟩)
  · rename_i hp
    have hp0 : s.framePort = none := by simpa using hp
    split at h
    · exact .inl ⟨hp0, ‹_›, by simpa using h.symm⟩
    · rename_i hr
      have hr0 : s.renderLeft = 0 := by simpa using hr
      cases hf : s.fifo with
      | nil =>
        rw [hf] at h
        exact .inr (.inl ⟨.inr ⟨hr0, rfl⟩, by simpa using h.symm⟩)
      | cons w rest =>
        rw [hf] at h
        simp only [executeWord] at h
        cases hd : decode w with
        | cmd i =>
          rw [hd] at h
          exact .inr (.inr (.inl ⟨w, rest, i, hp0, hr0, rfl, hd, h⟩))
        | reject c =>
          rw [hd] at h
          exact .inr (.inr (.inr ⟨w, rest, c, hp0, hr0, rfl, hd, by simpa using h.symm⟩))

/-- What a step can do: what the block's step can. -/
theorem step_cases {s t : State} (h : step s = .next t) :
    (s.framePort = none ∧ s.renderLeft ≠ 0 ∧ t = renderProgress s) ∨
    ((s.framePort.isSome = true ∨ s.renderLeft = 0 ∧ s.fifo = []) ∧ t = s) ∨
    (∃ w rest i, s.framePort = none ∧ s.renderLeft = 0 ∧ s.fifo = w :: rest ∧ decode w = .cmd i ∧
      exec i { s with fifo := rest } = .next t) ∨
    (∃ w rest c, s.framePort = none ∧ s.renderLeft = 0 ∧ s.fifo = w :: rest ∧ decode w = .reject c ∧
      t = raiseCmdError c { s with fifo := rest }) :=
  blockStep_cases (step_eq_next.mp h).1

/-- A run whose first step goes on runs from where that step leads. -/
theorem core_run_succ (M : Host.Core) {s t : M.State} (h : M.step s = .next t) (n : Nat) :
    M.run (n + 1) s = M.run n t := by
  rw [Host.Core.run, h]

/-- The same of this machine, whose step is `step`. -/
theorem run_succ {s t : State} (h : step s = .next t) (n : Nat) :
    Host.Core.run Sys2Proof.core (n + 1) s = Host.Core.run Sys2Proof.core n t :=
  core_run_succ Sys2Proof.core h n

/-- A pending frame holds the block. -/
theorem step_held {s : State} (h : s.framePort.isSome = true) : step s = .next s := by
  refine step_eq_next.mpr ⟨?_, computesNaN_of_kept rfl rfl rfl⟩
  unfold blockStep portBusy
  rw [if_pos h]

/-- What a step can make of one voice. -/
theorem step_voice {s t : State} (h : step s = .next t) (i : Fin 16) :
    t.voices[i] = s.voices[i] ∨
    (∃ note vel, inUnitRange vel = true ∧ t.voices[i] = triggerVoice s.g note vel) ∨
    t.voices[i] = releaseVoice s.g s.voices[i] ∨
    t.voices[i] = updateAdsr t.g s.voices[i] ∨
    t.voices[i] = (renderSample s.g s.voices[i]).voice ∨
    t.voices[i] = forceIdle s.voices[i] := by
  rcases step_cases h with ⟨-, -, rfl⟩ | ⟨-, rfl⟩ | ⟨w, rest, ins, -, -, -, -, he⟩ | ⟨w, rest, c, -, -, -, -, rfl⟩
  · rcases renderProgress_get s i with h | h
    · exact .inl h
    · exact .inr (.inr (.inr (.inr (.inl h))))
  · exact .inl rfl
  · rcases exec_cases he with ⟨-, rfl⟩ | ⟨-, rfl⟩ | ⟨note, vel, -, hv, rfl⟩ | ⟨note, -, rfl⟩ | ⟨g', -, rfl⟩ |
      ⟨v, -, -, rfl⟩ | ⟨v, -, -, rfl⟩ | ⟨k, -, rfl⟩ | ⟨-, rfl⟩
    · exact .inl rfl
    · exact .inl rfl
    · unfold noteOnEffect
      simp only [setVoice_get]
      split
      · exact .inr (.inl ⟨noteIndex note, vel, hv, rfl⟩)
      · exact .inl rfl
    · simp only [State.mapVoices_voices, mapBank_get]
      split
      · exact .inr (.inr (.inl rfl))
      · exact .inl rfl
    · simp only [propagateAdsr, State.mapVoices_voices, State.mapVoices_g, mapBank_get]
      split
      · exact .inr (.inr (.inr (.inl rfl)))
      · exact .inl rfl
    · exact .inl rfl
    · exact .inl rfl
    · rcases renderProgress_get { s with fifo := rest, renderLeft := k } i with h | h
      · exact .inl h
      · exact .inr (.inr (.inr (.inr (.inl h))))
    · exact .inr (.inr (.inr (.inr (.inr (by simp only [State.mapVoices_voices, mapBank_get])))))
  · exact .inl rfl

/-- What a step can make of the global registers: nothing, a latched error, a moved cursor, or one admitted parameter. -/
theorem step_globals {s t : State} (h : step s = .next t) :
    t.g = s.g ∨ (∃ c, t.g = latchError c s.g) ∨ t.g = { s.g with cursor := s.g.cursor + 1 } ∨ AdsrWrite s.g t.g ∨
    (∃ v, inUnitRange v = true ∧ t.g = { s.g with volume := v }) ∨ (∃ w, t.g = { s.g with waveform := w }) := by
  rcases step_cases h with ⟨-, -, rfl⟩ | ⟨-, rfl⟩ | ⟨w, rest, ins, -, -, -, -, he⟩ | ⟨w, rest, c, -, -, -, -, rfl⟩
  · exact .inl (renderProgress_g s)
  · exact .inl rfl
  · rcases exec_cases he with ⟨-, rfl⟩ | ⟨-, rfl⟩ | ⟨note, vel, -, hv, rfl⟩ | ⟨note, -, rfl⟩ | ⟨g', hw, rfl⟩ |
      ⟨v, -, hv, rfl⟩ | ⟨v, -, -, rfl⟩ | ⟨k, -, rfl⟩ | ⟨-, rfl⟩
    · exact .inl rfl
    · exact .inr (.inl ⟨_, rfl⟩)
    · rcases free_or_full { s with fifo := rest } with ⟨i, hf, hl⟩ | hall
      · simp [noteOnEffect, allocateVoice_free _ i hf hl]
      · simp [noteOnEffect, allocateVoice_steal _ hall]
    · exact .inl rfl
    · exact .inr (.inr (.inr (.inl hw)))
    · exact .inr (.inr (.inr (.inr (.inl ⟨v, hv, rfl⟩))))
    · exact .inr (.inr (.inr (.inr (.inr ⟨_, rfl⟩))))
    · exact .inl (renderProgress_g _)
    · exact .inl rfl
  · exact .inr (.inl ⟨c, rfl⟩)

end Sys2Proof.Machine
end

