-- ==== Sys2Proof/Laws/Voice.lean ====
section
/-! SUPPORT. What each voice operation can leave in a voice, once per operation. -/

namespace Sys2Proof.Machine

variable (g : Globals) (v : Voice)

/-! ### trigger -/

@[simp] theorem triggerVoice_active (n : BitVec 7) (vel : F32) : (triggerVoice g n vel).active = true := rfl
@[simp] theorem triggerVoice_note (n : BitVec 7) (vel : F32) : (triggerVoice g n vel).note = n := rfl
@[simp] theorem triggerVoice_velocity (n : BitVec 7) (vel : F32) : (triggerVoice g n vel).velocity = vel := rfl
@[simp] theorem triggerVoice_freq (n : BitVec 7) (vel : F32) : (triggerVoice g n vel).freq = freqRom n := rfl
@[simp] theorem triggerVoice_phase (n : BitVec 7) (vel : F32) : (triggerVoice g n vel).phase = c0 := rfl
@[simp] theorem triggerVoice_phaseInc (n : BitVec 7) (vel : F32) :
    (triggerVoice g n vel).phaseInc = phaseIncOf (freqRom n) g.sr := rfl
@[simp] theorem triggerVoice_envState (n : BitVec 7) (vel : F32) : (triggerVoice g n vel).envState = .attack := rfl
@[simp] theorem triggerVoice_envLevel (n : BitVec 7) (vel : F32) : (triggerVoice g n vel).envLevel = c0 := rfl
@[simp] theorem triggerVoice_envInc (n : BitVec 7) (vel : F32) :
    (triggerVoice g n vel).envInc = attackInc g.attack g.sr := rfl
@[simp] theorem triggerVoice_attack (n : BitVec 7) (vel : F32) : (triggerVoice g n vel).attack = g.attack := rfl
@[simp] theorem triggerVoice_decay (n : BitVec 7) (vel : F32) : (triggerVoice g n vel).decay = g.decay := rfl
@[simp] theorem triggerVoice_sustain (n : BitVec 7) (vel : F32) : (triggerVoice g n vel).sustain = g.sustain := rfl
@[simp] theorem triggerVoice_release (n : BitVec 7) (vel : F32) : (triggerVoice g n vel).release = g.release := rfl
@[simp] theorem triggerVoice_waveform (n : BitVec 7) (vel : F32) : (triggerVoice g n vel).waveform = g.waveform := rfl
@[simp] theorem triggerVoice_age (n : BitVec 7) (vel : F32) : (triggerVoice g n vel).age = 0 := rfl

/-! ### release, update_adsr -/

/-- `release` enters Release from an active voice in another state, or leaves the voice alone. -/
theorem releaseVoice_cases :
    (v.active = true ∧ v.envState ≠ .release ∧ releaseVoice g v =
      { v with envState := .release, age := 0, envInc := releaseInc v.release v.envLevel g.sr }) ∨
    ((v.active = false ∨ v.envState = .release) ∧ releaseVoice g v = v) := by
  unfold releaseVoice
  split
  · rename_i h
    exact .inl ⟨h.1, h.2, rfl⟩
  · rename_i h
    refine .inr ⟨?_, rfl⟩
    cases ha : v.active
    · exact .inl rfl
    · exact .inr (by simpa [ha] using h)

/-- `update_adsr` recomputes the increment of an active voice from its new copies, and of no other. -/
theorem updateAdsr_cases :
    (v.active = true ∧ updateAdsr g v = { copyAdsr g v with envInc := incFor g.sr (copyAdsr g v) }) ∨
    (v.active = false ∧ updateAdsr g v = copyAdsr g v) := by
  unfold updateAdsr
  cases h : v.active <;> simp

/-! ### render_sample -/

/-- `render_sample` skips an inactive voice, ends a voice whose watchdog fires, or advances the voice once. -/
theorem renderSample_cases :
    (v.active = false ∧ renderSample g v = { sample := c0, voice := v }) ∨
    (v.active = true ∧ watchdogFires g v = true ∧
      renderSample g v = { sample := c0, voice := forceIdle { v with age := v.age + 1 } }) ∨
    (v.active = true ∧ watchdogFires g v = false ∧
      renderSample g v =
        { sample := voiceSample v
          voice := envStep g.sr { v with age := v.age + 1, phase := advancePhase v.phase v.phaseInc } }) := by
  unfold renderSample
  cases ha : v.active
  · exact .inl ⟨rfl, by simp⟩
  · cases hw : watchdogFires g v
    · exact .inr (.inr ⟨rfl, rfl, by simp⟩)
    · exact .inr (.inl ⟨rfl, rfl, by simp⟩)

/-! ### env_step -/

/-- What one envelope step can do: a ramp within the state, a transition with its clamp, or the end of the note. -/
theorem envStep_cases (sr : F32) :
    (v.envState = .idle ∧ envStep sr v = forceIdle v) ∨
    (v.envState = .attack ∧ f32Ge (rampedLevel v) c1 = true ∧
      envStep sr v = { v with envLevel := c1, envState := .decay, envInc := decayInc v.decay v.sustain sr }) ∨
    (v.envState = .attack ∧ f32Ge (rampedLevel v) c1 = false ∧ envStep sr v = { v with envLevel := rampedLevel v }) ∨
    (v.envState = .decay ∧ f32Le (rampedLevel v) v.sustain = true ∧
      envStep sr v = { v with envLevel := v.sustain, envState := .sustain, envInc := c0 }) ∨
    (v.envState = .decay ∧ f32Le (rampedLevel v) v.sustain = false ∧
      envStep sr v = { v with envLevel := rampedLevel v }) ∨
    (v.envState = .sustain ∧ envStep sr v = { v with envLevel := v.sustain }) ∨
    (v.envState = .release ∧ f32Le (rampedLevel v) releaseFloor = true ∧ envStep sr v = forceIdle v) ∨
    (v.envState = .release ∧ f32Le (rampedLevel v) releaseFloor = false ∧
      envStep sr v = { v with envLevel := rampedLevel v }) := by
  unfold envStep
  cases he : v.envState
  · simp
  · simp only [attackStep]
    cases h : f32Ge (rampedLevel v) c1 <;> simp [he]
  · simp only [decayStep]
    cases h : f32Le (rampedLevel v) v.sustain <;> simp [he]
  · simp [sustainStep, he]
  · simp only [releaseStep]
    cases h : f32Le (rampedLevel v) releaseFloor <;> simp [he]

/-- The envelope step writes the envelope registers and `ACTIVE`, and nothing else. -/
theorem envStep_frame (sr : F32) :
    (envStep sr v).note = v.note ∧ (envStep sr v).velocity = v.velocity ∧ (envStep sr v).freq = v.freq ∧
      (envStep sr v).phase = v.phase ∧ (envStep sr v).phaseInc = v.phaseInc ∧ (envStep sr v).attack = v.attack ∧
      (envStep sr v).decay = v.decay ∧ (envStep sr v).sustain = v.sustain ∧ (envStep sr v).release = v.release ∧
      (envStep sr v).waveform = v.waveform ∧ (envStep sr v).age = v.age := by
  rcases envStep_cases v sr with ⟨-, h⟩ | ⟨-, -, h⟩ | ⟨-, -, h⟩ | ⟨-, -, h⟩ | ⟨-, -, h⟩ | ⟨-, h⟩ | ⟨-, -, h⟩ | ⟨-, -, h⟩ <;>
    rw [h] <;> simp

end Sys2Proof.Machine
end

