-- ==== Sys2Proof/Tests/Slice0.lean ====
section
/-! SUPPORT. Tests of the model against the spec's own vectors (95_test_vectors.md, 30_encoding.md R103), and for every
statement with hypotheses a witness that meets them all together. -/

namespace Sys2Proof.Tests

set_option Elab.async false

open Sys2Proof Sys2Proof.Machine

/-! ### States for tests -/

/-- The state an outcome goes on to; the given one where it does not go on. -/
def nextOr (s : State) (o : Host.Outcome State Fault Refusal) : State :=
  match o with
  | .next t => t
  | .fault _ => s
  | .refused _ => s

/-- One step with the word `w` given to the block. -/
def stepWord (s : State) (w : CmdWord) : State := nextOr s (step (s.withFetchWord 64 w.toNat))

/-- `INIT_PARAMS` of a state, in the order attack, decay, sustain, release, volume, waveform. -/
def stateOf (sr a d su r vol : F32) (wf : BitVec 3) : State :=
  State.activated sr { attack := a, decay := d, sustain := su, release := r, volume := vol, waveform := wf }

/-- The state with voice 0 replaced. -/
def withVoice0 (v : Voice) (s : State) : State := s.setVoice 0 v

/-- The state with every voice replaced. -/
def allVoices (v : Voice) (s : State) : State := { s with voices := Vector.replicate 16 v }

/-- Square, 44100 Hz, A 0.01, D 0.1, S 0.7, R 0.3, volume 1.0. -/
def square441 : State := stateOf 0x472C4400 0x3C23D70A 0x3DCCCCCD 0x3F333333 0x3E99999A 0x3F800000 1

/-- A voice holding note 69 as a trigger leaves it there. -/
def voice69 : Voice := triggerVoice square441.g 69 0x3F800000

/-- `square441` with voice 0 playing note 69. -/
def playing : State := withVoice0 voice69 square441

/-- `square441` with all 16 voices playing note 69. -/
def full : State := allVoices voice69 square441

/-- The state with a word in its FIFO. -/
def given (w : CmdWord) (s : State) : State := { s with fifo := [w] }

/-! ### Ill-formed instructions -/

theorem test_noteOn_128_refused : (Instr.noteOn 128 0x3F800000).wellFormed = false := by decide
theorem test_noteOn_127_wellFormed : (Instr.noteOn 127 0x3F800000).wellFormed = true := by decide
theorem test_noteOff_255_refused : (Instr.noteOff 255).wellFormed = false := by decide
theorem test_noteOff_0_wellFormed : (Instr.noteOff 0).wellFormed = true := by decide

/-! ### Decoding: every constructor from a word of 30_encoding.md R103 or 95_test_vectors.md 2.1, and the rejections -/

theorem test_decode_nop : decode 0x0000000000000000 = .cmd .nop := by decide
theorem test_decode_noteOn : decode 0x01003C003F000000 = .cmd (.noteOn 60 0x3F000000) := by decide
theorem test_decode_noteOff : decode 0x02007F0000000000 = .cmd (.noteOff 127) := by decide
theorem test_decode_setAttack : decode 0x030000003C23D70A = .cmd (.setAttack 0x3C23D70A) := by decide
theorem test_decode_setDecay : decode 0x030100003DCCCCCD = .cmd (.setDecay 0x3DCCCCCD) := by decide
theorem test_decode_setSustain : decode 0x030200003F333333 = .cmd (.setSustain 0x3F333333) := by decide
theorem test_decode_setRelease : decode 0x030300003E99999A = .cmd (.setRelease 0x3E99999A) := by decide
theorem test_decode_setVolume : decode 0x030400003F800000 = .cmd (.setVolume 0x3F800000) := by decide
theorem test_decode_setWaveform : decode 0x0305000040400000 = .cmd (.setWaveform 0x40400000) := by decide
theorem test_decode_render : decode 0x040000000000AC44 = .cmd (.render 44100) := by decide
theorem test_decode_reset : decode 0x0500000000000000 = .cmd .reset := by decide

theorem test_decode_rejects_unknown :
    [0x0600000000000000, 0x8000000000000000, 0xFFFFFFFFFFFFFFFF].map decode =
      List.replicate 3 (.reject .unknownOp) := by decide

theorem test_decode_rejects_reserved :
    [0x0000000000000001, 0x0501000000000000, 0x0100C5003F800000, 0x010145003F800000, 0x010045013F800000,
      0x020045003F800000, 0x030601003F800000, 0x030080003C23D70A, 0x0400000100000001, 0x0400450000000001].map decode =
      List.replicate 10 (.reject .reservedNonzero) := by decide

theorem test_decode_rejects_param :
    [0x03FF00003F800000, 0x030600003F800000].map decode = List.replicate 2 (.reject .badParamId) := by decide

/-- The words of 95_test_vectors.md 2.1 that decode and then pass or fail the operand check. -/
theorem test_operand_checks :
    [Instr.noteOn 0 0x00000000, .noteOn 127 0x80000000, .setAttack 0x80000000, .setAttack 0x7F800000,
        .setAttack 0x00000001, .setSustain 0x3F800000, .setVolume 0x80000000, .setWaveform 0x40FFFFFF,
        .setWaveform 0xBF7FFFFF, .render 0xFFFFFFFF].map operandAdmitted = List.replicate 10 true ∧
    [Instr.noteOn 69 0x7FC00000, .noteOn 69 0x3F800001, .setAttack 0x80000001, .setSustain 0x3F800001,
        .setVolume 0x7F800000, .setWaveform 0x41000000, .setWaveform 0xBF800000].map operandAdmitted =
      List.replicate 7 false := by decide

theorem test_tableWord_roundtrip : decodeTableWord 64 0x010045003F800000 = some (.noteOn 69 0x3F800000) := by decide

theorem test_short_stream : decodeBytes [0, 0, 0, 0, 0, 0, 0] = none := by decide

theorem test_byte_order : bytesOfWord 0x0102030405060708 = [8, 7, 6, 5, 4, 3, 2, 1] := by decide

theorem test_byte_order_32 : bytesOfWord32 0x80020304 = [4, 3, 2, 0x80] := by decide

theorem test_expand_setAdsr :
    (expand (.setAdsr 0x3C23D70A 0x3DCCCCCD 0x3F333333 0x3E99999A)).map encode =
      [0x030000003C23D70A, 0x030100003DCCCCCD, 0x030200003F333333, 0x030300003E99999A] := by decide

/-! ### The assembler (30_encoding.md R101, R103) -/

theorem test_assemble_note_on : assembleLine "Note_On 69, 1.0 ; A4" = some [0x010045003F800000] := by decide +kernel
theorem test_assemble_decimal : assembleLine "SET_ATTACK 0.01" = some [0x030000003C23D70A] := by decide +kernel
theorem test_assemble_pattern : assembleLine "SET_VOLUME f32:0x3F800000" = some [0x030400003F800000] := by
  decide +kernel
theorem test_assemble_param : assembleLine "SET_PARAM 6, 1.0" = some [0x030600003F800000] := by decide +kernel
theorem test_assemble_render : assembleLine "RENDER 0xAC44" = some [0x040000000000AC44] := by decide +kernel

/-! ### Numbers, waveforms and voices (95_test_vectors.md 2.2 to 2.6) -/

theorem test_phaseInc_69 : phaseIncOf (freqRom 69) 0x472C4400 = 0x3D80634A := by decide +kernel
theorem test_phaseInc_127_exactly_two_pi : phaseIncOf (freqRom 127) 0x4643FF6A = 0x40C90FDB := by decide +kernel

theorem test_advance_wraps : advancePhase 0x40C8F5C3 0x3D80634A = 0x3D73BA80 := by decide +kernel
theorem test_advance_rounds_away : advancePhase 0x40C90FDA 0x34000000 = 0x40C90FDA := by decide +kernel

/-- The row θ = 4.0 of 95_test_vectors.md 2.4, all eight selectors. -/
theorem test_wave_at_4 :
    [0, 1, 2, 3, 4, 5, 6, 7].map (fun i => wave (BitVec.ofNat 3 i) 0x40800000) =
      [0xBF41BDCF, 0xBF800000, 0x3E8BE60C, 0x3EE833E8, 0xBF800000, 0xBF41BDCF, 0xBF41BDCF, 0xBF41BDCF] := by
  decide +kernel

theorem test_sine_column :
    [0x3FC90FDB, 0x3F800000, 0x40490FDA, 0x40490FDB, 0x4096CBE4, 0x40C90FDA].map sin32 =
      [0x3F800000, 0x3F576AA4, 0x34222169, 0xB3BBBD2E, 0xBF800000, 0xB4A22169] := by decide +kernel

theorem test_attack_inc :
    [0x00000000, 0x80000000, 0x3C23D70A, 0x3F800000, 0x7F800000, 0x00000001].map (fun a => attackInc a 0x472C4400) =
      [0x3F800000, 0x3F800000, 0x3B149B93, 0x37BE37C6, 0x00000000, 0x7F800000] := by decide +kernel

theorem test_decay_inc :
    decayInc 0x3DCCCCCD 0x3F333333 0x472C4400 = 0xB88EA9D5 ∧ decayInc 0x3DCCCCCD 0x3F800000 0x472C4400 = 0x80000000 ∧
      decayInc 0 0x3DCCCCCD 0x472C4400 = 0xBF666666 ∧ decayInc 0x00000001 0 0x3F800000 = 0xFF800000 := by
  decide +kernel

theorem test_release_inc :
    releaseInc 0x3E99999A 0x3F333333 0x472C4400 = 0xB85DEBBB ∧ releaseInc 0 0x3F333333 0x472C4400 = 0xBF333333 ∧
      releaseInc 0x7F800000 0x3F800000 0x472C4400 = 0x80000000 := by decide +kernel

/-- 95_test_vectors.md 2.6: `S = 0.05` stays in Decay above S, `S = 0.01` clamps. -/
theorem test_zero_decay_steps :
    (decayStep { voice69 with envState := .decay, envLevel := c1, sustain := 0x3D4CCCCD
                              envInc := decayInc 0 0x3D4CCCCD 0x472C4400 }).envLevel = 0x3D4CCCD0 ∧
    (decayStep { voice69 with envState := .decay, envLevel := c1, sustain := 0x3C23D70A
                              envInc := decayInc 0 0x3C23D70A 0x472C4400 }).envLevel = 0x3C23D70A := by
  decide +kernel

/-- 95_test_vectors.md 1.3: the first call with a zero attack. -/
theorem test_zero_attack_first_call :
    (renderSample { square441.g with attack := 0 } (triggerVoice { square441.g with attack := 0 } 69 c1)).sample = 0 ∧
    (renderSample { square441.g with attack := 0 }
      (triggerVoice { square441.g with attack := 0 } 69 c1)).voice.envInc = 0xB88EA9D5 := by decide +kernel

/-- 95_test_vectors.md 2.11: call 1323001 ends the voice. -/
theorem test_watchdog_boundary :
    watchdogFires square441.g { voice69 with age := 1323000 } = true ∧
    watchdogFires square441.g { voice69 with age := 1322999 } = false := by decide +kernel

/-! ### One step per instruction -/

theorem test_step_nop : stepWord playing 0 = playing := by decide

/-- P2: the 17th `NOTE_ON` steals voice 0 and moves the cursor. -/
theorem test_step_noteOn_steals :
    statusWord (stepWord full 0x01004C003F000000) = 0x0001FFFF ∧
    (stepWord full 0x01004C003F000000).voices[0].note = 76 := by decide +kernel

theorem test_step_noteOn_lowest_free : statusWord (stepWord playing 0x01003C003F000000) = 0x00000003 := by
  decide +kernel

/-- The release increment from level `0x3F764485`, by hand from 42_envelope.md R174: `R × SR` rounds to `0x464EB801`, and the
quotient to `0x38987D16`. The vector of 95_test_vectors.md 1.4 has `0xB8987D17`; the rule wins (log entry 16). -/
theorem test_step_noteOff :
    (stepWord (withVoice0 { voice69 with envState := .decay, envLevel := 0x3F764485, age := 1000 } square441)
      0x0200450000000000).voices[0].envInc = 0xB8987D16 := by decide +kernel

/-- 95_test_vectors.md 2.7: an update in Attack. -/
theorem test_step_setAttack :
    (stepWord playing 0x030000003CA3D70A).voices[0].envInc = 0x3A949B93 := by decide +kernel

/-- 95_test_vectors.md 2.7: updates in Decay. -/
theorem test_step_setDecay :
    (stepWord (withVoice0 { voice69 with envState := .decay, envLevel := 0x3F7FFB8B } square441)
      0x030100003E4CCCCD).voices[0].envInc = 0xB80EA9D5 := by decide +kernel

theorem test_step_setSustain :
    (stepWord (withVoice0 { voice69 with envState := .sustain, envLevel := 0x3F333333 } square441)
      0x030200003E800000).voices[0] =
      { voice69 with envState := .sustain, envLevel := 0x3F333333, sustain := 0x3E800000, envInc := 0 } := by
  decide +kernel

/-- 95_test_vectors.md 2.7, P3: a re-sent release in Release. -/
theorem test_step_setRelease :
    (stepWord (withVoice0 { voice69 with envState := .release, envLevel := 0x3EC5F338 } square441)
      0x030300003A83126F).voices[0].envInc = 0xBC0FA322 := by decide +kernel

theorem test_step_setVolume : (stepWord playing 0x030400003F000000).g.volume = 0x3F000000 := by decide
theorem test_step_setVolume_rejected : statusWord (stepWord playing 0x030400003FC00000) = 0x00900001 := by
  decide +kernel

theorem test_step_setWaveform :
    (stepWord playing 0x03050000409CCCCD).g.waveform = 4 ∧ (stepWord playing 0x03050000BF7FFFFF).g.waveform = 0 ∧
      (stepWord playing 0x0305000040FFFFFF).g.waveform = 7 := by decide +kernel

/-- 95_test_vectors.md 2.8: frame index 1 of P3. -/
theorem test_step_render :
    (stepWord
      { square441 with
        g := { square441.g with volume := 0x3F000000 }
        voices := (square441.voices.set 0
            { voice69 with waveform := 3, phase := 0x3D18AE04, envState := .decay, envLevel := c1 }).set 1
          { voice69 with
            waveform := 3, phase := 0x3D18AE04, envState := .decay, envLevel := c1, velocity := 0x3F000000 } }
      0x0400000000000002).output = [⟨0xBF3B719D, 0xBF3B719D⟩] := by decide +kernel

theorem test_step_render_zero : stepWord playing 0x0400000000000000 = playing := by decide

/-- P5: the error registers survive `RESET`. -/
theorem test_step_reset :
    statusWord (stepWord { playing with g := { playing.g with err := true, errCause := 4 } } 0x0500000000000000) =
      0x00900000 := by decide +kernel

/-- P5: a second rejection keeps the first cause. -/
theorem test_step_sticky :
    statusWord (stepWord (stepWord square441 0x030400003FC00000) 0x0600000000000000) = 0x00900000 := by decide +kernel

/-! ### The observation port (95_test_vectors.md 2.12) -/

theorem test_vctrl_77 :
    vctrlWord { voice69 with note := 77, waveform := 2 } = 0x00004D23 ∧
    vctrlWord { voice69 with active := false, envState := .idle } = 0x00004510 := by decide +kernel

theorem test_observe_addresses :
    observe playing 0x002 = 0x43DC0000 ∧ observe playing 0x00C = 0 ∧ observe playing 0x107 = 0x49A17FC0 ∧
      observe playing 0x109 = 0 := by decide +kernel

theorem test_decodeVctrl : decodeVctrl 0x00004D23 = .next ⟨true, .attack, 2, 77⟩ := by rfl
theorem test_decodeVctrl_illegal : decodeVctrl 0x0000000A = .fault (.envStateCode 5) := by rfl

/-! ### Witnesses: for each statement with hypotheses, states and operands that meet them all together

The clauses of a statement that exclude each other have a witness each. -/

theorem witness_DecodeInvertsEncode : (Instr.noteOn 127 0xFFFFFFFF).wellFormed = true := by decide

theorem witness_EncodeInvertsDecode : decode 0x01007F00FFFFFFFF = .cmd (.noteOn 127 0xFFFFFFFF) := by decide

theorem witness_DecodingIsTotalInTheOrderOfChecks :
    5 < (BitVec.extractLsb' 56 8 (0x06FFFFFFFFFFFFFF : CmdWord)).toNat ∧
    ((BitVec.extractLsb' 56 8 (0x0500000000000001 : CmdWord)).toNat ≤ 5 ∧ ¬ReservedBitsZero 0x0500000000000001) ∧
    ((BitVec.extractLsb' 56 8 (0x0306000000000000 : CmdWord)).toNat = 3 ∧ ReservedBitsZero 0x0306000000000000 ∧
      5 < (BitVec.extractLsb' 48 8 (0x0306000000000000 : CmdWord)).toNat) ∧
    ((BitVec.extractLsb' 56 8 (0x0305000041000000 : CmdWord)).toNat ≤ 5 ∧ ReservedBitsZero 0x0305000041000000 ∧
      (BitVec.extractLsb' 48 8 (0x0305000041000000 : CmdWord)).toNat ≤ 5 ∧
      operandAdmitted (.setWaveform 0x41000000) = false) ∧
    decode 0x0500000000000001 = .reject .reservedNonzero := by
  have h : ¬BitVec.extractLsb' 0 56 (0x0500000000000001 : CmdWord) = 0 := by decide
  exact ⟨by decide, ⟨by decide, h⟩, ⟨by decide, rfl, by decide⟩, ⟨by decide, rfl, by decide, by decide⟩, by decide⟩

theorem witness_CommandsTakeTheirFields :
    ReservedBitsZero 0x0000000000000000 ∧ ReservedBitsZero 0x01007F00FFFFFFFF ∧ ReservedBitsZero 0x02007F0000000000 ∧
    ReservedBitsZero 0x03000000FFFFFFFF ∧ ReservedBitsZero 0x03050000FFFFFFFF ∧ ReservedBitsZero 0x04000000FFFFFFFF ∧
    ReservedBitsZero 0x0500000000000000 :=
  ⟨rfl, And.intro rfl rfl, And.intro rfl rfl, rfl, rfl, rfl, rfl⟩

theorem witness_RejectionOnlyLatchesItsCause :
    ((given 0x0306000000000000 playing).framePort = none ∧ (given 0x0306000000000000 playing).renderLeft = 0 ∧
      (given 0x0306000000000000 playing).fifo = [0x0306000000000000] ∧
      decode 0x0306000000000000 = .reject .badParamId) ∧
    operandAdmitted (.noteOn 69 0x3F800001) = false := by decide

theorem witness_OperandRangesByValue :
    ¬AdmittedByValue (.setSustain 0x3F800001) ∧ WaveValue 0xBF7FFFFF ∧ WaveValue 0x40FFFFFF := by
  unfold AdmittedByValue UnitValue WaveValue f32ToRat
  decide +kernel

/-- A state with the error flag set and the cause latched. -/
def errored : State := { playing with g := { playing.g with err := true, errCause := 2 } }

theorem witness_ErrorRegistersAreSticky :
    step (given 0x0600000000000000 errored) = .next errored ∧ (given 0x0600000000000000 errored).g.err = true :=
  ⟨rfl, rfl⟩

theorem witness_ErrorCauseStaysLegal :
    ErrInv (given 0x0600000000000000 errored) ∧ step (given 0x0600000000000000 errored) = .next errored :=
  ⟨by unfold ErrInv; decide, rfl⟩

theorem witness_NoteOnAllocatesAndTriggers :
    (inUnitRange 0x3F800000 = true ∧ playing.voices[(1 : Fin 16)].active = false ∧
      ∀ j : Fin 16, j < 1 → playing.voices[j].active = true) ∧
    (inUnitRange 0x00000000 = true ∧ ∀ j : Fin 16, full.voices[j].active = true) ∧
    inUnitRange 0x3F800001 = false := by decide +kernel

theorem witness_StealsRotateThroughThePool :
    (∀ n ∈ [((76 : BitVec 8), (0x3F000000 : F32)), (77, 0x3F800000)], noteFits n.1 = true ∧ inUnitRange n.2 = true) ∧
    (∀ j : Fin 16, full.voices[j].active = true) ∧
    [((76 : BitVec 8), (0x3F000000 : F32)), (77, 0x3F800000)].getLast? = some (77, 0x3F800000) := by
  refine ⟨?_, by decide +kernel, rfl⟩
  simp only [List.forall_mem_cons, List.not_mem_nil, false_imp_iff, implies_true, and_true]
  decide +kernel

theorem witness_AllNotesOffReleasesEveryVoice :
    playing.voices[(0 : Fin 16)].active = true ∧ playing.voices[(15 : Fin 16)].active = false := by decide

theorem witness_AdsrCommandsWriteAndPropagate :
    isDuration 0x7F800000 = true ∧ isDuration 0x80000001 = false ∧ inUnitRange 0x3F800000 = true ∧
      inUnitRange 0x3F800001 = false := by decide +kernel

theorem witness_SetVolumeWritesTheGain : inUnitRange 0x80000000 = true ∧ inUnitRange 0x7F800000 = false := by
  decide +kernel

theorem witness_SetWaveformStoresTheTruncation :
    inWaveRange 0xBF7FFFFF = true ∧ inWaveRange 0x40FFFFFF = true ∧ inWaveRange 0x41000000 = false ∧
      inWaveRange 0xBF800000 = false := by decide +kernel

/-- Every one of the six parameters, changed by its own command. -/
theorem witness_GlobalsChangeOnlyByTheirCommand :
    (stepWord playing 0x0300000000000000).g.attack ≠ playing.g.attack ∧
    (stepWord playing 0x0301000000000000).g.decay ≠ playing.g.decay ∧
    (stepWord playing 0x0302000000000000).g.sustain ≠ playing.g.sustain ∧
    (stepWord playing 0x0303000000000000).g.release ≠ playing.g.release ∧
    (stepWord playing 0x0304000000000000).g.volume ≠ playing.g.volume ∧
    (stepWord playing 0x0305000040400000).g.waveform ≠ playing.g.waveform := by decide +kernel

theorem witness_CursorMovesOnlyOnASteal :
    (stepWord full 0x01004C003F000000).g.cursor ≠ full.g.cursor := by decide +kernel

/-- A state whose host accepts no frame, with a frame pending. -/
def held : State := { playing with hostAccepts := false, framePort := some ⟨0x3F000000, 0x3F000000⟩, renderLeft := 2 }

theorem witness_RenderEmitsItsFirstFrame :
    ((0 : BitVec 32) = 0 ∧ playing.renderLeft = 0) ∧ ((0xFFFFFFFF : BitVec 32) ≠ 0 ∧ playing.framePort = none) ∧
      held.framePort.isSome = true := by decide

/-- `playing` with two frames left to render. -/
def rendering : State := { playing with renderLeft := 2 }

theorem rendering_steps : ∃ t, step rendering = .next t := ⟨_, step_eq_next.mpr ⟨rfl, by decide +kernel⟩⟩

/-- Every voice of `rendering` is as a trigger or as the activation reset left it. -/
theorem rendering_voices (P : Voice → Prop) (h0 : P voice69) (h1 : P Voice.reset) (i : Fin 16) :
    P rendering.voices[i] := by
  have h : rendering.voices[i] = voice69 ∨ rendering.voices[i] = Voice.reset := by
    revert i
    decide +kernel
  rcases h with h | h <;> rw [h] <;> assumption

theorem rendering_level : LevelInv rendering := by
  refine ⟨?_, ?_, fun i => rendering_voices _ ?_ ?_ i⟩
  · unfold RateInv
    decide +kernel
  · unfold GlobalsInv DurationValue UnitValue f32ToRat
    decide +kernel
  · unfold VoiceLevelOk UnitValue DurationValue IncSignOk f32ToRat
    exact ⟨by decide +kernel, by decide +kernel, by decide +kernel, by decide +kernel, by decide +kernel,
      by decide +kernel, (by decide +kernel : 0 ≤ f32Units voice69.envInc)⟩
  · unfold VoiceLevelOk UnitValue DurationValue IncSignOk f32ToRat
    exact ⟨by decide +kernel, by decide +kernel, by decide +kernel, by decide +kernel, by decide +kernel,
      by decide +kernel, (by decide +kernel : f32Units Voice.reset.envInc = 0)⟩

theorem rendering_phase : PhaseInv rendering := by
  refine ⟨?_, fun i => rendering_voices _ ?_ ?_ i⟩
  · unfold RateInv
    decide +kernel
  · unfold VoicePhaseOk f32ToRat
    decide +kernel
  · unfold VoicePhaseOk f32ToRat
    decide +kernel

theorem rendering_output : OutputInv rendering := by
  refine ⟨rendering_level, rendering_phase, fun i => rendering_voices (fun v => UnitValue v.velocity) ?_ ?_ i, ?_, ?_⟩
  · unfold UnitValue f32ToRat
    decide +kernel
  · unfold UnitValue f32ToRat
    decide +kernel
  · exact fun _ hf => absurd hf List.not_mem_nil
  · exact fun _ hf => nomatch hf

/-- The invariant of finite outputs looks at the voices, the global registers and the frames alone. -/
theorem output_of_rendering {s : State} (hv : s.voices = rendering.voices) (hg : s.g = rendering.g)
    (ho : s.output = rendering.output) (hp : s.framePort = rendering.framePort) : OutputInv s := by
  have h := rendering_output
  unfold OutputInv LevelInv PhaseInv RateInv GlobalsInv at h ⊢
  rw [hv, hg, ho, hp]
  exact h

theorem witness_RenderCompletesInItsFrames :
    OutputInv (given (encode (.render 3)) playing) ∧ Quiescent (given (encode (.render 3)) playing) ∧
      (given (encode (.render 3)) playing).fifo = encode (.render 3) :: [] :=
  ⟨output_of_rendering rfl rfl rfl rfl, by unfold Quiescent; decide, rfl⟩

/-- `playing`, its host accepting no frame, with `RENDER 1` and then `RESET` in the FIFO. -/
def unheard : State := { playing with hostAccepts := false, fifo := [encode (.render 1), encode .reset] }

/-- 70_reset_and_hazards.md R265: the `RESET` behind a `RENDER 1` whose frame is not accepted is not taken. -/
theorem test_unaccepted_frame_holds :
    (nextOr unheard (Host.Core.run Sys2Proof.core 3 unheard)).fifo = [encode .reset] := by decide +kernel

theorem witness_TheBlockWaitsOnlyForItsHost :
    (playing.renderLeft = 0 ∧ playing.fifo = []) ∧
    (OutputInv unheard ∧ unheard.framePort = none ∧ unheard.renderLeft = 0 ∧ unheard.hostAccepts = false ∧
      unheard.fifo = encode (.render 1) :: [encode .reset] ∧ (1 : BitVec 32) ≠ 0) ∧
    (held.framePort = some ⟨0x3F000000, 0x3F000000⟩ ∧ held.renderLeft ≠ 0) ∧
    ({ given 0 held with renderLeft := 0 }.framePort = some ⟨0x3F000000, 0x3F000000⟩ ∧
      { given 0 held with renderLeft := 0 }.renderLeft = 0 ∧ { given 0 held with renderLeft := 0 }.fifo = 0 :: [] ∧
      decode 0 = .cmd .nop) :=
  ⟨by decide, ⟨output_of_rendering rfl rfl rfl rfl, by decide⟩, by decide, by decide⟩

theorem witness_OnlyRenderEmitsFrames :
    (step (given 0 playing) = .next playing ∧ ¬NextIsFrame (given 0 playing)) ∧
    (step held = .next held ∧ held.framePort.isSome = true) := by
  refine ⟨⟨step_eq_next.mpr ⟨rfl, computesNaN_of_kept rfl rfl rfl⟩, ?_⟩, step_held rfl, rfl⟩
  rintro (⟨-, h⟩ | ⟨k, -, -, w, rest, hf, hd⟩)
  · exact h rfl
  · cases hf
    exact absurd hd (by rw [show decode 0 = .cmd .nop from rfl]; simp)

theorem witness_SilenceStaysSilent :
    (∀ i : Fin 16, { square441 with g := { square441.g with volume := 0x80000000 } }.voices[i].active = false) ∧
    UnitValue { square441 with g := { square441.g with volume := 0x80000000 } }.g.volume ∧
    { square441 with g := { square441.g with volume := 0x80000000 } }.hostAccepts = true := by
  unfold UnitValue f32ToRat
  decide +kernel

theorem witness_RenderSampleFollowsItsSteps :
    f32IsFinite square441.g.ageLimit = true ∧ Voice.reset.active = false ∧
    ({ voice69 with age := 1323000 }.active = true ∧
      f32ToRat square441.g.ageLimit < (({ voice69 with age := 1323000 }.age + 1).toNat : ℚ)) ∧
    ({ voice69 with age := 1322999 }.active = true ∧
      (({ voice69 with age := 1322999 }.age + 1).toNat : ℚ) ≤ f32ToRat square441.g.ageLimit) := by
  unfold f32ToRat
  decide +kernel

theorem witness_EnvelopeIncrementsAndSteps :
    voice69.envState = .attack ∧ { voice69 with envState := .decay }.envState = .decay ∧
      { voice69 with envState := .sustain }.envState = .sustain ∧
      { voice69 with envState := .release }.envState = .release ∧ Voice.reset.envState = .idle := ⟨rfl, rfl, rfl, rfl, rfl⟩

theorem witness_EnvelopeTransitionsAreTheTables :
    IdleInv (given 0x0200450000000000 playing) ∧
    (∃ t, step (given 0x0200450000000000 playing) = .next t ∧
      t.voices[(0 : Fin 16)].envState ≠ (given 0x0200450000000000 playing).voices[(0 : Fin 16)].envState) :=
  ⟨by unfold IdleInv VoiceIdleOk; decide +kernel, _, step_eq_next.mpr ⟨rfl, by decide +kernel⟩, by decide +kernel⟩

theorem witness_IdentityFieldsChangeOnlyAtTrigger :
    ∃ t, step (given 0x01003C003F000000 playing) = .next t := ⟨_, step_eq_next.mpr ⟨rfl, by decide +kernel⟩⟩

theorem witness_FirstSampleIsASignedZero :
    rateAdmitted { square441.g with attack := 0x80000000 }.sr = true ∧
    { square441.g with attack := 0x80000000 }.ageLimit = ageLimitOf { square441.g with attack := 0x80000000 }.sr ∧
    UnitValue 0x3F800000 ∧ f32Mag { square441.g with attack := 0x80000000 }.attack = 0 := by
  unfold UnitValue f32ToRat
  decide +kernel

/-- A voice in Sustain at its sustain level. -/
def sustained : Voice := { voice69 with envState := .sustain, envLevel := voice69.sustain, envInc := 0, age := 5000 }

theorem witness_SustainHoldsWithoutDrift :
    sustained.active = true ∧ sustained.envState = .sustain ∧ sustained.envLevel = sustained.sustain ∧
    sustained.age.toNat + 1318000 < 2 ^ 32 ∧ natGtF32 (sustained.age.toNat + 1318000) square441.g.ageLimit = false := by
  decide +kernel

theorem witness_EveryVoiceEndsByTheWatchdog :
    rateAdmitted square441.g.sr = true ∧ square441.g.ageLimit = ageLimitOf square441.g.sr ∧
      { voice69 with age := 30000001 }.age.toNat ≤ 30000001 := by decide +kernel

theorem witness_WaveformsStayInRange :
    f32IsFinite 0x40C90FDA = true ∧ 0 ≤ f32ToRat 0x40C90FDA ∧ f32Lt 0x40C90FDA 0x40C90FDB = true := by
  unfold f32ToRat
  decide +kernel

theorem witness_SineIsTheNearestValue :
    f32Mag 0x80000000 = 0 ∧ f32IsFinite 0x7F7FFFFF = true ∧ sineSettled (magUnits (f32Mag 0x7F7FFFFF)) ≠ none ∧
      f32IsFinite 0x00000001 = true ∧ sineSettled (magUnits (f32Mag 0x00000001)) ≠ none := by decide +kernel

theorem witness_RoundingIsNearestEven : 0 < 3 ∧ roundMag (2 ^ 149) 3 < infMag ∧ 0 < infMag := by decide +kernel

/-- The clauses of finite operands, of a zero divisor, of one infinity and of two, and both sides of the overflow bound. -/
theorem witness_ArithmeticIsCorrectlyRounded :
    (f32IsFinite 0x3F800000 = true ∧ f32IsFinite 0x40400000 = true ∧ f32Mag 0x40400000 ≠ 0) ∧
    (f32Mag 0x3F800000 ≠ 0 ∧ f32IsFinite 0x80000000 = true ∧ f32Mag 0x80000000 = 0) ∧
    (f32IsInf 0x7F800000 = true ∧ f32IsInf 0xFF800000 = true ∧ f32Sign 0x7F800000 ≠ f32Sign 0xFF800000) ∧
    |f32ToRat 0x7F7FFFFF + f32ToRat 0x72FFFFFF| < overflowBound ∧
    overflowBound ≤ f32ToRat 0x7F7FFFFF + f32ToRat 0x73000000 := by
  unfold f32ToRat overflowBound
  decide +kernel

/-- The tie at the overflow bound goes to infinity, and just below it to the largest finite value. -/
theorem test_add_overflow :
    f32Add 0x7F7FFFFF 0x73000000 = 0x7F800000 ∧ f32Add 0x7F7FFFFF 0x72FFFFFF = 0x7F7FFFFF := by decide +kernel

theorem witness_NaNResultsAreTheOnePattern :
    f32IsNaN 0xFFFFFFFF = true ∧ f32IsNaN (f32Div 0 0) = true ∧
      (f32IsInf 0x7F800000 = true ∧ f32IsInf 0xFF800000 = true ∧ f32Sign 0x7F800000 ≠ f32Sign 0xFF800000) ∧
      (f32IsInf 0xFF800000 = true ∧ f32Mag 0x80000000 = 0) := by decide +kernel

theorem witness_ComparisonsAreByValue :
    f32IsFinite 0x00000001 = true ∧ f32IsFinite 0x80000000 = true ∧ f32IsNaN 0x7F800001 = true ∧
      f32IsInf 0xFF800000 = true := by decide +kernel

theorem witness_ConversionsAreExactOrTruncating :
    |(-16777215 : Int)| < 2 ^ 24 ∧ f32IsFinite 0xFF7FFFFF = true := by decide +kernel

theorem witness_FrequencyRomIsNearest : f32IsFinite 0x00000000 = true := by decide

theorem witness_StepRunsTheDecodedInstruction :
    OutputInv (given 0x0200450000000000 playing) ∧
    ((given 0x0200450000000000 playing).framePort = none ∧ (given 0x0200450000000000 playing).renderLeft = 0 ∧
      (given 0x0200450000000000 playing).fifo = 0x0200450000000000 :: [] ∧
      decode 0x0200450000000000 = .cmd (.noteOff 69)) ∧
    (Instr.noteOff 69).wellFormed = true := ⟨output_of_rendering rfl rfl rfl rfl, by decide, by decide⟩

theorem witness_RunIsTheFoldOfTheCommands :
    OutputInv { playing with fifo := [0x0400000000000003, 0x0600000000000000, 0x0200450000000000] } ∧
    Quiescent { playing with fifo := [0x0400000000000003, 0x0600000000000000, 0x0200450000000000] } ∧
    { playing with fifo := [0x0400000000000003, 0x0600000000000000, 0x0200450000000000] }.fifo =
      [0x0400000000000003, 0x0600000000000000, 0x0200450000000000] :=
  ⟨output_of_rendering rfl rfl rfl rfl, by unfold Quiescent; decide, rfl⟩

theorem witness_ObservationMapPlacesEveryRegister :
    11 < 16 ∧ 0x109 ≤ (0x109 : BitVec 9).toNat ∧ 0x109 ≤ (0x1FF : BitVec 9).toNat := by decide

theorem witness_ActivationSetsEveryElement :
    rateAdmitted 0x3F800000 = true ∧ rateAdmitted 0x49742400 = true := by decide +kernel

theorem witness_HostEventsActOnlyThroughThePorts :
    (rateAdmitted 0x3F7FFFFF = false ∧ rateAdmitted 0x49742401 = false ∧ rateAdmitted 0x7FC00000 = false) ∧
    (∀ sr, HostEvent.acceptFrame ≠ .activate sr) ∧ HostEvent.acceptFrame ≠ .deactivate :=
  ⟨by decide +kernel, fun _ h => HostEvent.noConfusion h, fun h => HostEvent.noConfusion h⟩

/-! ### Witnesses of the invariants: a state with a sounding voice and a `RENDER` in progress, which a step leaves -/

theorem witness_StepKeepsVoicesIdleOrActive : IdleInv rendering ∧ ∃ t, step rendering = .next t :=
  ⟨by unfold IdleInv VoiceIdleOk; decide +kernel, rendering_steps⟩

theorem witness_StepKeepsActiveCopiesEqual : CopyInv rendering ∧ ∃ t, step rendering = .next t :=
  ⟨by unfold CopyInv; decide +kernel, rendering_steps⟩

theorem witness_StepKeepsAgesBounded : AgeInv rendering ∧ ∃ t, step rendering = .next t :=
  ⟨by unfold AgeInv RateInv VoiceAgeOk; decide +kernel, rendering_steps⟩

theorem witness_StepKeepsLevelsInRange : LevelInv rendering ∧ ∃ t, step rendering = .next t :=
  ⟨rendering_level, rendering_steps⟩

theorem witness_StepKeepsPhasesInRange : PhaseInv rendering ∧ ∃ t, step rendering = .next t :=
  ⟨rendering_phase, rendering_steps⟩

theorem witness_PhaseWrapIsExact :
    f32IsFinite 0x40C8F5C3 = true ∧ f32IsFinite 0x3D80634A = true ∧ 0 ≤ f32ToRat 0x40C8F5C3 ∧
    0 ≤ f32ToRat 0x3D80634A ∧ f32Lt 0x40C8F5C3 0x40C90FDB = true ∧ f32Lt 0x3D80634A 0x40C90FDB = true ∧
    f32Ge (f32Add 0x40C8F5C3 0x3D80634A) 0x40C90FDB = true := by
  unfold f32ToRat
  decide +kernel

theorem witness_StepKeepsOutputsFinite : OutputInv rendering ∧ ∃ t, step rendering = .next t :=
  ⟨rendering_output, rendering_steps⟩

/-- Both sides of the equivalence: a frame step from a NaN increment computes a NaN level, and one from an admitted state none. -/
theorem witness_StepFaultsOnlyOnAComputedNaN :
    OutputInv rendering ∧ computesNaN rendering (renderProgress rendering) = false ∧
      computesNaN (withVoice0 { voice69 with envInc := 0x7FC00000 } square441)
        (frameStep (withVoice0 { voice69 with envInc := 0x7FC00000 } square441)) = true :=
  ⟨rendering_output, by decide +kernel, by decide +kernel⟩

/-- 93_implementation_defined.md I10: a step that computes a NaN level is a fault of the model. -/
theorem test_step_faults_on_nan :
    step (given 0x0400000000000001 (withVoice0 { voice69 with envInc := 0x7FC00000 } square441)) =
      .fault .nanComputed := by rfl

theorem witness_StepKeepsFramesStereo :
    StereoInv rendering ∧ PortInv rendering ∧ ∃ t, step rendering = .next t :=
  ⟨⟨fun _ hf => absurd hf List.not_mem_nil, fun _ hf => nomatch hf⟩, fun _ => rfl, rendering_steps⟩

theorem witness_InvariantsHoldAtActivation :
    rateAdmitted 0x3F800000 = true ∧
      initAdmitted { attack := 0x80000000, decay := 0x7F800000, sustain := 0x3F800000, release := 0, volume := 0x3F800000,
                     waveform := 7 } = true := by decide +kernel

end Sys2Proof.Tests
end

section
/-! The one rounding is to nearest, ties to even (00_scope.md R14): the spacing of the representable magnitudes around the
result is at least the unit the rounding works in, except below a power of two, where the exact value is never below
the result. -/

namespace Sys2Proof.Machine

/-- The result of `roundMag` before the clamp at infinity: the magnitudes go on beyond it with the same scheme. -/
def roundMagUnbounded (n d : Nat) : Nat := roundScale n d * 2 ^ 23 + roundDiv n (d * 2 ^ roundScale n d)

theorem roundMag_eq_min (n d : Nat) : roundMag n d = min (roundMagUnbounded n d) infMag := rfl

theorem roundMag_eq_unbounded {n d : Nat} (h : roundMag n d < infMag) : roundMag n d = roundMagUnbounded n d := by
  rw [roundMag_eq_min] at h ⊢
  omega

/-- The value of the rounded magnitude: its significand at its scale. -/
theorem magUnits_roundMagUnbounded (n : Nat) {d : Nat} (hd : 0 < d) :
    magUnits (roundMagUnbounded n d) = roundDiv n (d * 2 ^ roundScale n d) * 2 ^ roundScale n d := by
  obtain ⟨hle, hnormal⟩ := roundSig_bounds n hd
  exact magUnits_scaled hle hnormal

/-- The rounded magnitude's last bit is its significand's. -/
theorem roundMagUnbounded_mod_two (n d : Nat) :
    roundMagUnbounded n d % 2 = roundDiv n (d * 2 ^ roundScale n d) % 2 := by
  unfold roundMagUnbounded
  omega

/-- A whole number rounded by `roundDiv` is at most half its unit away from the exact value. -/
theorem roundDiv_distance (n : Nat) {d k : Nat} (hd : 0 < d) :
    |((roundDiv n (d * 2 ^ k) * 2 ^ k : Nat) : ℚ) - n / d| ≤ 2 ^ k / 2 ∧
      (|((roundDiv n (d * 2 ^ k) * 2 ^ k : Nat) : ℚ) - n / d| = 2 ^ k / 2 → roundDiv n (d * 2 ^ k) % 2 = 0) := by
  have hp : 0 < d * 2 ^ k := Nat.mul_pos hd (Nat.two_pow_pos k)
  have hdq : (0 : ℚ) < d := by exact_mod_cast hd
  obtain ⟨h₁, h₂⟩ := roundDiv_bounds n hp
  have tie := roundDiv_tie n hp
  generalize roundDiv n (d * 2 ^ k) = m at h₁ h₂ tie ⊢
  have hq : (n : ℚ) / d * d = n := div_mul_cancel₀ _ hdq.ne'
  generalize (n : ℚ) / d = q at hq ⊢
  have cast : ((m * 2 ^ k : Nat) : ℚ) = m * 2 ^ k := by push_cast; ring
  rw [cast]
  have e₁ : (2 * n : ℚ) ≤ 2 * (d * 2 ^ k * m) + d * 2 ^ k := by exact_mod_cast h₁
  have e₂ : (2 * (d * 2 ^ k * m) : ℚ) ≤ 2 * n + d * 2 ^ k := by exact_mod_cast h₂
  constructor
  · rw [abs_le]
    constructor <;> nlinarith
  · intro h
    apply tie
    rcases (abs_eq (by positivity)).1 h with h | h
    · right
      have : (2 * (d * 2 ^ k * m) : ℚ) = 2 * n + d * 2 ^ k := by
        rw [← hq]
        linear_combination 2 * (d : ℚ) * h
      exact_mod_cast this
    · left
      have : (2 * n : ℚ) = 2 * (d * 2 ^ k * m) + d * 2 ^ k := by
        rw [← hq]
        linear_combination (-2) * (d : ℚ) * h
      exact_mod_cast this

/-- The magnitudes above the rounded one lie at least one unit of its scale higher. -/
theorem magUnits_above (n : Nat) {b d : Nat} (hd : 0 < d) (hb : roundMagUnbounded n d < b) :
    magUnits (roundMagUnbounded n d) + 2 ^ roundScale n d ≤ magUnits b := by
  obtain ⟨-, hnormal⟩ := roundSig_bounds n hd
  calc magUnits (roundMagUnbounded n d) + 2 ^ roundScale n d
      ≤ magUnits (roundMagUnbounded n d) + 2 ^ (roundMagUnbounded n d / 2 ^ 23 - 1) := by
        refine Nat.add_le_add_left (Nat.pow_le_pow_right (by omega) ?_) _
        unfold roundMagUnbounded
        omega
    _ = magUnits (roundMagUnbounded n d + 1) := (magUnits_succ _).symm
    _ ≤ magUnits b := magUnits_le_iff.2 hb

/-- The exact value is at least the lowest normal significand at the scale of the rounding. -/
theorem le_of_roundScale_ne_zero {n d : Nat} (hk : roundScale n d ≠ 0) :
    2 ^ 23 * 2 ^ roundScale n d * d ≤ n := by
  have hne : n / d ≠ 0 := by
    intro h0
    simp [roundScale, h0] at hk
  have hlog : 23 + roundScale n d ≤ Nat.log2 (n / d) := by
    unfold roundScale at hk ⊢
    omega
  rw [← Nat.pow_add]
  calc 2 ^ (23 + roundScale n d) * d ≤ n / d * d :=
        Nat.mul_le_mul_right d ((Nat.pow_le_pow_right (by omega) hlog).trans (Nat.log2_self_le hne))
    _ ≤ n := Nat.div_mul_le_self n d

/-- The magnitudes below the rounded one lie at least one unit of its scale lower, unless it is a power of two, and then the
exact value is not below it. -/
theorem magUnits_below (n : Nat) {b d : Nat} (hd : 0 < d) (hb : b < roundMagUnbounded n d) :
    magUnits b + 2 ^ roundScale n d ≤ magUnits (roundMagUnbounded n d) ∨
      magUnits (roundMagUnbounded n d) * d ≤ n := by
  obtain ⟨-, hnormal⟩ := roundSig_bounds n hd
  by_cases hpow : roundScale n d ≠ 0 ∧ roundDiv n (d * 2 ^ roundScale n d) = 2 ^ 23
  · obtain ⟨hk, hm⟩ := hpow
    right
    rw [magUnits_roundMagUnbounded n hd, hm]
    exact le_of_roundScale_ne_zero hk
  · left
    obtain ⟨r, hr⟩ := Nat.exists_eq_succ_of_ne_zero (Nat.ne_of_gt (Nat.zero_lt_of_lt hb))
    have hscale : roundScale n d ≤ r / 2 ^ 23 - 1 := by
      unfold roundMagUnbounded at hr
      omega
    rw [hr] at hb ⊢
    calc magUnits b + 2 ^ roundScale n d ≤ magUnits r + 2 ^ (r / 2 ^ 23 - 1) :=
          Nat.add_le_add (magUnits_le_iff.2 (by omega)) (Nat.pow_le_pow_right (by omega) hscale)
      _ = magUnits (r + 1) := (magUnits_succ r).symm

/-- A value `r` within half a gap of `q` is nearest to `q` among the values `c` that keep the gap from it, or that have it
between them and `q`; a tie is at exactly half the gap. -/
theorem nearest_of_gap {r c q g : ℚ} (hr : |r - q| ≤ g / 2)
    (hc : r + g ≤ c ∨ c + g ≤ r ∨ c < r ∧ r ≤ q) :
    |r - q| ≤ |c - q| ∧ (|r - q| = |c - q| → |r - q| = g / 2) := by
  obtain ⟨hlo, hhi⟩ := abs_le.1 hr
  rcases hc with hc | hc | ⟨hc, hq⟩
  · have h := le_abs_self (c - q)
    exact ⟨by linarith, fun e => by linarith⟩
  · have h := neg_le_abs (c - q)
    exact ⟨by linarith, fun e => by linarith⟩
  · rw [abs_of_nonpos (by linarith), abs_of_neg (by linarith)]
    exact ⟨by linarith, fun e => by linarith⟩

/-- The unclamped rounding is nearest among all magnitudes, and even at a tie with another one. -/
theorem roundMagUnbounded_nearest (n : Nat) {d : Nat} (hd : 0 < d) (b : Nat) :
    |(magUnits (roundMagUnbounded n d) : ℚ) - n / d| ≤ |(magUnits b : ℚ) - n / d| ∧
      (|(magUnits (roundMagUnbounded n d) : ℚ) - n / d| = |(magUnits b : ℚ) - n / d| →
        b = roundMagUnbounded n d ∨ roundMagUnbounded n d % 2 = 0) := by
  obtain ⟨hdist, htie⟩ := roundDiv_distance n (k := roundScale n d) hd
  rw [← magUnits_roundMagUnbounded n hd] at hdist htie
  rw [← roundMagUnbounded_mod_two] at htie
  have gap : b ≠ roundMagUnbounded n d →
      (magUnits (roundMagUnbounded n d) : ℚ) + 2 ^ roundScale n d ≤ magUnits b ∨
      (magUnits b : ℚ) + 2 ^ roundScale n d ≤ magUnits (roundMagUnbounded n d) ∨
      (magUnits b : ℚ) < magUnits (roundMagUnbounded n d) ∧ (magUnits (roundMagUnbounded n d) : ℚ) ≤ n / d := by
    intro hb
    rcases Nat.lt_or_gt_of_ne hb with hb | hb
    · right
      rcases magUnits_below n hd hb with h | h
      · exact .inl (by exact_mod_cast h)
      · exact .inr ⟨by exact_mod_cast magUnits_lt_iff.2 hb,
          (le_div_iff₀ (by exact_mod_cast hd)).2 (by exact_mod_cast h)⟩
    · exact .inl (by exact_mod_cast magUnits_above n hd hb)
  by_cases hb : b = roundMagUnbounded n d
  · subst hb
    exact ⟨le_rfl, fun _ => .inl rfl⟩
  · obtain ⟨hle, heq⟩ := nearest_of_gap hdist (gap hb)
    exact ⟨hle, fun e => .inr (htie (heq e))⟩

/-- `roundMagUnbounded_nearest` by the magnitudes' values. -/
theorem magToRat_roundMagUnbounded_nearest (n : Nat) {d : Nat} (hd : 0 < d) (b : Nat) :
    |magToRat (roundMagUnbounded n d) - (n : ℚ) / d / 2 ^ 149| ≤ |magToRat b - (n : ℚ) / d / 2 ^ 149| ∧
      (|magToRat (roundMagUnbounded n d) - (n : ℚ) / d / 2 ^ 149| = |magToRat b - (n : ℚ) / d / 2 ^ 149| →
        b = roundMagUnbounded n d ∨ roundMagUnbounded n d % 2 = 0) := by
  have scaled (m : Nat) : |magToRat m - (n : ℚ) / d / 2 ^ 149| = |(magUnits m : ℚ) - n / d| / 2 ^ 149 := by
    rw [magToRat, ← sub_div, abs_div, abs_of_pos (by positivity : (0 : ℚ) < 2 ^ 149)]
  obtain ⟨hle, htie⟩ := roundMagUnbounded_nearest n hd b
  rw [scaled, scaled]
  exact ⟨div_le_div_of_nonneg_right hle (by positivity), fun e => htie ((div_left_inj' (by positivity)).1 e)⟩

theorem magToRat_strictMono : StrictMono magToRat := fun _ _ h =>
  div_lt_div_of_pos_right (by exact_mod_cast magUnits_lt_iff.2 h) (by positivity)

theorem magToRat_le_iff {a b : Nat} : magToRat a ≤ magToRat b ↔ a ≤ b := magToRat_strictMono.le_iff_le

theorem magToRat_inf : magToRat infMag = 2 ^ 128 := by
  have h : magUnits infMag = 2 ^ 128 * 2 ^ 149 := by decide
  rw [magToRat, h]
  norm_num

/-- The largest finite magnitude. -/
theorem magToRat_max : magToRat (infMag - 1) = 2 ^ 128 - 2 ^ 104 := by
  have h : magUnits (infMag - 1) = (2 ^ 128 - 2 ^ 104) * 2 ^ 149 := by decide
  rw [magToRat, h]
  norm_num

section Distance

variable {K : Type} [Field K] [LinearOrder K] [IsStrictOrderedRing K] {r c q : K}

/-- Which of two values is nearer to `q` is decided by the side of their midpoint that `q` lies on. -/
theorem abs_sub_le_abs_sub_iff_mul : |r - q| ≤ |c - q| ↔ (r - c) * (r + c - 2 * q) ≤ 0 := by
  rw [← sq_le_sq, ← sub_nonpos]
  ring_nf

theorem le_midpoint_of_nearer (h : |r - q| ≤ |c - q|) (hrc : r < c) : 2 * q ≤ r + c := by
  have := nonneg_of_mul_nonpos_right (abs_sub_le_abs_sub_iff_mul.1 h) (sub_neg.2 hrc)
  linarith

theorem midpoint_le_of_nearer (h : |r - q| ≤ |c - q|) (hcr : c < r) : r + c ≤ 2 * q := by
  have := nonpos_of_mul_nonpos_right (abs_sub_le_abs_sub_iff_mul.1 h) (sub_pos.2 hcr)
  linarith

end Distance

/-- The rounding leaves the finite range exactly from the midpoint above the largest finite value on: at the midpoint itself
the largest finite value loses the tie, since its last bit is 1. -/
theorem infMag_le_roundMagUnbounded_iff (n : Nat) {d : Nat} (hd : 0 < d) :
    infMag ≤ roundMagUnbounded n d ↔ (2 ^ 128 - 2 ^ 103 : ℚ) ≤ (n : ℚ) / d / 2 ^ 149 := by
  obtain ⟨hmax, -⟩ := magToRat_roundMagUnbounded_nearest n hd (infMag - 1)
  obtain ⟨hinf, htie⟩ := magToRat_roundMagUnbounded_nearest n hd infMag
  generalize (n : ℚ) / d / 2 ^ 149 = q at hmax hinf htie ⊢
  constructor
  · intro h
    have hR := magToRat_le_iff.2 h
    have hmid := midpoint_le_of_nearer hmax (magToRat_strictMono (Nat.lt_of_lt_of_le (by decide) h))
    rw [magToRat_inf] at hR
    rw [magToRat_max] at hmid
    linarith
  · intro hq
    by_contra h
    rw [not_le] at h
    have hR : magToRat (roundMagUnbounded n d) ≤ magToRat (infMag - 1) :=
      magToRat_le_iff.2 (Nat.le_sub_one_of_lt h)
    have hmid := le_midpoint_of_nearer hinf (magToRat_strictMono h)
    rw [magToRat_inf] at hmid htie
    have hRmax : roundMagUnbounded n d = infMag - 1 := by
      refine magToRat_strictMono.injective (le_antisymm hR ?_)
      rw [magToRat_max]
      linarith
    rw [hRmax, magToRat_max] at hmid htie
    obtain rfl : q = 2 ^ 128 - 2 ^ 103 := by linarith
    have := htie (by norm_num)
    unfold infMag at this
    omega

theorem roundMag_eq_inf_iff (n : Nat) {d : Nat} (hd : 0 < d) :
    roundMag n d = infMag ↔ (2 ^ 128 - 2 ^ 103 : ℚ) ≤ (n : ℚ) / d / 2 ^ 149 := by
  rw [← infMag_le_roundMagUnbounded_iff n hd, roundMag_eq_min]
  exact min_eq_right_iff

/-- A result below infinity is nearest among all magnitudes, and even at a tie with another one. -/
theorem roundMag_nearest {n d : Nat} (hd : 0 < d) (h : roundMag n d < infMag) (m : Nat) :
    |magToRat (roundMag n d) - (n : ℚ) / d / 2 ^ 149| ≤ |magToRat m - (n : ℚ) / d / 2 ^ 149| ∧
      (|magToRat (roundMag n d) - (n : ℚ) / d / 2 ^ 149| = |magToRat m - (n : ℚ) / d / 2 ^ 149| →
        m = roundMag n d ∨ roundMag n d % 2 = 0) := by
  rw [roundMag_eq_unbounded h]
  exact magToRat_roundMagUnbounded_nearest n hd m

/-- Settles O39, by the spacing of the magnitudes around the unclamped result and the odd largest finite magnitude. -/
theorem roundingIsNearestEven : Obligations.RoundingIsNearestEven := by
  unfold Obligations.RoundingIsNearestEven
  exact fun n _ hd => ⟨fun h m _ => roundMag_nearest hd h m, roundMag_eq_inf_iff n hd⟩

end Sys2Proof.Machine
end

section
/-! The value of a pattern as its sign and its magnitude's value, and the four operations on finite operands: the exact
result, rounded (00_scope.md R14). -/

namespace Sys2Proof.Machine

/-! ### Signs and values -/

/-- A number with a sign put before it. -/
def withSign (s : Bool) (q : ℚ) : ℚ := if s then -q else q

@[simp] theorem withSign_true (q : ℚ) : withSign true q = -q := rfl
@[simp] theorem withSign_false (q : ℚ) : withSign false q = q := rfl

theorem withSign_sub (s : Bool) (p q : ℚ) : withSign s p - withSign s q = withSign s (p - q) := by
  cases s
  · simp
  · simp only [withSign_true]
    ring

@[simp] theorem abs_withSign (s : Bool) (q : ℚ) : |withSign s q| = |q| := by
  cases s <;> simp

theorem withSign_mul (s t : Bool) (p q : ℚ) : withSign s p * withSign t q = withSign (s != t) (p * q) := by
  cases s <;> cases t <;> simp

theorem withSign_div (s t : Bool) (p q : ℚ) : withSign s p / withSign t q = withSign (s != t) (p / q) := by
  cases s <;> cases t <;> simp [neg_div, div_neg]

theorem withSign_div_right (s : Bool) (p q : ℚ) : withSign s (p / q) = withSign s p / q := by
  cases s <;> simp [neg_div]

theorem magToRat_nonneg (m : Nat) : 0 ≤ magToRat m := by
  unfold magToRat
  positivity

@[simp] theorem magToRat_zero : magToRat 0 = 0 := by simp [magToRat]

theorem magToRat_eq_zero_iff {m : Nat} : magToRat m = 0 ↔ m = 0 := by
  rw [← magToRat_zero, magToRat_strictMono.injective.eq_iff]

theorem f32ToRat_eq (x : F32) : f32ToRat x = withSign (f32Sign x) (magToRat (f32Mag x)) := by
  unfold f32ToRat magToRat
  rw [f32Units_eq]
  cases f32Sign x <;> simp [neg_div]

theorem f32ToRat_pack (s : Bool) {m : Nat} (h : m < 2 ^ 31) : f32ToRat (f32Pack s m) = withSign s (magToRat m) := by
  rw [f32ToRat_eq, f32Sign_pack s h, f32Mag_pack s h]

@[simp] theorem abs_f32ToRat (x : F32) : |f32ToRat x| = magToRat (f32Mag x) := by
  rw [f32ToRat_eq, abs_withSign, abs_of_nonneg (magToRat_nonneg _)]

theorem f32ToRat_eq_zero_iff (x : F32) : f32ToRat x = 0 ↔ f32Mag x = 0 := by
  rw [← abs_eq_zero, abs_f32ToRat, magToRat_eq_zero_iff]

theorem f32ToRat_neg {x : F32} (h : f32IsNaN x = false) : f32ToRat (f32Neg x) = -f32ToRat x := by
  unfold f32ToRat
  rw [f32Units_neg h]
  push_cast
  ring

theorem f32IsFinite_pack_iff (s : Bool) {m : Nat} (h : m < 2 ^ 31) : f32IsFinite (f32Pack s m) = true ↔ m < infMag := by
  rw [f32IsFinite, f32Mag_pack s h, decide_eq_true_eq]

/-- A pattern's last bit is its magnitude's. -/
theorem f32Pack_mod_two (s : Bool) (m : Nat) : (f32Pack s m).toNat % 2 = m % 2 := by
  unfold f32Pack
  rw [BitVec.toNat_ofNat]
  split <;> omega

theorem signedZero_eq_pack (s : Bool) : signedZero s = f32Pack s 0 := by cases s <;> rfl

theorem signedInf_eq_pack (s : Bool) : signedInf s = f32Pack s infMag := by cases s <;> rfl

/-! ### A signed magnitude, rounded -/

/-- A number with another sign is as near to a signed number as the number itself only when it is zero. -/
theorem withSign_eq_of_tie {M q : ℚ} {s t : Bool} (hM : 0 ≤ M) (hq : 0 ≤ q) (h0 : |M - q| ≤ q)
    (e : |M - q| = |withSign t M - withSign s q|) : withSign t M = withSign s M := by
  by_cases hs : t = s
  · rw [hs]
  · have hsum : |withSign t M - withSign s q| = M + q := by
      rw [← abs_of_nonneg (add_nonneg hM hq), Bool.eq_not_of_ne hs]
      cases s with
      | false =>
        rw [← abs_neg (M + q)]
        congr 1
        simp only [Bool.not_false, withSign_true, withSign_false]
        ring
      | true => simp
    obtain rfl : M = 0 := by linarith
    cases s <;> cases t <;> simp

/-- A rounded magnitude with a sign is nearest to the exact value of that sign, and even at a tie with another value. -/
theorem pack_roundMag_nearest {n d : Nat} {q : ℚ} (s : Bool) (hd : 0 < d) (h : roundMag n d < infMag)
    (hq : (n : ℚ) / d / 2 ^ 149 = q) (c : F32) :
    |f32ToRat (f32Pack s (roundMag n d)) - withSign s q| ≤ |f32ToRat c - withSign s q| ∧
      (|f32ToRat (f32Pack s (roundMag n d)) - withSign s q| = |f32ToRat c - withSign s q| →
        f32ToRat c = f32ToRat (f32Pack s (roundMag n d)) ∨ (f32Pack s (roundMag n d)).toNat % 2 = 0) := by
  have hq0 : 0 ≤ q := by
    rw [← hq]
    positivity
  obtain ⟨hle, htie⟩ := roundMag_nearest hd h (f32Mag c)
  obtain ⟨hle0, -⟩ := roundMag_nearest hd h 0
  rw [hq] at hle htie hle0
  rw [f32Pack_mod_two, f32ToRat_pack _ (roundMag_lt n d), withSign_sub, abs_withSign]
  -- the distance to a value of the other sign is no less than the distance of the magnitudes
  have hmags : |magToRat (f32Mag c) - q| ≤ |f32ToRat c - withSign s q| := by
    have := abs_abs_sub_abs_le (f32ToRat c) (withSign s q)
    rwa [abs_f32ToRat, abs_withSign, abs_of_nonneg hq0] at this
  refine ⟨hle.trans hmags, fun e => ?_⟩
  rcases htie (le_antisymm hle (e ▸ hmags)) with hm | heven
  · left
    rw [f32ToRat_eq, hm] at e ⊢
    rw [magToRat_zero, zero_sub, abs_neg, abs_of_nonneg hq0] at hle0
    exact withSign_eq_of_tie (magToRat_nonneg _) hq0 hle0 e
  · exact .inr heven

/-- A signed magnitude, rounded, is what `RoundsTo` asks for the exact value of that sign. -/
theorem roundsTo_pack (s : Bool) (n : Nat) {d : Nat} (hd : 0 < d) :
    RoundsTo (withSign s ((n : ℚ) / d / 2 ^ 149)) (f32Pack s (roundMag n d)) := by
  have hq : 0 ≤ (n : ℚ) / d / 2 ^ 149 := by positivity
  have hbound : 0 < overflowBound := by norm_num [overflowBound]
  have hinf : overflowBound ≤ (n : ℚ) / d / 2 ^ 149 → roundMag n d = infMag := (roundMag_eq_inf_iff n hd).2
  refine ⟨fun h => ?_, fun h => ?_, fun h => ?_⟩
  · rw [abs_withSign, abs_of_nonneg hq] at h
    have hfin : roundMag n d < infMag :=
      lt_of_le_of_ne (roundMag_le_inf n d) fun e => absurd ((roundMag_eq_inf_iff n hd).1 e) (not_le.2 h)
    exact ⟨(f32IsFinite_pack_iff s (roundMag_lt n d)).2 hfin, fun c _ => pack_roundMag_nearest s hd hfin rfl c⟩
  · cases s with
    | false => rw [hinf h]; rfl
    | true => rw [withSign_true] at h; linarith
  · cases s with
    | false => rw [withSign_false] at h; linarith
    | true => rw [hinf (neg_le_neg_iff.1 h)]; rfl

/-! ### The operations on finite operands -/

/-- A rounded whole number of units, with its sign. -/
theorem roundsTo_units (s : Bool) {z : Int} (hs : withSign s (z.natAbs : ℚ) = z) :
    RoundsTo ((z : ℚ) / 2 ^ 149) (f32Pack s (roundMag z.natAbs 1)) := by
  have h := roundsTo_pack s z.natAbs Nat.one_pos
  rwa [Nat.cast_one, div_one, withSign_div_right, hs] at h

theorem withSign_natAbs (z : Int) : withSign (decide (z < 0)) (z.natAbs : ℚ) = z := by
  rw [Nat.cast_natAbs]
  by_cases h : z < 0
  · rw [decide_eq_true h, withSign_true, abs_of_neg h]
    simp
  · rw [decide_eq_false h, withSign_false, abs_of_nonneg (not_lt.1 h)]

theorem f32ToRat_add_eq (a b : F32) : f32ToRat a + f32ToRat b = ((f32Units a + f32Units b : Int) : ℚ) / 2 ^ 149 := by
  unfold f32ToRat
  push_cast
  ring

theorem units_div_eq_zero_iff (z : Int) : (z : ℚ) / 2 ^ 149 = 0 ↔ z = 0 := by
  simp

/-- The sign of a whole number of units is that of its value. -/
theorem units_div_neg_iff (z : Int) : (z : ℚ) / 2 ^ 149 < 0 ↔ z < 0 := by
  rw [div_neg_iff]
  simp

section Finite

variable {a b : F32}

/-- The sum of finite values, its zeros' signs included: the exact sum rounded, as one pattern. -/
theorem f32Add_eq_pack (ha : f32IsFinite a = true) (hb : f32IsFinite b = true) :
    f32Add a b =
      f32Pack (if f32Units a + f32Units b = 0 then f32Sign a && f32Sign b else decide (f32Units a + f32Units b < 0))
        (roundMag (f32Units a + f32Units b).natAbs 1) := by
  obtain ⟨na, ia⟩ := (f32IsFinite_iff a).1 ha
  obtain ⟨nb, ib⟩ := (f32IsFinite_iff b).1 hb
  unfold f32Add
  simp only [na, nb, ia, ib, Bool.or_self, Bool.false_eq_true, if_false]
  split
  · rename_i h
    rw [h]
    rfl
  · rfl

theorem f32Add_roundsTo (ha : f32IsFinite a = true) (hb : f32IsFinite b = true) :
    RoundsTo (f32ToRat a + f32ToRat b) (f32Add a b) := by
  rw [f32Add_eq_pack ha hb, f32ToRat_add_eq]
  apply roundsTo_units
  split
  · rename_i h
    rw [h]
    cases f32Sign a && f32Sign b <;> simp
  · exact withSign_natAbs _

theorem f32Sign_add (ha : f32IsFinite a = true) (hb : f32IsFinite b = true) :
    f32Sign (f32Add a b) =
      if f32ToRat a + f32ToRat b = 0 then f32Sign a && f32Sign b else decide (f32ToRat a + f32ToRat b < 0) := by
  rw [f32Add_eq_pack ha hb, f32Sign_pack _ (roundMag_lt _ _), f32ToRat_add_eq]
  simp only [units_div_eq_zero_iff, units_div_neg_iff]

/-- Subtraction is addition of the negated operand, by value and by sign. -/
theorem f32Sub_roundsTo (ha : f32IsFinite a = true) (hb : f32IsFinite b = true) :
    RoundsTo (f32ToRat a - f32ToRat b) (f32Sub a b) := by
  rw [sub_eq_add_neg, ← f32ToRat_neg (f32NotNaN_of_finite hb)]
  exact f32Add_roundsTo ha (by rwa [f32IsFinite_neg])

theorem f32Sign_sub (ha : f32IsFinite a = true) (hb : f32IsFinite b = true) :
    f32Sign (f32Sub a b) =
      if f32ToRat a - f32ToRat b = 0 then f32Sign a && !f32Sign b else decide (f32ToRat a - f32ToRat b < 0) := by
  have nb := f32NotNaN_of_finite hb
  rw [sub_eq_add_neg, ← f32ToRat_neg nb, ← f32Sign_neg nb]
  exact f32Sign_add ha (by rwa [f32IsFinite_neg])

theorem f32Mul_roundsTo (ha : f32IsFinite a = true) (hb : f32IsFinite b = true) :
    RoundsTo (f32ToRat a * f32ToRat b) (f32Mul a b) := by
  have h := roundsTo_pack (f32SignXor a b) (magUnits (f32Mag a) * magUnits (f32Mag b)) (Nat.two_pow_pos 149)
  rw [f32Mul_finite ha hb, f32ToRat_eq a, f32ToRat_eq b, withSign_mul]
  convert h using 1
  refine congrArg _ ?_
  unfold magToRat
  push_cast
  ring

theorem f32Div_roundsTo (ha : f32IsFinite a = true) (hb : f32IsFinite b = true) (h0 : f32Mag b ≠ 0) :
    RoundsTo (f32ToRat a / f32ToRat b) (f32Div a b) := by
  have hpos : 0 < magUnits (f32Mag b) := by
    simpa using magUnits_lt_iff.2 (Nat.pos_of_ne_zero h0)
  have h := roundsTo_pack (f32SignXor a b) (magUnits (f32Mag a) * 2 ^ 149) hpos
  rw [f32Div_finite ha hb h0, f32ToRat_eq a, f32ToRat_eq b, withSign_div]
  convert h using 1
  refine congrArg _ ?_
  rw [magToRat, magToRat, Nat.cast_mul, Nat.cast_pow, Nat.cast_ofNat]
  field_simp

theorem f32Sign_div_finite (ha : f32IsFinite a = true) (hb : f32IsFinite b = true) (h0 : f32Mag b ≠ 0) :
    f32Sign (f32Div a b) = f32SignXor a b := by
  rw [f32Div_finite ha hb h0, f32Sign_pack _ (roundMag_lt _ _)]

/-- A nonzero finite value over a zero is an infinity. -/
theorem f32Div_zero_right (ha : f32IsFinite a = true) (ha0 : f32Mag a ≠ 0) (hb0 : f32Mag b = 0) :
    f32Div a b = signedInf (f32SignXor a b) := by
  obtain ⟨na, ia⟩ := (f32IsFinite_iff a).1 ha
  have nb : f32IsNaN b = false := by simp [f32IsNaN, hb0]
  have ib : f32IsInf b = false := by simp [f32IsInf, hb0, infMag]
  rw [signedInf_eq_pack]
  unfold f32Div
  simp [na, nb, ia, ib, ha0, hb0]

end Finite

/-! ### The operations with an infinite operand -/

theorem f32Mag_of_inf {a : F32} (h : f32IsInf a = true) : f32Mag a = infMag := of_decide_eq_true h

theorem f32NotNaN_of_inf {a : F32} (h : f32IsInf a = true) : f32IsNaN a = false := by
  simp [f32IsNaN, f32Mag_of_inf h]

section Infinite

variable {a b : F32}

theorem f32Add_inf_left (ha : f32IsInf a = true) (hb : f32IsFinite b = true) : f32Add a b = a := by
  obtain ⟨nb, ib⟩ := (f32IsFinite_iff b).1 hb
  unfold f32Add
  simp [f32NotNaN_of_inf ha, ha, nb, ib]

theorem f32Add_inf_inf (ha : f32IsInf a = true) (hb : f32IsInf b = true) (hs : f32Sign a = f32Sign b) :
    f32Add a b = a := by
  unfold f32Add
  simp [f32NotNaN_of_inf ha, f32NotNaN_of_inf hb, ha, hb, hs]

/-- A product with an infinity and no zero and no NaN is an infinity. -/
theorem f32Mul_inf (h : f32IsInf a = true ∨ f32IsInf b = true) (na : f32IsNaN a = false) (nb : f32IsNaN b = false)
    (ha0 : f32Mag a ≠ 0) (hb0 : f32Mag b ≠ 0) : f32Mul a b = signedInf (f32SignXor a b) := by
  rw [signedInf_eq_pack]
  unfold f32Mul
  simp [na, nb, ha0, hb0, h]

theorem f32Div_inf_left (ha : f32IsInf a = true) (hb : f32IsFinite b = true) :
    f32Div a b = signedInf (f32SignXor a b) := by
  obtain ⟨nb, ib⟩ := (f32IsFinite_iff b).1 hb
  rw [signedInf_eq_pack]
  unfold f32Div
  simp [f32NotNaN_of_inf ha, nb, ha, ib]

end Infinite

/-- Settles O40, clause by clause from the operations' own lemmas: each finite result is one signed magnitude, rounded. -/
theorem arithmeticIsCorrectlyRounded : Obligations.ArithmeticIsCorrectlyRounded := by
  unfold Obligations.ArithmeticIsCorrectlyRounded
  have inf_ne_zero {a : F32} (h : f32IsInf a = true) : f32Mag a ≠ 0 := by
    rw [f32Mag_of_inf h]
    decide
  refine ⟨fun a b ha hb => ?_, fun a b ha hb => ?_, fun a b ha hb => ?_, fun a => f32Neg_of_not_nan⟩
  · exact ⟨f32Add_roundsTo ha hb, f32Sign_add ha hb, f32Sub_roundsTo ha hb, f32Sign_sub ha hb, f32Mul_roundsTo ha hb,
      f32Sign_mul_finite ha hb, fun h0 => ⟨f32Div_roundsTo ha hb h0, f32Sign_div_finite ha hb h0⟩,
      fun ha0 hb0 => f32Div_zero_right ha ha0 hb0⟩
  · have na := f32NotNaN_of_finite ha
    have nb := f32NotNaN_of_inf hb
    have flip : f32SignXor b a = (f32Sign a != f32Sign b) := Bool.xor_comm _ _
    refine ⟨f32Add_inf_right ha hb, f32Add_inf_left hb ha, ?_, f32Add_inf_left hb (by rwa [f32IsFinite_neg]), ?_, ?_,
      fun ha0 => ⟨?_, ?_⟩⟩
    · exact f32Add_inf_right ha (by rwa [f32IsInf_neg])
    · rw [signedZero_eq_pack]
      exact f32Div_inf_right ha hb
    · rw [← flip]
      exact f32Div_inf_left hb ha
    · exact f32Mul_inf (.inr hb) na nb ha0 (inf_ne_zero hb)
    · rw [← flip]
      exact f32Mul_inf (.inl hb) nb na (inf_ne_zero hb) ha0
  · have nb := f32NotNaN_of_inf hb
    refine ⟨f32Add_inf_inf ha hb, fun hs => ?_,
      f32Mul_inf (.inl ha) (f32NotNaN_of_inf ha) nb (inf_ne_zero ha) (inf_ne_zero hb)⟩
    refine f32Add_inf_inf ha (by rwa [f32IsInf_neg]) ?_
    rw [f32Sign_neg nb, Bool.eq_not_of_ne hs]

end Sys2Proof.Machine
end

section
/-! NaN results are the one pattern (00_scope.md R16): an operation gives the NaN of an invalid operation, an operand that is
no NaN, or a magnitude of at most infinity. -/

namespace Sys2Proof.Machine

/-- A result that is the one NaN whenever it is a NaN at all. -/
def CanonicalNaN (x : F32) : Prop := f32IsNaN x = true → x = f32NaN

theorem canonicalNaN_nan : CanonicalNaN f32NaN := fun _ => rfl

theorem canonicalNaN_of_notNaN {x : F32} (h : f32IsNaN x = false) : CanonicalNaN x :=
  fun hn => absurd hn (ne_true_of_eq_false h)

theorem canonicalNaN_pack (s : Bool) {m : Nat} (h : m ≤ infMag) : CanonicalNaN (f32Pack s m) :=
  canonicalNaN_of_notNaN (f32IsNaN_pack_of_le h)

section Operands

variable {a b : F32}

theorem f32Add_nan (h : f32IsNaN a = true ∨ f32IsNaN b = true) : f32Add a b = f32NaN :=
  if_pos (by simpa using h)

theorem f32Sub_nan (h : f32IsNaN a = true ∨ f32IsNaN b = true) : f32Sub a b = f32NaN :=
  f32Add_nan (by rwa [f32IsNaN_neg])

theorem f32Mul_nan (h : f32IsNaN a = true ∨ f32IsNaN b = true) : f32Mul a b = f32NaN :=
  if_pos (by simpa using h)

theorem f32Div_nan (h : f32IsNaN a = true ∨ f32IsNaN b = true) : f32Div a b = f32NaN :=
  if_pos (by simpa using h)

/-! ### Invalid operations -/

/-- A zero is finite. -/
theorem f32IsFinite_of_zero (h : f32Mag a = 0) : f32IsFinite a = true := by
  rw [f32IsFinite, h]
  rfl

/-- Infinities of opposite signs have no sum. -/
theorem f32Add_inf_opposite (ha : f32IsInf a = true) (hb : f32IsInf b = true) (hs : f32Sign a ≠ f32Sign b) :
    f32Add a b = f32NaN := by
  unfold f32Add
  simp [f32NotNaN_of_inf ha, f32NotNaN_of_inf hb, ha, hb, hs]

/-- An infinity and a zero have no product, on either side. -/
theorem f32Mul_inf_zero (ha : f32IsInf a = true) (hb : f32Mag b = 0) :
    f32Mul a b = f32NaN ∧ f32Mul b a = f32NaN := by
  have na := f32NotNaN_of_inf ha
  have nb := f32NotNaN_of_finite (f32IsFinite_of_zero hb)
  unfold f32Mul
  constructor <;> simp [na, nb, ha, hb]

theorem f32Div_inf_inf (ha : f32IsInf a = true) (hb : f32IsInf b = true) : f32Div a b = f32NaN := by
  unfold f32Div
  simp [f32NotNaN_of_inf ha, f32NotNaN_of_inf hb, ha, hb]

theorem f32Div_zero_zero (ha : f32Mag a = 0) (hb : f32Mag b = 0) : f32Div a b = f32NaN := by
  obtain ⟨na, ia⟩ := (f32IsFinite_iff a).1 (f32IsFinite_of_zero ha)
  obtain ⟨nb, ib⟩ := (f32IsFinite_iff b).1 (f32IsFinite_of_zero hb)
  unfold f32Div
  simp [na, nb, ia, ib, ha, hb]

end Operands

/-! ### Every NaN result -/

theorem f32Add_canonicalNaN (a b : F32) : CanonicalNaN (f32Add a b) := by
  by_cases h : f32IsNaN a = true ∨ f32IsNaN b = true
  · rw [f32Add_nan h]
    exact canonicalNaN_nan
  · simp only [not_or, Bool.not_eq_true] at h
    obtain ⟨na, nb⟩ := h
    unfold f32Add
    simp only [na, nb, Bool.or_self, Bool.false_eq_true, if_false]
    split
    · split
      · exact canonicalNaN_nan
      · exact canonicalNaN_of_notNaN na
    · split
      · exact canonicalNaN_of_notNaN nb
      · split
        · exact canonicalNaN_pack _ (Nat.zero_le _)
        · exact canonicalNaN_of_notNaN (f32IsNaN_roundUnits _)

theorem f32Mul_canonicalNaN (a b : F32) : CanonicalNaN (f32Mul a b) := by
  unfold f32Mul
  split
  · exact canonicalNaN_nan
  · split
    · split
      · exact canonicalNaN_nan
      · exact canonicalNaN_pack _ le_rfl
    · exact canonicalNaN_pack _ (roundMag_le_inf _ _)

theorem f32Div_canonicalNaN (a b : F32) : CanonicalNaN (f32Div a b) := by
  unfold f32Div
  split
  · exact canonicalNaN_nan
  · split
    · split
      · exact canonicalNaN_nan
      · exact canonicalNaN_pack _ le_rfl
    · split
      · exact canonicalNaN_pack _ (Nat.zero_le _)
      · split
        · split
          · exact canonicalNaN_nan
          · exact canonicalNaN_pack _ le_rfl
        · exact canonicalNaN_pack _ (roundMag_le_inf _ _)

/-- Settles O41, from what each operation gives for a NaN operand, for an invalid operation and in every other branch. -/
theorem naNResultsAreTheOnePattern : Obligations.NaNResultsAreTheOnePattern := by
  unfold Obligations.NaNResultsAreTheOnePattern
  refine ⟨fun a b h => ⟨f32Add_nan h, f32Sub_nan h, f32Mul_nan h, f32Div_nan h⟩, fun a => f32Neg_of_nan,
    fun x => sin32_nan, fun a b op hop => ?_, fun a b => ⟨f32Add_inf_opposite, fun ha hb hs => ?_, f32Mul_inf_zero,
      f32Div_inf_inf, f32Div_zero_zero⟩⟩
  · simp only [List.mem_cons, List.not_mem_nil, or_false] at hop
    rcases hop with rfl | rfl | rfl | rfl
    · exact f32Add_canonicalNaN a b
    · exact f32Add_canonicalNaN a (f32Neg b)
    · exact f32Mul_canonicalNaN a b
    · exact f32Div_canonicalNaN a b
  · refine f32Add_inf_opposite ha (by rwa [f32IsInf_neg]) ?_
    rw [f32Sign_neg (f32NotNaN_of_inf hb), hs]
    exact (Bool.not_ne_self _).symm

end Sys2Proof.Machine
end

section
/-! Comparisons are by value, with an infinity beyond every finite value (00_scope.md R15), and the integer conversions are
exact or truncate (R19). -/

namespace Sys2Proof.Machine

/-! ### Comparisons of patterns that are no NaN -/

section Ordered

variable {a b : F32}

theorem f32Ordered_of_notNaN (na : f32IsNaN a = false) (nb : f32IsNaN b = false) : f32Ordered a b = true := by
  simp [f32Ordered, na, nb]

theorem f32Ordered_of_nan (h : f32IsNaN a = true ∨ f32IsNaN b = true) : f32Ordered a b = false := by
  rcases h with h | h <;> simp [f32Ordered, h]

theorem f32Lt_of_notNaN (na : f32IsNaN a = false) (nb : f32IsNaN b = false) :
    f32Lt a b = decide (f32Units a < f32Units b) := by
  simp [f32Lt, f32Ordered_of_notNaN na nb]

theorem f32Le_of_notNaN (na : f32IsNaN a = false) (nb : f32IsNaN b = false) :
    f32Le a b = decide (f32Units a ≤ f32Units b) := by
  simp [f32Le, f32Ordered_of_notNaN na nb]

theorem f32Eq_of_notNaN (na : f32IsNaN a = false) (nb : f32IsNaN b = false) :
    f32Eq a b = decide (f32Units a = f32Units b) := by
  simp [f32Eq, f32Ordered_of_notNaN na nb]

theorem f32ToRat_lt_iff : f32ToRat a < f32ToRat b ↔ f32Units a < f32Units b := by
  rw [f32ToRat, f32ToRat, div_lt_div_iff_of_pos_right (by positivity), Int.cast_lt]

theorem f32ToRat_le_iff : f32ToRat a ≤ f32ToRat b ↔ f32Units a ≤ f32Units b := by
  rw [f32ToRat, f32ToRat, div_le_div_iff_of_pos_right (by positivity), Int.cast_le]

theorem f32ToRat_inj : f32ToRat a = f32ToRat b ↔ f32Units a = f32Units b := by
  rw [f32ToRat, f32ToRat, div_left_inj' (by positivity), Int.cast_inj]

/-- The three comparisons that the other two are defined by, at a NaN. -/
theorem f32Compare_nan (h : f32IsNaN a = true ∨ f32IsNaN b = true) :
    f32Lt a b = false ∧ f32Le a b = false ∧ f32Eq a b = false := by
  simp [f32Lt, f32Le, f32Eq, f32Ordered_of_nan h]

theorem f32Le_eq_lt_or_eq (a b : F32) : f32Le a b = (f32Lt a b || f32Eq a b) := by
  unfold f32Le f32Lt f32Eq
  rw [← Bool.and_or_distrib_left, ← Bool.decide_or]
  simp only [le_iff_lt_or_eq]

end Ordered

/-! ### Infinities -/

/-- The units of an infinity, `±2^277`, for the comparisons with finite units. -/
theorem f32Units_of_inf {b : F32} (hb : f32IsInf b = true) :
    f32Units b = if f32Sign b then -(magUnits infMag : Int) else magUnits infMag := by
  rw [f32Units_eq, f32Mag_of_inf hb]

section Infinite

variable {a b : F32}

/-- A finite value lies between the infinities. -/
theorem f32Compare_finite_inf (ha : f32IsFinite a = true) (hb : f32IsInf b = true) :
    f32Lt a b = !f32Sign b ∧ f32Lt b a = f32Sign b ∧ f32Eq a b = false := by
  obtain ⟨na, hu⟩ := (f32IsFinite_iff_units a).1 ha
  have nb := f32NotNaN_of_inf hb
  obtain ⟨hlo, hhi⟩ := abs_lt.1 hu
  rw [f32Lt_of_notNaN na nb, f32Lt_of_notNaN nb na, f32Eq_of_notNaN na nb, f32Units_of_inf hb]
  cases f32Sign b <;> simp <;> omega

theorem f32Compare_inf_inf (ha : f32IsInf a = true) (hb : f32IsInf b = true) :
    f32Lt a b = (f32Sign a && !f32Sign b) ∧ f32Eq a b = (f32Sign a == f32Sign b) := by
  have na := f32NotNaN_of_inf ha
  have nb := f32NotNaN_of_inf hb
  have hpos : (0 : Int) < magUnits infMag := by decide
  rw [f32Lt_of_notNaN na nb, f32Eq_of_notNaN na nb, f32Units_of_inf ha, f32Units_of_inf hb]
  cases f32Sign a <;> cases f32Sign b <;> simp <;> omega

end Infinite

/-! ### An integer and a pattern -/

theorem natGtF32_iff (k : Nat) {x : F32} (h : f32IsNaN x = false) :
    natGtF32 k x = true ↔ f32Units x < (k : Int) * 2 ^ 149 := by
  simp [natGtF32, h]

theorem natGtF32_iff_toRat (k : Nat) {x : F32} (h : f32IsFinite x = true) : natGtF32 k x = true ↔ f32ToRat x < k := by
  rw [natGtF32_iff k (f32NotNaN_of_finite h), f32ToRat, div_lt_iff₀ (by positivity)]
  exact_mod_cast Iff.rfl

theorem natGtF32_inf {k : Nat} {x : F32} (h : f32IsInf x = true) (hk : k < 2 ^ 128) : natGtF32 k x = f32Sign x := by
  have hinf : (magUnits infMag : Int) = 2 ^ 128 * 2 ^ 149 := by decide
  rw [Bool.eq_iff_iff, natGtF32_iff k (f32NotNaN_of_inf h), f32Units_of_inf h, hinf]
  cases f32Sign x <;> simp <;> omega

/-- Settles O42, from the order of the units, in which an infinity lies beyond every finite value. -/
theorem comparisonsAreByValue : Obligations.ComparisonsAreByValue := by
  unfold Obligations.ComparisonsAreByValue
  refine ⟨fun a b ha hb => ?_, fun a b h => ?_, fun a b => f32Compare_finite_inf, fun a b => f32Compare_inf_inf,
    fun a b => ⟨f32Le_eq_lt_or_eq a b, rfl, rfl⟩, by decide +kernel,
    fun k x => ⟨natGtF32_iff_toRat k, fun h => ?_, natGtF32_inf⟩⟩
  · have na := f32NotNaN_of_finite ha
    have nb := f32NotNaN_of_finite hb
    rw [f32Gt, f32Ge, f32Lt_of_notNaN na nb, f32Le_of_notNaN na nb, f32Lt_of_notNaN nb na, f32Le_of_notNaN nb na,
      f32Eq_of_notNaN na nb]
    simp only [decide_eq_true_eq, f32ToRat_lt_iff, f32ToRat_le_iff, f32ToRat_inj, and_self]
  · obtain ⟨hlt, hle, heq⟩ := f32Compare_nan h
    obtain ⟨hgt, hge, -⟩ := f32Compare_nan h.symm
    exact ⟨hlt, hle, hgt, hge, heq⟩
  · simp [natGtF32, h]

/-! ### Conversions -/

/-- An integer below 2^24 is a representable magnitude: its bits, shifted to 24, at the scale that shifts them back. -/
theorem exists_magUnits_eq_nat {n : Nat} (h : n < 2 ^ 24) : ∃ b < infMag, magUnits b = n * 2 ^ 149 := by
  rcases Nat.eq_zero_or_pos n with rfl | hpos
  · exact ⟨0, by decide, by simp⟩
  · have hlog : n.log2 < 24 := (Nat.log2_lt hpos.ne').2 h
    have hlo : 2 ^ n.log2 ≤ n := Nat.log2_self_le hpos.ne'
    have hhi : n < 2 ^ (n.log2 + 1) := Nat.lt_log2_self
    generalize n.log2 = l at hlog hlo hhi
    have hmin : 2 ^ 23 ≤ n * 2 ^ (23 - l) := by
      calc 2 ^ 23 = 2 ^ l * 2 ^ (23 - l) := by rw [← Nat.pow_add]; congr 1; omega
        _ ≤ n * 2 ^ (23 - l) := Nat.mul_le_mul_right _ hlo
    have hmax : n * 2 ^ (23 - l) ≤ 2 ^ 24 := by
      calc n * 2 ^ (23 - l) ≤ 2 ^ (l + 1) * 2 ^ (23 - l) := Nat.mul_le_mul_right _ hhi.le
        _ = 2 ^ 24 := by rw [← Nat.pow_add]; congr 1; omega
    refine ⟨(126 + l) * 2 ^ 23 + n * 2 ^ (23 - l), ?_, ?_⟩
    · unfold infMag
      omega
    · rw [magUnits_scaled hmax fun _ => hmin, Nat.mul_assoc, ← Nat.pow_add]
      congr 2
      omega

/-- The conversion of an integer below 2^24 rounds a representable value. -/
theorem f32OfInt_exact {k : Int} (h : |k| < 2 ^ 24) : f32IsFinite (f32OfInt k) = true ∧ f32ToRat (f32OfInt k) = k := by
  obtain ⟨b, hb, hu⟩ := exists_magUnits_eq_nat (n := k.natAbs) (by rw [Int.abs_eq_natAbs] at h; exact_mod_cast h)
  have hround : roundMag (k * 2 ^ 149).natAbs 1 = b := by
    have habs : (k * 2 ^ 149).natAbs = magUnits b * 1 := by rw [hu, Int.natAbs_mul, Nat.mul_one]; rfl
    rw [habs]
    exact roundMag_exact Nat.one_pos hb.le
  have hval : magToRat b = k.natAbs := by
    rw [magToRat, hu, Nat.cast_mul, Nat.cast_pow, Nat.cast_ofNat]
    exact mul_div_cancel_right₀ _ (by positivity)
  have hsign : decide (k * 2 ^ 149 < 0) = decide (k < 0) := decide_eq_decide.2 (by omega)
  have hlt : b < 2 ^ 31 := hb.trans infMag_lt
  unfold f32OfInt roundUnits
  rw [hround, hsign]
  refine ⟨(f32IsFinite_pack_iff _ hlt).2 hb, ?_⟩
  rw [f32ToRat_pack _ hlt, hval, withSign_natAbs]

/-- Truncation is the floor of a magnitude with its sign: the floor of a value from 0 on, the ceiling of one below. -/
theorem f32Trunc_eq (x : F32) : f32Trunc x = if 0 ≤ f32ToRat x then ⌊f32ToRat x⌋ else ⌈f32ToRat x⌉ := by
  have hfloor : ((magUnits (f32Mag x) / 2 ^ 149 : Nat) : Int) = ⌊magToRat (f32Mag x)⌋ := by
    have := Rat.floor_natCast_div_natCast (magUnits (f32Mag x)) (2 ^ 149)
    rw [Nat.cast_pow, Nat.cast_ofNat] at this
    rw [magToRat, this]
    rfl
  have hM := magToRat_nonneg (f32Mag x)
  unfold f32Trunc
  rw [hfloor, f32ToRat_eq]
  cases f32Sign x with
  | false => simp [hM]
  | true =>
    rw [if_pos rfl]
    split
    · rename_i h
      rw [withSign_true, neg_nonneg] at h
      simp [le_antisymm h hM]
    · simp [Int.ceil_neg]

/-- Settles O43. -/
theorem conversionsAreExactOrTruncating : Obligations.ConversionsAreExactOrTruncating := by
  unfold Obligations.ConversionsAreExactOrTruncating
  exact ⟨fun _ => f32OfInt_exact, fun x _ => f32Trunc_eq x⟩

end Sys2Proof.Machine
end

section
/-! The bracket of the sine holds the real sine, so that where its two ends round to one value, that value is the nearest one
(00_scope.md R18, log entry 3). The error of one doubling is `4·err + 2`, as the model counts it: the error terms that are
linear in `err` stay below `3·err` and the square below `err`, as long as `err` is at most half the fixed-point unit. -/

namespace Sys2Proof.Machine

/-! ### The bracket and its doubling -/

/-- The ball's fixed-point numbers lie within its error of the sine and the cosine of the angle. -/
def SineBall.Brackets (prec : Nat) (b : SineBall) (θ : ℝ) : Prop :=
  |(b.sin : ℝ) - 2 ^ prec * Real.sin θ| ≤ b.err ∧ |(b.cos : ℝ) - 2 ^ prec * Real.cos θ| ≤ b.err

/-- A whole quotient lies within 1 of the exact one. -/
theorem intDiv_distance (z : Int) (d : Nat) : |((z / d : Int) : ℝ) - z / d| ≤ 1 := by
  have hfloor : ⌊(z : ℝ) / d⌋ = z / d := by rw [Int.floor_div_natCast, Int.floor_intCast]
  rw [← hfloor, abs_le]
  constructor
  · linarith [Int.lt_floor_add_one ((z : ℝ) / d)]
  · linarith [Int.floor_le ((z : ℝ) / d)]

theorem natDiv_distance (n d : Nat) : |((n / d : Nat) : ℝ) - (n : ℝ) / d| ≤ 1 := by
  have h := intDiv_distance n d
  rwa [← Int.natCast_ediv, Int.cast_natCast, Int.cast_natCast] at h

/-- By Cauchy and Schwarz, a unit vector's product with two errors of at most `E`. -/
theorem abs_unit_mul_le {S C e₁ e₂ E : ℝ} (hunit : S ^ 2 + C ^ 2 = 1) (h₁ : |e₁| ≤ E) (h₂ : |e₂| ≤ E) :
    |S * e₂ + C * e₁| ≤ 3 / 2 * E := by
  have hE : 0 ≤ E := (abs_nonneg e₁).trans h₁
  have s₁ : e₁ ^ 2 ≤ E ^ 2 := sq_le_sq' (abs_le.1 h₁).1 (abs_le.1 h₁).2
  have s₂ : e₂ ^ 2 ≤ E ^ 2 := sq_le_sq' (abs_le.1 h₂).1 (abs_le.1 h₂).2
  refine abs_le_of_sq_le_sq ?_ (by positivity)
  calc (S * e₂ + C * e₁) ^ 2 = (S ^ 2 + C ^ 2) * (e₁ ^ 2 + e₂ ^ 2) - (S * e₁ - C * e₂) ^ 2 := by ring
    _ ≤ e₁ ^ 2 + e₂ ^ 2 := by rw [hunit, one_mul]; exact sub_le_self _ (sq_nonneg _)
    _ ≤ (3 / 2 * E) ^ 2 := by nlinarith [sq_nonneg E]

/-- The product of two errors, in fixed point. -/
theorem abs_mul_div_le {e₁ e₂ E X : ℝ} (h₁ : |e₁| ≤ E) (h₂ : |e₂| ≤ E) (hX : 0 < X) (hE : 2 * E ≤ X) :
    |e₁ * e₂ / X| ≤ E / 2 := by
  have hE0 : 0 ≤ E := (abs_nonneg e₁).trans h₁
  rw [abs_div, abs_mul, abs_of_pos hX, div_le_iff₀ hX]
  calc |e₁| * |e₂| ≤ E * E := mul_le_mul h₁ h₂ (abs_nonneg _) hE0
    _ ≤ E / 2 * X := by nlinarith

section Doubling

variable {S C e₁ e₂ E X : ℝ}

/-- The error of a doubled sine, before its division is made whole. -/
theorem double_sin_error (hunit : S ^ 2 + C ^ 2 = 1) (h₁ : |e₁| ≤ E) (h₂ : |e₂| ≤ E) (hX : 0 < X) (hE : 2 * E ≤ X) :
    |2 * (X * S + e₁) * (X * C + e₂) / X - X * (2 * S * C)| ≤ 4 * E := by
  have hlin := abs_unit_mul_le hunit h₁ h₂
  have hsq := abs_mul_div_le h₁ h₂ hX hE
  have hsplit : 2 * (X * S + e₁) * (X * C + e₂) / X - X * (2 * S * C) =
      2 * (S * e₂ + C * e₁) + 2 * (e₁ * e₂ / X) := by
    field_simp
    ring
  rw [abs_le] at hlin hsq
  rw [hsplit, abs_le]
  constructor <;> linarith

/-- The error of a doubled cosine, before its division is made whole. -/
theorem double_cos_error (hunit : S ^ 2 + C ^ 2 = 1) (h₁ : |e₁| ≤ E) (h₂ : |e₂| ≤ E) (hX : 0 < X) (hE : 2 * E ≤ X) :
    |((X * C + e₂) * (X * C + e₂) - (X * S + e₁) * (X * S + e₁)) / X - X * (C ^ 2 - S ^ 2)| ≤ 4 * E := by
  have hlin := abs_unit_mul_le (S := C) (C := -S) (by rw [← hunit]; ring) h₁ h₂
  have hsq₁ := abs_mul_div_le h₁ h₁ hX hE
  have hsq₂ := abs_mul_div_le h₂ h₂ hX hE
  have hsplit : ((X * C + e₂) * (X * C + e₂) - (X * S + e₁) * (X * S + e₁)) / X - X * (C ^ 2 - S ^ 2) =
      2 * (C * e₂ + -S * e₁) + e₂ * e₂ / X - e₁ * e₁ / X := by
    field_simp
    ring
  rw [abs_le] at hlin hsq₁ hsq₂
  rw [hsplit, abs_le]
  constructor <;> linarith

end Doubling

/-- One doubling keeps the bracket. -/
theorem SineBall.Brackets.double {prec : Nat} {b : SineBall} {θ : ℝ} (h : b.Brackets prec θ)
    (herr : 2 * (b.err : ℝ) ≤ 2 ^ prec) : (b.double prec).Brackets prec (2 * θ) := by
  obtain ⟨hs, hc⟩ := h
  have hX : (0 : ℝ) < 2 ^ prec := by positivity
  have hunit := Real.sin_sq_add_cos_sq θ
  have es := double_sin_error hunit hs hc hX herr
  have ec := double_cos_error hunit hs hc hX herr
  rw [add_sub_cancel, add_sub_cancel] at es ec
  have ds := intDiv_distance (2 * b.sin * b.cos) (2 ^ prec)
  have dc := intDiv_distance (b.cos * b.cos - b.sin * b.sin) (2 ^ prec)
  unfold SineBall.Brackets SineBall.double
  rw [Real.sin_two_mul, Real.cos_two_mul']
  push_cast at ds dc ⊢
  exact ⟨(abs_sub_le _ _ _).trans ((add_le_add ds es).trans (by linarith)),
    (abs_sub_le _ _ _).trans ((add_le_add dc ec).trans (by linarith))⟩

/-- `n` doublings keep the bracket when the error after them, below `4^n·(err + 1)`, is at most half the fixed-point unit. -/
theorem sineDoublings_brackets {prec n : Nat} : ∀ {b : SineBall} {θ : ℝ}, b.Brackets prec θ →
    2 * (4 ^ n * (b.err + 1)) ≤ 2 ^ prec → (sineDoublings prec n b).Brackets prec (2 ^ n * θ) := by
  induction n with
  | zero =>
    intro b θ h _
    simpa [sineDoublings] using h
  | succ n ih =>
    intro b θ h hbound
    have hpow : 1 ≤ 4 ^ n := Nat.one_le_pow _ _ (by decide)
    have herr : 2 * b.err ≤ 2 ^ prec := by
      rw [Nat.pow_succ] at hbound
      nlinarith
    have hnext : 2 * (4 ^ n * ((b.double prec).err + 1)) ≤ 2 ^ prec := by
      refine le_trans ?_ hbound
      rw [Nat.pow_succ, Nat.mul_assoc (4 ^ n)]
      refine Nat.mul_le_mul_left _ (Nat.mul_le_mul_left _ ?_)
      change 4 * b.err + 2 + 1 ≤ _
      omega
    have := ih (h.double (by exact_mod_cast herr)) hnext
    rwa [← mul_assoc, ← pow_succ] at this

/-! ### The bracket at the halved angle -/

/-- The halved angle, as a real number. -/
noncomputable def halvedAngle (u : Nat) : ℝ := (sineAngle u : ℝ) / 2 ^ sinePrec u

/-- The halvings leave the operand exact in fixed point. -/
theorem sineHalvings_le_prec (u : Nat) : 149 + sineHalvings u ≤ sinePrec u := by
  unfold sineHalvings sinePrec sineGuard
  omega

/-- The doublings bring the halved angle back to the operand. -/
theorem two_pow_mul_halvedAngle (u : Nat) : 2 ^ sineHalvings u * halvedAngle u = (u : ℝ) / 2 ^ 149 := by
  have hprec : (2 : ℝ) ^ sinePrec u = 2 ^ (sinePrec u - 149 - sineHalvings u) * 2 ^ 149 * 2 ^ sineHalvings u := by
    have := sineHalvings_le_prec u
    rw [← pow_add, ← pow_add]
    exact congrArg _ (by omega)
  unfold halvedAngle sineAngle
  rw [hprec, Nat.cast_mul, Nat.cast_pow, Nat.cast_ofNat]
  generalize sinePrec u - 149 - sineHalvings u = k
  generalize sineHalvings u = n
  field_simp

/-- The halved angle is tiny: at most `2^-sineGuard`. -/
theorem sineAngle_le (u : Nat) : sineAngle u * 2 ^ sineGuard u ≤ 2 ^ sinePrec u := by
  have hu : u ≤ 2 ^ (u.log2 + 1) := Nat.lt_log2_self.le
  have hprec := sineHalvings_le_prec u
  calc sineAngle u * 2 ^ sineGuard u
      ≤ 2 ^ (u.log2 + 1) * 2 ^ (sinePrec u - 149 - sineHalvings u) * 2 ^ sineGuard u :=
        Nat.mul_le_mul_right _ (Nat.mul_le_mul_right _ hu)
    _ = 2 ^ (u.log2 + 1 + (sinePrec u - 149 - sineHalvings u) + sineGuard u) := by
        rw [Nat.pow_add _ _ (sineGuard u), Nat.pow_add _ (u.log2 + 1)]
    _ ≤ 2 ^ sinePrec u := by
        refine Nat.pow_le_pow_right (by decide) ?_
        unfold sineHalvings at hprec ⊢
        omega

theorem abs_halvedAngle_le (u : Nat) : |halvedAngle u| ≤ 1 / 2 ^ sineGuard u := by
  unfold halvedAngle
  rw [abs_of_nonneg (by positivity), div_le_div_iff₀ (by positivity) (by positivity), one_mul]
  exact_mod_cast sineAngle_le u

theorem abs_halvedAngle_le_one (u : Nat) : |halvedAngle u| ≤ 1 :=
  (abs_halvedAngle_le u).trans (div_le_one_of_le₀ (one_le_pow₀ (by norm_num)) (by positivity))

/-- The distance of the series' first terms from the sine and the cosine, in fixed point, is below the ball's error. -/
theorem halvedAngle_pow_le (u : Nat) : 2 ^ sinePrec u * |halvedAngle u| ^ 4 ≤ 2 ^ 64 := by
  calc 2 ^ sinePrec u * |halvedAngle u| ^ 4 ≤ 2 ^ sinePrec u * (1 / 2 ^ sineGuard u) ^ 4 := by
        gcongr
        exact abs_halvedAngle_le u
    _ = 2 ^ 64 := by
        unfold sinePrec
        rw [pow_add, pow_mul']
        field_simp

theorem sineAngle_eq (u : Nat) : (sineAngle u : ℝ) = 2 ^ sinePrec u * halvedAngle u := by
  unfold halvedAngle
  exact (mul_div_cancel₀ _ (by positivity)).symm

/-- The whole cubic term of the model's sine. -/
theorem sineStart_cubic (u : Nat) :
    |((sineAngle u ^ 3 / (6 * 2 ^ (2 * sinePrec u)) : Nat) : ℝ) - 2 ^ sinePrec u * (halvedAngle u ^ 3 / 6)| ≤ 1 := by
  have h := natDiv_distance (sineAngle u ^ 3) (6 * 2 ^ (2 * sinePrec u))
  have hX : (2 : ℝ) ^ sinePrec u ≠ 0 := by positivity
  convert h using 3
  push_cast
  rw [pow_mul', sineAngle_eq]
  generalize (2 : ℝ) ^ sinePrec u = X at *
  field_simp

/-- The whole quadratic term of the model's cosine. -/
theorem sineStart_quadratic (u : Nat) :
    |((sineAngle u ^ 2 / (2 * 2 ^ sinePrec u) : Nat) : ℝ) - 2 ^ sinePrec u * (halvedAngle u ^ 2 / 2)| ≤ 1 := by
  have h := natDiv_distance (sineAngle u ^ 2) (2 * 2 ^ sinePrec u)
  have hX : (2 : ℝ) ^ sinePrec u ≠ 0 := by positivity
  convert h using 3
  push_cast
  rw [sineAngle_eq]
  generalize (2 : ℝ) ^ sinePrec u = X at *
  field_simp

/-- A term `p` less a whole `F` near `X·r`, in place of the `X·(p − r)` that is near `X·y`. -/
theorem fixed_point_series_error {X θ y p r F : ℝ} (hX : 0 < X) (hy : |y - (p - r)| ≤ |θ| ^ 4 * (5 / 96))
    (hF : |F - X * r| ≤ 1) (hpow : X * |θ| ^ 4 ≤ 2 ^ 64) : |X * p - F - X * y| ≤ 2 ^ 64 := by
  have hscaled : |X * (y - (p - r))| ≤ 2 ^ 64 * (5 / 96) := by
    rw [abs_mul, abs_of_pos hX]
    calc X * |y - (p - r)| ≤ X * (|θ| ^ 4 * (5 / 96)) := mul_le_mul_of_nonneg_left hy hX.le
      _ ≤ 2 ^ 64 * (5 / 96) := by rw [← mul_assoc]; exact mul_le_mul_of_nonneg_right hpow (by norm_num)
  calc |X * p - F - X * y| = |X * (y - (p - r)) + (F - X * r)| := by rw [← abs_neg]; ring_nf
    _ ≤ 2 ^ 64 * (5 / 96) + 1 := (abs_add_le _ _).trans (add_le_add hscaled hF)
    _ ≤ 2 ^ 64 := by norm_num

/-- The first terms of the series, with their distance from the sine and the cosine and the two whole divisions, lie in the
ball. -/
theorem sineStart_brackets (u : Nat) : (sineStart u).Brackets (sinePrec u) (halvedAngle u) := by
  have hX : (0 : ℝ) < 2 ^ sinePrec u := by positivity
  have h1 := abs_halvedAngle_le_one u
  have hpow := halvedAngle_pow_le u
  have hsin : |Real.sin (halvedAngle u) - (halvedAngle u - halvedAngle u ^ 3 / 6)| ≤ |halvedAngle u| ^ 4 * (5 / 96) :=
    calc _ ≤ |halvedAngle u| ^ 5 / 100 := Real.sin_bound h1
      _ ≤ |halvedAngle u| ^ 4 / 100 :=
          div_le_div_of_nonneg_right (pow_le_pow_of_le_one (abs_nonneg _) h1 (by decide)) (by norm_num)
      _ ≤ |halvedAngle u| ^ 4 * (5 / 96) := by
          rw [div_eq_mul_inv]
          exact mul_le_mul_of_nonneg_left (by norm_num) (by positivity)
  have esin := fixed_point_series_error hX hsin (sineStart_cubic u) hpow
  have ecos := fixed_point_series_error hX (Real.cos_bound h1) (sineStart_quadratic u) hpow
  rw [mul_one] at ecos
  unfold SineBall.Brackets sineStart
  rw [Int.cast_sub, Int.cast_sub, Int.cast_natCast, Int.cast_natCast, Int.cast_natCast, Int.cast_natCast, sineAngle_eq,
    Nat.cast_pow, Nat.cast_ofNat, Nat.cast_pow, Nat.cast_ofNat]
  exact ⟨esin, ecos⟩

/-- The bracket of the sine of `u` units holds it. -/
theorem sineBall_brackets (u : Nat) : (sineBall u).Brackets (sinePrec u) ((u : ℝ) / 2 ^ 149) := by
  rw [← two_pow_mul_halvedAngle]
  refine sineDoublings_brackets (sineStart_brackets u) ?_
  calc 2 * (4 ^ sineHalvings u * (2 ^ 64 + 1)) ≤ 2 * (4 ^ sineHalvings u * 2 ^ 65) := by
        gcongr
        decide
    _ = 2 ^ (2 * sineHalvings u + 66) := by
        rw [Nat.pow_add, Nat.pow_mul]
        ring
    _ ≤ 2 ^ sinePrec u := by
        refine Nat.pow_le_pow_right (by decide) ?_
        unfold sineHalvings sinePrec sineGuard
        omega

/-! ### The nearest value -/

/-- The value is nearest to a real number among the finite values. -/
def IsNearest (x : F32) (t : ℝ) : Prop :=
  ∀ c : F32, f32IsFinite c = true → |((f32ToRat x : ℚ) : ℝ) - t| ≤ |((f32ToRat c : ℚ) : ℝ) - t|

/-- A value nearest to both ends of an interval is nearest to every number in it. -/
theorem isNearest_of_between {x : F32} {lo hi t : ℝ} (hlo : IsNearest x lo) (hhi : IsNearest x hi) (h₁ : lo ≤ t)
    (h₂ : t ≤ hi) : IsNearest x t := by
  intro c hc
  have hlo := abs_sub_le_abs_sub_iff_mul.1 (hlo c hc)
  have hhi := abs_sub_le_abs_sub_iff_mul.1 (hhi c hc)
  refine abs_sub_le_abs_sub_iff_mul.2 ?_
  rcases le_total ((f32ToRat x : ℚ) : ℝ) (f32ToRat c : ℚ) with h | h <;> nlinarith

/-- The negated value is nearest to the negated number. -/
theorem isNearest_neg {x y : F32} {t : ℝ} (h : IsNearest x t) (hy : f32ToRat y = -f32ToRat x) : IsNearest y (-t) := by
  intro c hc
  have flip (p q : ℝ) : |-p - -q| = |p - q| := by rw [neg_sub_neg, abs_sub_comm]
  calc |((f32ToRat y : ℚ) : ℝ) - -t| = |((f32ToRat x : ℚ) : ℝ) - t| := by rw [hy, Rat.cast_neg, flip]
    _ ≤ |((f32ToRat (f32Neg c) : ℚ) : ℝ) - t| := h _ (by rwa [f32IsFinite_neg])
    _ = |((f32ToRat c : ℚ) : ℝ) - -t| := by
        rw [f32ToRat_neg (f32NotNaN_of_finite hc), Rat.cast_neg, ← flip, neg_neg]

/-- The rounding of a fixed-point number, with its sign, is nearest to it. -/
theorem pack_sineRound_nearest {prec : Nat} {z : Int} (h : sineRound prec z < infMag) :
    IsNearest (f32Pack (decide (z < 0)) (sineRound prec z)) ((z : ℝ) / 2 ^ prec) := by
  intro c _
  obtain ⟨hle, -⟩ := pack_roundMag_nearest (decide (z < 0)) (Nat.two_pow_pos prec) h rfl c
  have hexact : withSign (decide (z < 0)) (((z.natAbs * 2 ^ 149 : Nat) : ℚ) / (2 ^ prec : Nat) / 2 ^ 149) =
      (z : ℚ) / 2 ^ prec := by
    rw [Nat.cast_mul, Nat.cast_pow, Nat.cast_pow, Nat.cast_ofNat, div_right_comm,
      mul_div_cancel_right₀ _ (by positivity), withSign_div_right, withSign_natAbs]
  rw [hexact] at hle
  exact_mod_cast hle

/-- Where the bracket settles, each of its two ends has the sign and rounds to the magnitude. -/
theorem sineSettled_ends {u m : Nat} {neg : Bool} (h : sineSettled u = some (neg, m)) :
    (decide ((sineBall u).sin - (sineBall u).err < 0) = neg ∧
      sineRound (sinePrec u) ((sineBall u).sin - (sineBall u).err) = m) ∧
    decide ((sineBall u).sin + (sineBall u).err < 0) = neg ∧
      sineRound (sinePrec u) ((sineBall u).sin + (sineBall u).err) = m := by
  unfold sineSettled at h
  simp only [Option.ite_none_right_eq_some, Option.some.injEq, Prod.mk.injEq] at h
  obtain ⟨⟨hsign, hround, -⟩, hneg, hmag⟩ := h
  exact ⟨⟨hneg, hmag⟩, hsign.symm.trans hneg, hround.symm.trans hmag⟩

/-- Where the bracket settles, its magnitude with its sign is nearest to the sine. -/
theorem sineSettled_nearest {u m : Nat} {neg : Bool} (h : sineSettled u = some (neg, m)) :
    IsNearest (f32Pack neg m) (Real.sin ((u : ℝ) / 2 ^ 149)) := by
  have hfin : m < infMag := Nat.lt_of_le_of_lt (sineSettled_mag h) (by decide)
  obtain ⟨hsin, -⟩ := sineBall_brackets u
  obtain ⟨hlo, hhi⟩ := abs_le.1 hsin
  obtain ⟨⟨sign_lo, round_lo⟩, sign_hi, round_hi⟩ := sineSettled_ends h
  have nearest_lo := pack_sineRound_nearest (round_lo.symm ▸ hfin)
  have nearest_hi := pack_sineRound_nearest (round_hi.symm ▸ hfin)
  rw [sign_lo, round_lo] at nearest_lo
  rw [sign_hi, round_hi] at nearest_hi
  refine isNearest_of_between nearest_lo nearest_hi ?_ ?_
  · rw [div_le_iff₀ (by positivity)]
    push_cast
    linarith
  · rw [le_div_iff₀ (by positivity)]
    push_cast
    linarith

theorem sin32_zero {x : F32} (h : f32Mag x = 0) : sin32 x = x := by
  unfold sin32
  rw [if_pos (f32IsFinite_of_zero h), if_pos h]

theorem sin32_settled {x : F32} {neg : Bool} {m : Nat} (hx : f32IsFinite x = true) (h0 : f32Mag x ≠ 0)
    (h : sineSettled (magUnits (f32Mag x)) = some (neg, m)) : sin32 x = f32Pack (f32Sign x != neg) m := by
  unfold sin32
  rw [if_pos hx, if_neg h0, h]

/-- The sine is nearest wherever the bracket settles; below zero it is the negated sine of the magnitude. -/
theorem sin32_nearest {x : F32} (hx : f32IsFinite x = true) (h : sineSettled (magUnits (f32Mag x)) ≠ none) :
    f32IsFinite (sin32 x) = true ∧ IsNearest (sin32 x) (Real.sin ((f32ToRat x : ℚ) : ℝ)) := by
  by_cases h0 : f32Mag x = 0
  · rw [sin32_zero h0]
    refine ⟨hx, fun c _ => ?_⟩
    rw [(f32ToRat_eq_zero_iff x).2 h0]
    simp
  · obtain ⟨⟨neg, m⟩, hs⟩ := Option.ne_none_iff_exists'.1 h
    have hm : m < infMag := Nat.lt_of_le_of_lt (sineSettled_mag hs) (by decide)
    have hm' : m < 2 ^ 31 := hm.trans infMag_lt
    have hnear := sineSettled_nearest hs
    have hval : ((magToRat (f32Mag x) : ℚ) : ℝ) = (magUnits (f32Mag x) : ℝ) / 2 ^ 149 := by
      unfold magToRat
      push_cast
      rfl
    rw [sin32_settled hx h0 hs, f32ToRat_eq x, f32IsFinite_pack_iff _ hm']
    refine ⟨hm, ?_⟩
    rw [← hval] at hnear
    cases f32Sign x with
    | false =>
      rw [Bool.false_bne]
      exact hnear
    | true =>
      rw [withSign_true, Rat.cast_neg, Real.sin_neg]
      refine isNearest_neg hnear ?_
      rw [f32ToRat_pack _ hm', f32ToRat_pack _ hm']
      cases neg <;> simp

/-- Settles O38, from the bracket that holds the sine and both of whose ends round to the value. -/
theorem sineIsTheNearestValue : Obligations.SineIsTheNearestValue := by
  unfold Obligations.SineIsTheNearestValue
  exact ⟨fun _ => sin32_zero, fun _ => sin32_nearest⟩

end Sys2Proof.Machine
end

section
/-! Invariants of the voices, derived from one statement of what keeps a property of a voice over every step, and the two
of them that need no arithmetic: a voice is idle or in one ADSR phase (10_state.md R43), and an active voice's copies are
the global parameters (R44 (c)). -/

namespace Sys2Proof.Machine

/-! ### What keeps a property of every voice -/

/-- Each voice operation gives a voice with the property `P`: with the global registers `g` before a step, and `g'` after
it, from which `update_adsr` copies. -/
structure VoiceOpsKeep (P : Voice → Prop) (g g' : Globals) : Prop where
  trigger : ∀ note vel, inUnitRange vel = true → P (triggerVoice g note vel)
  release : ∀ v, P v → P (releaseVoice g v)
  update : ∀ v, P v → P (updateAdsr g' v)
  render : ∀ v, P v → P (renderSample g v).voice
  forceIdle : ∀ v, P v → P (forceIdle v)

/-- A property that every voice operation keeps, every step keeps. -/
theorem step_keeps_voices {P : Voice → Prop} {s t : State} (h : step s = .next t) (hk : VoiceOpsKeep P s.g t.g)
    (hs : ∀ i : Fin 16, P s.voices[i]) (i : Fin 16) : P t.voices[i] := by
  rcases step_voice h i with e | ⟨note, vel, hv, e⟩ | e | e | e | e <;> rw [e]
  · exact hs i
  · exact hk.trigger note vel hv
  · exact hk.release _ (hs i)
  · exact hk.update _ (hs i)
  · exact hk.render _ (hs i)
  · exact hk.forceIdle _ (hs i)

/-- `update_adsr` writes the copies and the increment, and nothing else. -/
theorem updateAdsr_frame (g : Globals) (v : Voice) :
    (updateAdsr g v).active = v.active ∧ (updateAdsr g v).note = v.note ∧ (updateAdsr g v).velocity = v.velocity ∧
      (updateAdsr g v).freq = v.freq ∧ (updateAdsr g v).phase = v.phase ∧ (updateAdsr g v).phaseInc = v.phaseInc ∧
      (updateAdsr g v).envState = v.envState ∧ (updateAdsr g v).envLevel = v.envLevel ∧
      (updateAdsr g v).waveform = v.waveform ∧ (updateAdsr g v).age = v.age := by
  rcases updateAdsr_cases g v with ⟨-, h⟩ | ⟨-, h⟩ <;> rw [h] <;> simp [copyAdsr]

/-! ### Idle or in one ADSR phase -/

theorem forceIdle_idleOk (v : Voice) : VoiceIdleOk (forceIdle v) := by
  simp [VoiceIdleOk]

/-- An active voice meets the invariant in every state but Idle. -/
theorem idleOk_of_active {v : Voice} (ha : v.active = true) (he : v.envState ≠ .idle) : VoiceIdleOk v := by
  simp [VoiceIdleOk, ha, he]

theorem VoiceIdleOk.envState_ne_idle {v : Voice} (h : VoiceIdleOk v) (ha : v.active = true) : v.envState ≠ .idle := by
  intro he
  rw [h.1.2 he] at ha
  exact Bool.false_ne_true ha

theorem releaseVoice_idleOk (g : Globals) {v : Voice} (h : VoiceIdleOk v) : VoiceIdleOk (releaseVoice g v) := by
  rcases releaseVoice_cases g v with ⟨ha, -, e⟩ | ⟨-, e⟩ <;> rw [e]
  · exact idleOk_of_active ha (by simp)
  · exact h

theorem updateAdsr_idleOk (g : Globals) {v : Voice} (h : VoiceIdleOk v) : VoiceIdleOk (updateAdsr g v) := by
  rcases updateAdsr_cases g v with ⟨ha, e⟩ | ⟨-, e⟩ <;> rw [e]
  · exact idleOk_of_active ha (h.envState_ne_idle ha)
  · exact h

/-- The envelope step of an active voice keeps it active in a state but Idle, or forces it idle. -/
theorem envStep_idleOk (sr : F32) {v : Voice} (ha : v.active = true) : VoiceIdleOk (envStep sr v) := by
  rcases envStep_cases v sr with ⟨-, e⟩ | ⟨-, -, e⟩ | ⟨hs, -, e⟩ | ⟨-, -, e⟩ | ⟨hs, -, e⟩ | ⟨hs, e⟩ | ⟨-, -, e⟩ |
    ⟨hs, -, e⟩ <;> rw [e]
  · exact forceIdle_idleOk v
  · exact idleOk_of_active ha (by simp)
  · exact idleOk_of_active ha (by simp [hs])
  · exact idleOk_of_active ha (by simp)
  · exact idleOk_of_active ha (by simp [hs])
  · exact idleOk_of_active ha (by simp [hs])
  · exact forceIdle_idleOk v
  · exact idleOk_of_active ha (by simp [hs])

theorem renderSample_idleOk (g : Globals) {v : Voice} (h : VoiceIdleOk v) : VoiceIdleOk (renderSample g v).voice := by
  rcases renderSample_cases g v with ⟨-, e⟩ | ⟨-, -, e⟩ | ⟨ha, -, e⟩ <;> rw [e]
  · exact h
  · exact forceIdle_idleOk _
  · exact envStep_idleOk g.sr ha

theorem idleOk_voiceOpsKeep (g g' : Globals) : VoiceOpsKeep VoiceIdleOk g g' where
  trigger note vel _ := idleOk_of_active (by simp) (by simp)
  release _ := releaseVoice_idleOk g
  update _ := updateAdsr_idleOk g'
  render _ := renderSample_idleOk g
  forceIdle v _ := forceIdle_idleOk v

/-- Settles O52, since every voice operation leaves a voice fully idle or active in a state but Idle. -/
theorem stepKeepsVoicesIdleOrActive : Obligations.StepKeepsVoicesIdleOrActive := by
  unfold Obligations.StepKeepsVoicesIdleOrActive
  exact fun s t hs h => step_keeps_voices h (idleOk_voiceOpsKeep s.g t.g) hs

/-! ### The copies of an active voice -/

/-- The four ADSR parameters of `g'` are those of `g`. -/
def AdsrKept (g g' : Globals) : Prop :=
  g'.attack = g.attack ∧ g'.decay = g.decay ∧ g'.sustain = g.sustain ∧ g'.release = g.release

theorem AdsrKept.refl (g : Globals) : AdsrKept g g := ⟨rfl, rfl, rfl, rfl⟩

/-- `allocate()` moves at most the cursor. -/
theorem allocateVoice_globals (s : State) :
    (allocateVoice s).2 = s.g ∨
      (allocateVoice s).2 = { s.g with cursor := s.g.cursor + 1 } ∧ ∀ j : Fin 16, s.voices[j].active = true := by
  rcases free_or_full s with ⟨i, hf, hl⟩ | hall
  · rw [allocateVoice_free s i hf hl]
    exact .inl rfl
  · rw [allocateVoice_steal s hall]
    exact .inr ⟨rfl, hall⟩

/-- A step keeps the ADSR parameters, or it propagates the new ones to every active voice (43_pool_commands.md R210). -/
theorem step_adsr {s t : State} (h : step s = .next t) :
    AdsrKept s.g t.g ∨
      ∀ i : Fin 16, t.voices[i] = if s.voices[i].active then updateAdsr t.g s.voices[i] else s.voices[i] := by
  rcases step_cases h with ⟨-, -, rfl⟩ | ⟨-, rfl⟩ | ⟨w, rest, ins, -, -, -, -, he⟩ | ⟨w, rest, c, -, -, -, -, rfl⟩
  · exact .inl (by rw [renderProgress_g]; exact .refl _)
  · exact .inl (.refl _)
  · rcases exec_cases he with ⟨-, rfl⟩ | ⟨-, rfl⟩ | ⟨note, vel, -, -, rfl⟩ | ⟨note, -, rfl⟩ | ⟨g', -, rfl⟩ |
      ⟨v, -, -, rfl⟩ | ⟨v, -, -, rfl⟩ | ⟨k, -, rfl⟩ | ⟨-, rfl⟩
    · exact .inl (.refl _)
    · exact .inl (.refl _)
    · left
      rcases allocateVoice_globals { s with fifo := rest } with hg | ⟨hg, -⟩ <;>
        simp [noteOnEffect, hg, AdsrKept]
    · exact .inl (.refl _)
    · exact .inr fun i => by simp [propagateAdsr]
    · exact .inl (.refl _)
    · exact .inl (.refl _)
    · exact .inl (by rw [renderProgress_g]; exact .refl _)
    · exact .inl (.refl _)
  · exact .inl (.refl _)

/-- The copies of a voice, if it is active, are the ADSR parameters of `g`. -/
def VoiceCopyOk (g : Globals) (v : Voice) : Prop :=
  v.active = true → v.attack = g.attack ∧ v.decay = g.decay ∧ v.sustain = g.sustain ∧ v.release = g.release

theorem copyInv_iff (s : State) : CopyInv s ↔ ∀ i : Fin 16, VoiceCopyOk s.g s.voices[i] := Iff.rfl

theorem voiceCopyOk_congr {g g' : Globals} (hg : AdsrKept g g') (v : Voice) : VoiceCopyOk g' v ↔ VoiceCopyOk g v := by
  obtain ⟨ha, hd, hs, hr⟩ := hg
  rw [VoiceCopyOk, ha, hd, hs, hr, VoiceCopyOk]

theorem updateAdsr_copyOk (g : Globals) (v : Voice) : VoiceCopyOk g (updateAdsr g v) := by
  rcases updateAdsr_cases g v with ⟨-, e⟩ | ⟨-, e⟩ <;> rw [e] <;> simp [VoiceCopyOk, copyAdsr]

theorem releaseVoice_copyOk {g : Globals} {v : Voice} (h : VoiceCopyOk g v) : VoiceCopyOk g (releaseVoice g v) := by
  rcases releaseVoice_cases g v with ⟨-, -, e⟩ | ⟨-, e⟩ <;> rw [e]
  · exact h
  · exact h

/-- Only an active voice is rendered, and a rendering writes no copy. -/
theorem renderSample_copyOk {g : Globals} {v : Voice} (h : VoiceCopyOk g v) :
    VoiceCopyOk g (renderSample g v).voice := by
  rcases renderSample_cases g v with ⟨-, e⟩ | ⟨-, -, e⟩ | ⟨ha, -, e⟩ <;> rw [e]
  · exact h
  · simp [VoiceCopyOk]
  · obtain ⟨-, -, -, -, -, hat, hde, hsu, hre, -⟩ :=
      envStep_frame { v with age := v.age + 1, phase := advancePhase v.phase v.phaseInc } g.sr
    intro _
    rw [hat, hde, hsu, hre]
    exact h ha

theorem copyOk_voiceOpsKeep {g g' : Globals} (hg : AdsrKept g g') : VoiceOpsKeep (VoiceCopyOk g) g g' where
  trigger note vel _ := by simp [VoiceCopyOk]
  release _ := releaseVoice_copyOk
  update v _ := (voiceCopyOk_congr hg _).1 (updateAdsr_copyOk g' v)
  render _ := renderSample_copyOk
  forceIdle v _ := by simp [VoiceCopyOk]

/-- Settles O53: a step that keeps the parameters keeps the copies, and any other rewrites those of every active voice. -/
theorem stepKeepsActiveCopiesEqual : Obligations.StepKeepsActiveCopiesEqual := by
  unfold Obligations.StepKeepsActiveCopiesEqual
  intro s t hs h
  rw [copyInv_iff] at hs ⊢
  rcases step_adsr h with hg | hv
  · exact fun i => (voiceCopyOk_congr hg _).2 (step_keeps_voices h (copyOk_voiceOpsKeep hg) hs i)
  · intro i
    rw [hv i]
    split
    · exact updateAdsr_copyOk t.g _
    · exact fun ha => absurd ha ‹_›

end Sys2Proof.Machine
end

section
/-! Which command changes which global register (10_state.md R45 to R52), and that a voice's note, velocity, frequency,
phase increment and waveform are a trigger's (R32 to R34, R36, R41). -/

namespace Sys2Proof.Machine

/-! ### The global parameters -/

/-- `g'` has the parameters, the sample rate and the age limit of `g`; the cursor and the error registers may differ. -/
def ParamsKept (g g' : Globals) : Prop :=
  g' = { g with cursor := g'.cursor, err := g'.err, errCause := g'.errCause }

theorem ParamsKept.refl (g : Globals) : ParamsKept g g := rfl

theorem latchError_paramsKept (c : Cause) (g : Globals) : ParamsKept g (latchError c g) := rfl

theorem noteOnEffect_paramsKept (note : BitVec 8) (vel : F32) (s : State) :
    ParamsKept s.g (noteOnEffect note vel s).g := by
  rcases allocateVoice_globals s with hg | ⟨hg, -⟩ <;> simp [noteOnEffect, hg, ParamsKept]

/-- What the command `i` makes of the global parameters: it keeps them, or it writes the one that it names. -/
def ParamWrite (i : Instr) (g g' : Globals) : Prop :=
  ParamsKept g g' ∨
  (∃ v, i = .setAttack v ∧ g' = { g with attack := v }) ∨
  (∃ v, i = .setDecay v ∧ g' = { g with decay := v }) ∨
  (∃ v, i = .setSustain v ∧ g' = { g with sustain := v }) ∨
  (∃ v, i = .setRelease v ∧ g' = { g with release := v }) ∨
  (∃ v, i = .setVolume v ∧ g' = { g with volume := v }) ∨
  (∃ v, i = .setWaveform v ∧ g' = { g with waveform := waveSelect v })

/-- A command with an operand check writes what its effect writes, or no parameter. -/
theorem checkedOperand_paramWrite {i : Instr} {ok : Bool} {f : State → State} {s : State}
    (h : ParamWrite i s.g (f s).g) : ParamWrite i s.g (checkedOperand ok f s).g := by
  rcases checkedOperand_cases ok f s with ⟨-, e⟩ | ⟨-, e⟩ <;> rw [e]
  · exact h
  · exact .inl (latchError_paramsKept _ _)

theorem exec_paramWrite {i : Instr} {s t : State} (h : exec i s = .next t) : ParamWrite i s.g t.g := by
  cases i with
  | nop => cases h; exact .inl rfl
  | noteOn note vel => cases h; exact checkedOperand_paramWrite (.inl (noteOnEffect_paramsKept note vel s))
  | noteOff note => cases h; exact .inl (.refl _)
  | setAttack v => cases h; exact checkedOperand_paramWrite (.inr (.inl ⟨v, rfl, rfl⟩))
  | setDecay v => cases h; exact checkedOperand_paramWrite (.inr (.inr (.inl ⟨v, rfl, rfl⟩)))
  | setSustain v => cases h; exact checkedOperand_paramWrite (.inr (.inr (.inr (.inl ⟨v, rfl, rfl⟩))))
  | setRelease v => cases h; exact checkedOperand_paramWrite (.inr (.inr (.inr (.inr (.inl ⟨v, rfl, rfl⟩)))))
  | setVolume v => cases h; exact checkedOperand_paramWrite (.inr (.inr (.inr (.inr (.inr (.inl ⟨v, rfl, rfl⟩))))))
  | setWaveform v => cases h; exact checkedOperand_paramWrite (.inr (.inr (.inr (.inr (.inr (.inr ⟨v, rfl, rfl⟩))))))
  | render k => cases h; left; rw [renderProgress_g]; exact .refl _
  | reset => cases h; exact .inl (.refl _)

/-- A step keeps the parameters, or it takes the command that writes one. -/
theorem step_paramWrite {s t : State} (h : step s = .next t) :
    ParamsKept s.g t.g ∨ ∃ i, NextCommand s i ∧ ParamWrite i s.g t.g := by
  rcases step_cases h with ⟨-, -, rfl⟩ | ⟨-, rfl⟩ | ⟨w, rest, i, hp, hr, hf, hd, he⟩ | ⟨w, rest, c, -, -, -, -, rfl⟩
  · left; rw [renderProgress_g]; exact .refl _
  · exact .inl (.refl _)
  · exact .inr ⟨i, ⟨hp, hr, w, rest, hf, hd⟩, exec_paramWrite (s := { s with fifo := rest }) he⟩
  · exact .inl (latchError_paramsKept _ _)

/-- Settles O20, since a command writes at most the one parameter that it names. -/
theorem globalsChangeOnlyByTheirCommand : Obligations.GlobalsChangeOnlyByTheirCommand := by
  unfold Obligations.GlobalsChangeOnlyByTheirCommand
  intro s t h
  rcases step_paramWrite h with hk | ⟨i, hi, hk | ⟨v, rfl, hg⟩ | ⟨v, rfl, hg⟩ | ⟨v, rfl, hg⟩ | ⟨v, rfl, hg⟩ |
    ⟨v, rfl, hg⟩ | ⟨v, rfl, hg⟩⟩
  · rw [hk]; simp
  · rw [hk]; simp
  · rw [hg]; simp [hi]
  · rw [hg]; simp [hi]
  · rw [hg]; simp [hi]
  · rw [hg]; simp [hi]
  · rw [hg]; simp [hi]
  · rw [hg]; simpa using fun _ => ⟨v, hi⟩

/-! ### The cursor -/

/-- An ADSR parameter command writes an ADSR parameter, and no other global register. -/
theorem AdsrWrite.only_adsr {g g' : Globals} (h : AdsrWrite g g') :
    g' = { g with attack := g'.attack, decay := g'.decay, sustain := g'.sustain, release := g'.release } := by
  rcases h with ⟨v, -, rfl⟩ | ⟨v, -, rfl⟩ | ⟨v, -, rfl⟩ | ⟨v, -, rfl⟩ <;> rfl

/-- Settles O21: of all commands only a `NOTE_ON` that finds every voice active moves the cursor. -/
theorem cursorMovesOnlyOnASteal : Obligations.CursorMovesOnlyOnASteal := by
  unfold Obligations.CursorMovesOnlyOnASteal
  intro s t h hne
  rcases step_cases h with ⟨-, -, rfl⟩ | ⟨-, rfl⟩ | ⟨w, rest, i, hp, hr, hf, hd, he⟩ | ⟨w, rest, c, -, -, -, -, rfl⟩
  · simp at hne
  · simp at hne
  · rcases exec_cases he with ⟨-, rfl⟩ | ⟨-, rfl⟩ | ⟨note, vel, rfl, hv, rfl⟩ | ⟨note, -, rfl⟩ | ⟨g', hw, rfl⟩ |
      ⟨v, -, -, rfl⟩ | ⟨v, -, -, rfl⟩ | ⟨k, -, rfl⟩ | ⟨-, rfl⟩
    · simp at hne
    · simp at hne
    · rcases allocateVoice_globals { s with fifo := rest } with hg | ⟨hg, hall⟩
      · simp [noteOnEffect, hg] at hne
      · exact ⟨by simp [noteOnEffect, hg], hall, note, vel, ⟨hp, hr, w, rest, hf, hd⟩, hv⟩
    · simp at hne
    · exact absurd (by rw [propagateAdsr, State.mapVoices_g, hw.only_adsr]) hne
    · simp at hne
    · simp at hne
    · simp at hne
    · simp at hne
  · simp at hne

/-! ### The error registers -/

/-- The error registers of `g`: no cause without the flag, and only the causes 1 to 4 with it. -/
def ErrOk (g : Globals) : Prop :=
  (g.err = false → g.errCause = 0) ∧ (g.err = true → 1 ≤ g.errCause.toNat ∧ g.errCause.toNat ≤ 4)

theorem errInv_iff (s : State) : ErrInv s ↔ ErrOk s.g := Iff.rfl

theorem causeCode_range (c : Cause) : 1 ≤ (causeCode c).toNat ∧ (causeCode c).toNat ≤ 4 := by
  cases c <;> decide

/-- A rejection latches a legal cause, or keeps the one latched before. -/
theorem latchError_errOk (c : Cause) {g : Globals} (h : ErrOk g) : ErrOk (latchError c g) := by
  refine ⟨by simp, fun _ => ?_⟩
  rw [latchError_errCause]
  split
  · exact h.2 ‹_›
  · exact causeCode_range c

/-- Settles O10: a step latches a cause by a rejection, and writes the error registers in no other way. -/
theorem errorCauseStaysLegal : Obligations.ErrorCauseStaysLegal := by
  unfold Obligations.ErrorCauseStaysLegal
  intro s t hs h
  have kept (h₁ : t.g.err = s.g.err) (h₂ : t.g.errCause = s.g.errCause) : ErrInv t := by
    rwa [ErrInv, h₁, h₂]
  rcases step_globals h with e | ⟨c, e⟩ | e | hw | ⟨v, -, e⟩ | ⟨v, e⟩
  · exact kept (by rw [e]) (by rw [e])
  · rw [errInv_iff, e]
    exact latchError_errOk c hs
  · exact kept (by rw [e]) (by rw [e])
  · exact kept (by rw [hw.only_adsr]) (by rw [hw.only_adsr])
  · exact kept (by rw [e]) (by rw [e])
  · exact kept (by rw [e]) (by rw [e])

/-! ### The fields that only a trigger writes -/

/-- Note, velocity, frequency, phase increment and waveform of the two voices are equal. -/
def SameIdentity (v w : Voice) : Prop :=
  w.note = v.note ∧ w.velocity = v.velocity ∧ w.freq = v.freq ∧ w.phaseInc = v.phaseInc ∧ w.waveform = v.waveform

theorem SameIdentity.refl (v : Voice) : SameIdentity v v := ⟨rfl, rfl, rfl, rfl, rfl⟩

theorem forceIdle_identity (v : Voice) : SameIdentity v (forceIdle v) := by
  simp [SameIdentity]

theorem releaseVoice_identity (g : Globals) (v : Voice) : SameIdentity v (releaseVoice g v) := by
  rcases releaseVoice_cases g v with ⟨-, -, e⟩ | ⟨-, e⟩ <;> rw [e] <;> exact .refl _

theorem updateAdsr_identity (g : Globals) (v : Voice) : SameIdentity v (updateAdsr g v) := by
  obtain ⟨-, hnote, hvel, hfreq, -, hinc, -, -, hwave, -⟩ := updateAdsr_frame g v
  exact ⟨hnote, hvel, hfreq, hinc, hwave⟩

theorem renderSample_identity (g : Globals) (v : Voice) : SameIdentity v (renderSample g v).voice := by
  rcases renderSample_cases g v with ⟨-, e⟩ | ⟨-, -, e⟩ | ⟨-, -, e⟩ <;> rw [e]
  · exact .refl v
  · simp [SameIdentity]
  · obtain ⟨hnote, hvel, hfreq, -, hinc, -, -, -, -, hwave, -⟩ :=
      envStep_frame { v with age := v.age + 1, phase := advancePhase v.phase v.phaseInc } g.sr
    exact ⟨hnote, hvel, hfreq, hinc, hwave⟩

theorem renderProgress_identity (s : State) (i : Fin 16) : SameIdentity s.voices[i] (renderProgress s).voices[i] := by
  rcases renderProgress_get s i with e | e <;> rw [e]
  · exact .refl _
  · exact renderSample_identity s.g _

/-- A command keeps the identity of a voice, or it is the admitted `NOTE_ON` that triggers the voice. -/
theorem exec_identity {ins : Instr} {s t : State} (h : exec ins s = .next t) (i : Fin 16) :
    SameIdentity s.voices[i] t.voices[i] ∨
      ∃ note vel, ins = .noteOn note vel ∧ inUnitRange vel = true ∧
        t.voices[i] = triggerVoice s.g (note.truncate 7) vel := by
  rcases exec_cases h with ⟨-, rfl⟩ | ⟨-, rfl⟩ | ⟨note, vel, rfl, hv, rfl⟩ | ⟨note, -, rfl⟩ | ⟨g', -, rfl⟩ |
    ⟨v, -, -, rfl⟩ | ⟨v, -, -, rfl⟩ | ⟨k, -, rfl⟩ | ⟨-, rfl⟩
  · exact .inl (.refl _)
  · exact .inl (.refl _)
  · unfold noteOnEffect
    rw [setVoice_get]
    split
    · exact .inr ⟨note, vel, rfl, hv, rfl⟩
    · exact .inl (.refl _)
  · rw [State.mapVoices_voices, mapBank_get]
    split
    · exact .inl (releaseVoice_identity _ _)
    · exact .inl (.refl _)
  · rw [propagateAdsr, State.mapVoices_voices, mapBank_get]
    split
    · exact .inl (updateAdsr_identity _ _)
    · exact .inl (.refl _)
  · exact .inl (.refl _)
  · exact .inl (.refl _)
  · exact .inl (renderProgress_identity _ i)
  · rw [State.mapVoices_voices, mapBank_get]
    exact .inl (forceIdle_identity _)

/-- Settles O32, since `trigger` is the one voice operation that writes these fields. -/
theorem identityFieldsChangeOnlyAtTrigger : Obligations.IdentityFieldsChangeOnlyAtTrigger := by
  unfold Obligations.IdentityFieldsChangeOnlyAtTrigger
  intro s t h i
  rcases step_cases h with ⟨-, -, rfl⟩ | ⟨-, rfl⟩ | ⟨w, rest, ins, hp, hr, hf, hd, he⟩ | ⟨w, rest, c, -, -, -, -, rfl⟩
  · exact .inl (renderProgress_identity s i)
  · exact .inl (SameIdentity.refl _)
  · rcases exec_identity he i with hk | ⟨note, vel, rfl, hv, ht⟩
    · exact .inl hk
    · exact .inr ⟨note, vel, ⟨hp, hr, w, rest, hf, hd⟩, hv, ht⟩
  · exact .inl (SameIdentity.refl _)

end Sys2Proof.Machine
end

section
/-! The watchdog's bound on the ages (10_state.md R42) and the range of the levels (R44 (a)): the rounded results are held
between representable values that their exact values lie between. -/

namespace Sys2Proof.Machine

/-! ### Rounded results between representable values -/

theorem roundMag_le_of_le {n d m : Nat} (hd : 0 < d) (hm : m ≤ infMag) (h : n ≤ magUnits m * d) : roundMag n d ≤ m := by
  rw [← roundMag_exact hd hm]
  exact roundMag_mono hd hd (Nat.mul_le_mul_right d h)

theorem le_roundMag_of_le {n d m : Nat} (hd : 0 < d) (hm : m ≤ infMag) (h : magUnits m * d ≤ n) : m ≤ roundMag n d := by
  rw [← roundMag_exact hd hm]
  exact roundMag_mono hd hd (Nat.mul_le_mul_right d h)

@[simp] theorem roundMag_zero {d : Nat} (hd : 0 < d) : roundMag 0 d = 0 :=
  Nat.le_zero.1 (roundMag_le_of_le hd (Nat.zero_le _) (Nat.zero_le _))

/-- A sum of finite values is at least every value that the exact sum is. -/
theorem f32Add_ge {a b lo : F32} (ha : f32IsFinite a = true) (hb : f32IsFinite b = true) (hlo : f32IsNaN lo = false)
    (h : f32Units lo ≤ f32Units a + f32Units b) : f32Units lo ≤ f32Units (f32Add a b) := by
  rw [(f32Add_finite ha hb).2, ← roundUnits_f32Units hlo]
  exact roundUnits_mono h

theorem f32Add_le {a b hi : F32} (ha : f32IsFinite a = true) (hb : f32IsFinite b = true) (hhi : f32IsNaN hi = false)
    (h : f32Units a + f32Units b ≤ f32Units hi) : f32Units (f32Add a b) ≤ f32Units hi := by
  rw [(f32Add_finite ha hb).2, ← roundUnits_f32Units hhi]
  exact roundUnits_mono h

/-! ### Signs and units -/

@[simp] theorem f32Units_c0 : f32Units c0 = 0 := by decide

@[simp] theorem f32Units_c1 : f32Units c1 = 2 ^ 149 := by decide

theorem f32Units_of_sign_false {x : F32} (h : f32Sign x = false) : f32Units x = magUnits (f32Mag x) := by
  simp [f32Units_eq, h]

theorem f32Sign_of_units_pos {x : F32} (h : 0 < f32Units x) : f32Sign x = false := by
  rw [f32Units_eq] at h
  cases hs : f32Sign x
  · rfl
  · simp [hs] at h
    omega

/-- A value from zero on has no sign, or it is a zero. -/
theorem f32Mag_zero_of_sign {x : F32} (h : 0 ≤ f32Units x) (hs : f32Sign x = true) : f32Mag x = 0 := by
  rw [← f32Units_eq_zero_iff]
  rw [f32Units_eq, hs] at h ⊢
  simp at h ⊢
  omega

theorem f32Le_iff (a b : F32) :
    f32Le a b = true ↔ f32IsNaN a = false ∧ f32IsNaN b = false ∧ f32Units a ≤ f32Units b := by
  simp [f32Le, f32Ordered, and_assoc]

theorem f32ToRat_nonneg_iff (x : F32) : 0 ≤ f32ToRat x ↔ 0 ≤ f32Units x := by
  rw [f32ToRat, le_div_iff₀ (by positivity), zero_mul]
  exact_mod_cast Iff.rfl

theorem f32ToRat_le_natCast (x : F32) (k : Nat) : f32ToRat x ≤ k ↔ f32Units x ≤ k * 2 ^ 149 := by
  rw [f32ToRat, div_le_iff₀ (by positivity)]
  exact_mod_cast Iff.rfl

/-! ### Admitted values -/

theorem isDuration_iff (v : F32) : isDuration v = true ↔ DurationValue v := by
  rw [isDuration, f32Ge, f32Le_iff, f32Units_c0, DurationValue]
  simp [show f32IsNaN c0 = false from rfl]

theorem unitValue_iff (v : F32) : UnitValue v ↔ f32IsNaN v = false ∧ 0 ≤ f32Units v ∧ f32Units v ≤ 2 ^ 149 := by
  have hone : f32ToRat v ≤ 1 ↔ f32Units v ≤ 2 ^ 149 := by simpa using f32ToRat_le_natCast v 1
  rw [UnitValue, hone, f32ToRat_nonneg_iff, f32IsFinite_iff_units]
  constructor
  · rintro ⟨⟨hn, -⟩, h0, h1⟩
    exact ⟨hn, h0, h1⟩
  · rintro ⟨hn, h0, h1⟩
    have : (2 : Int) ^ 149 < magUnits infMag := by decide
    exact ⟨⟨hn, by rw [abs_of_nonneg h0]; omega⟩, h0, h1⟩

theorem inUnitRange_iff (v : F32) : inUnitRange v = true ↔ UnitValue v := by
  rw [inUnitRange, Bool.and_eq_true, f32Le_iff, f32Le_iff, unitValue_iff, f32Units_c0, f32Units_c1,
    show f32IsNaN c0 = false from rfl, show f32IsNaN c1 = false from rfl]
  tauto

theorem UnitValue.duration {v : F32} (h : UnitValue v) : DurationValue v :=
  ⟨f32NotNaN_of_finite h.1, ((unitValue_iff v).1 h).2.1⟩

theorem unitValue_c0 : UnitValue c0 := (unitValue_iff c0).2 ⟨rfl, by simp⟩

theorem unitValue_c1 : UnitValue c1 := (unitValue_iff c1).2 ⟨rfl, by simp⟩

/-- An admitted sample rate: a finite magnitude from 1 to 1000000, with no sign. -/
theorem rate_range {sr : F32} (h : rateAdmitted sr = true) :
    f32IsFinite sr = true ∧ f32Sign sr = false ∧ f32Mag c1 ≤ f32Mag sr ∧ f32Mag sr ≤ f32Mag rateMax := by
  rw [rateAdmitted, Bool.and_eq_true, f32Le_iff, f32Le_iff] at h
  obtain ⟨⟨-, hn, hlo⟩, -, -, hhi⟩ := h
  have hmin : f32Units rateMin = magUnits (f32Mag c1) := by decide
  have hmax : f32Units rateMax = magUnits (f32Mag rateMax) := by decide
  have hpos : (0 : Int) < magUnits (f32Mag c1) := by decide
  have hs : f32Sign sr = false := f32Sign_of_units_pos (by omega)
  rw [f32Units_of_sign_false hs] at hlo hhi
  rw [hmin, Nat.cast_le, magUnits_le_iff] at hlo
  rw [hmax, Nat.cast_le, magUnits_le_iff] at hhi
  have : f32Mag rateMax < infMag := by decide
  exact ⟨by simp [f32IsFinite]; omega, hs, hlo, hhi⟩

/-! ### Ages -/

/-- The age limit of an admitted rate lies between 0 and 30000000 samples. -/
theorem ageLimitOf_range {sr : F32} (h : rateAdmitted sr = true) :
    f32IsNaN (ageLimitOf sr) = false ∧ 0 ≤ f32Units (ageLimitOf sr) ∧ f32Units (ageLimitOf sr) ≤ 30000000 * 2 ^ 149 := by
  obtain ⟨hf, hs, -, hmax⟩ := rate_range h
  have h30 : f32IsFinite ageSeconds = true := by decide
  have hsign : f32Sign (ageLimitOf sr) = false := by
    rw [ageLimitOf, f32Sign_mul_finite hf h30, f32SignXor, hs]
    decide
  have hmag : f32Mag (ageLimitOf sr) ≤ 0x4BE4E1C0 := by
    rw [ageLimitOf, f32Mag_mul_finite hf h30]
    refine roundMag_le_of_le (by positivity) (by decide) ?_
    calc magUnits (f32Mag sr) * magUnits (f32Mag ageSeconds)
        ≤ magUnits (f32Mag rateMax) * magUnits (f32Mag ageSeconds) := Nat.mul_le_mul_right _ (magUnits_le_iff.2 hmax)
      _ ≤ magUnits 0x4BE4E1C0 * 2 ^ 149 := by decide +kernel
  have hlimit : magUnits 0x4BE4E1C0 = 30000000 * 2 ^ 149 := by decide +kernel
  have hle := magUnits_le_iff.2 hmag
  rw [f32Units_of_sign_false hsign]
  exact ⟨f32IsNaN_mul_finite hf h30, by omega, by omega⟩

section Age

variable {g : Globals} (hr : rateAdmitted g.sr = true ∧ g.ageLimit = ageLimitOf g.sr)

include hr

/-- A count that the age limit holds is at most 30000000. -/
theorem le_of_natGtF32_ageLimit {k : Nat} (h : natGtF32 k g.ageLimit = false) : k ≤ 30000000 := by
  obtain ⟨hn, -, hmax⟩ := ageLimitOf_range hr.1
  rw [hr.2, ← Bool.not_eq_true, natGtF32_iff k hn] at h
  omega

theorem natGtF32_zero_ageLimit : natGtF32 0 g.ageLimit = false := by
  obtain ⟨hn, hmin, -⟩ := ageLimitOf_range hr.1
  rw [hr.2, ← Bool.not_eq_true, natGtF32_iff 0 hn]
  omega

/-- A voice with age 0 is in range. -/
theorem ageOk_of_zero {v : Voice} (h : v.age = 0) : VoiceAgeOk g v := by
  rw [VoiceAgeOk, h]
  exact ⟨fun _ => natGtF32_zero_ageLimit hr, by decide⟩

theorem releaseVoice_ageOk {v : Voice} (h : VoiceAgeOk g v) : VoiceAgeOk g (releaseVoice g v) := by
  rcases releaseVoice_cases g v with ⟨-, -, e⟩ | ⟨-, e⟩ <;> rw [e]
  · exact ageOk_of_zero hr rfl
  · exact h

/-- The watchdog lets an active voice's age pass the limit by one at most, and then ends the voice. -/
theorem renderSample_ageOk {v : Voice} (h : VoiceAgeOk g v) : VoiceAgeOk g (renderSample g v).voice := by
  have next (ha : v.active = true) : (v.age + 1).toNat ≤ 30000001 := by
    have := le_of_natGtF32_ageLimit hr (h.1 ha)
    rw [BitVec.toNat_add_of_lt (by simp; omega)]
    simp
    omega
  rcases renderSample_cases g v with ⟨-, e⟩ | ⟨ha, -, e⟩ | ⟨ha, hw, e⟩ <;> rw [e]
  · exact h
  · exact ⟨by simp, next ha⟩
  · obtain ⟨-, -, -, -, -, -, -, -, -, -, hage⟩ :=
      envStep_frame { v with age := v.age + 1, phase := advancePhase v.phase v.phaseInc } g.sr
    rw [VoiceAgeOk, hage]
    exact ⟨fun _ => hw, next ha⟩

theorem ageOk_voiceOpsKeep (g' : Globals) : VoiceOpsKeep (VoiceAgeOk g) g g' where
  trigger _ _ _ := ageOk_of_zero hr rfl
  release _ := releaseVoice_ageOk hr
  update v h := by
    obtain ⟨hact, -, -, -, -, -, -, -, -, hage⟩ := updateAdsr_frame g' v
    rwa [VoiceAgeOk, hact, hage]
  render _ := renderSample_ageOk hr
  forceIdle v h := ⟨by simp, h.2⟩

end Age

/-- No step changes the sample rate or the age limit. -/
theorem step_rate {s t : State} (h : step s = .next t) : t.g.sr = s.g.sr ∧ t.g.ageLimit = s.g.ageLimit := by
  obtain ⟨hsr, hlimit, -⟩ := globalsChangeOnlyByTheirCommand s t h
  exact ⟨hsr, hlimit⟩

theorem step_keeps_rateInv {s t : State} (h : step s = .next t) (hr : RateInv s) : RateInv t := by
  obtain ⟨hsr, hlimit⟩ := step_rate h
  rwa [RateInv, hsr, hlimit]

/-- Settles O54: an age at most the limit of 30000000 samples gains at most 1 before the watchdog ends the voice. -/
theorem stepKeepsAgesBounded : Obligations.StepKeepsAgesBounded := by
  unfold Obligations.StepKeepsAgesBounded
  rintro s t ⟨hr, hs⟩ h
  refine ⟨step_keeps_rateInv h hr, fun i => ?_⟩
  rw [VoiceAgeOk, (step_rate h).2]
  exact step_keeps_voices h (ageOk_voiceOpsKeep hr t.g) hs i

end Sys2Proof.Machine
end

section
/-! Every envelope level stays finite and in [0, 1] (10_state.md R44 (a)): an increment is no NaN and has its state's sign, so
a ramp moves the level one way only, and the envelope step clamps it at the other end, an infinite increment included. -/

namespace Sys2Proof.Machine

/-! ### The increment function gives no NaN, and its state's sign (42_envelope.md R171 to R175) -/

/-- A signed magnitude whose sign is only a zero's is from zero on. -/
theorem durationValue_pack {s : Bool} {m : Nat} (hm : m ≤ infMag) (h : s = true → m = 0) :
    DurationValue (f32Pack s m) := by
  refine ⟨f32IsNaN_pack_of_le hm, ?_⟩
  rw [f32Units_pack s (Nat.lt_of_le_of_lt hm infMag_lt)]
  cases s with
  | false => simp
  | true => simp [h rfl]

/-- The divisor of a ramp: a duration that is no zero, times the sample rate. -/
structure RampDivisor (p : F32) : Prop where
  notNaN : f32IsNaN p = false
  positive : f32Sign p = false
  nonzero : f32Mag p ≠ 0

theorem rampDivisor_mul_rate {d sr : F32} (hd : DurationValue d) (h0 : f32Eq d c0 = false)
    (hr : rateAdmitted sr = true) : RampDivisor (f32Mul d sr) := by
  obtain ⟨hn, hnonneg⟩ := hd
  obtain ⟨hfr, hsr, hmin, -⟩ := rate_range hr
  have hne : f32Units d ≠ 0 := by
    rw [f32Eq_of_notNaN hn rfl, f32Units_c0] at h0
    simpa using h0
  have hsd : f32Sign d = false := f32Sign_of_units_pos (by omega)
  have hmd : f32Mag d ≠ 0 := fun e => hne ((f32Units_eq_zero_iff d).2 e)
  have hxor : f32SignXor d sr = false := by rw [f32SignXor, hsd, hsr]; rfl
  cases hi : f32IsInf d with
  | true =>
    have hmr : f32Mag sr ≠ 0 := by
      rw [f32Mag_c1] at hmin
      omega
    rw [f32Mul_inf (.inl hi) hn (f32NotNaN_of_finite hfr) hmd hmr, hxor]
    exact ⟨rfl, rfl, by decide⟩
  | false =>
    have hfd := (f32IsFinite_iff d).2 ⟨hn, hi⟩
    have hle : f32Mag d ≤ f32Mag (f32Mul d sr) := by
      rw [f32Mag_mul_finite hfd hfr]
      refine le_roundMag_of_le (by positivity) (by simpa [f32IsNaN] using hn) (Nat.mul_le_mul_left _ ?_)
      rw [← magUnits_one]
      exact magUnits_le_iff.2 hmin
    exact ⟨f32IsNaN_mul_finite hfd hfr, by rw [f32Sign_mul_finite hfd hfr, hxor], by omega⟩

theorem durationValue_div {x p : F32} (hx : UnitValue x) (hp : RampDivisor p) : DurationValue (f32Div x p) := by
  have hfx := hx.1
  have hxor : f32SignXor x p = f32Sign x := by rw [f32SignXor, hp.positive, Bool.bne_false]
  have hzero : f32Sign x = true → f32Mag x = 0 := f32Mag_zero_of_sign hx.duration.2
  cases hi : f32IsInf p with
  | true =>
    rw [f32Div_inf_right hfx hi]
    exact durationValue_pack (Nat.zero_le _) fun _ => rfl
  | false =>
    rw [f32Div_finite hfx ((f32IsFinite_iff p).2 ⟨hp.notNaN, hi⟩) hp.nonzero, hxor]
    refine durationValue_pack (roundMag_le_inf _ _) fun hs => ?_
    have hpos : 0 < magUnits (f32Mag p) := by
      simpa using magUnits_lt_iff.2 (Nat.pos_of_ne_zero hp.nonzero)
    rw [hzero hs, magUnits_zero, Nat.zero_mul, roundMag_zero hpos]

/-- The negation of a value from zero on, which a falling ramp adds. -/
theorem neg_durationValue {x : F32} (h : DurationValue x) :
    f32IsNaN (f32Neg x) = false ∧ f32Units (f32Neg x) ≤ 0 := by
  rw [f32IsNaN_neg, f32Units_neg h.1]
  exact ⟨h.1, by linarith [h.2]⟩

theorem one_sub_unitValue {x : F32} (h : UnitValue x) : UnitValue (f32Sub c1 x) := by
  obtain ⟨hn, h0, h1⟩ := (unitValue_iff x).1 h
  have hf : f32IsFinite (f32Neg x) = true := by rw [f32IsFinite_neg]; exact h.1
  have hu := f32Units_neg hn
  rw [unitValue_iff, f32Sub, ← f32Units_c1, ← f32Units_c0]
  refine ⟨(f32Add_finite unitValue_c1.1 hf).1, f32Add_ge unitValue_c1.1 hf rfl ?_, f32Add_le unitValue_c1.1 hf rfl ?_⟩
  · rw [hu, f32Units_c0, f32Units_c1]
    omega
  · rw [hu]
    omega

section Increments

variable {sr : F32} (hr : rateAdmitted sr = true)

include hr

theorem attackInc_durationValue {a : F32} (ha : DurationValue a) : DurationValue (attackInc a sr) := by
  unfold attackInc
  split
  · exact unitValue_c1.duration
  · exact durationValue_div unitValue_c1 (rampDivisor_mul_rate ha (eq_false_of_ne_true ‹_›) hr)

theorem decayInc_falls {d x : F32} (hd : DurationValue d) (hx : UnitValue x) :
    f32IsNaN (decayInc d x sr) = false ∧ f32Units (decayInc d x sr) ≤ 0 := by
  unfold decayInc
  split
  · exact neg_durationValue (one_sub_unitValue hx).duration
  · exact neg_durationValue
      (durationValue_div (one_sub_unitValue hx) (rampDivisor_mul_rate hd (eq_false_of_ne_true ‹_›) hr))

theorem releaseInc_falls {r level : F32} (hr' : DurationValue r) (hl : UnitValue level) :
    f32IsNaN (releaseInc r level sr) = false ∧ f32Units (releaseInc r level sr) ≤ 0 := by
  unfold releaseInc
  split
  · exact neg_durationValue hl.duration
  · exact neg_durationValue (durationValue_div hl (rampDivisor_mul_rate hr' (eq_false_of_ne_true ‹_›) hr))

end Increments

/-! ### A ramp moves the level the way its increment points -/

theorem rampedLevel_rises {v : Voice} (hl : UnitValue v.envLevel) (hi : DurationValue v.envInc) :
    DurationValue (rampedLevel v) := by
  obtain ⟨-, h0, -⟩ := (unitValue_iff _).1 hl
  obtain ⟨hn, hpos⟩ := hi
  unfold rampedLevel
  cases hinf : f32IsInf v.envInc with
  | true =>
    rw [f32Add_inf_right hl.1 hinf]
    exact ⟨hn, hpos⟩
  | false =>
    have hfin := (f32IsFinite_iff _).2 ⟨hn, hinf⟩
    refine ⟨(f32Add_finite hl.1 hfin).1, ?_⟩
    rw [← f32Units_c0]
    exact f32Add_ge hl.1 hfin rfl (by rw [f32Units_c0]; omega)

theorem rampedLevel_falls {v : Voice} (hl : UnitValue v.envLevel)
    (hi : f32IsNaN v.envInc = false ∧ f32Units v.envInc ≤ 0) :
    f32IsNaN (rampedLevel v) = false ∧ f32Units (rampedLevel v) ≤ 2 ^ 149 := by
  obtain ⟨-, -, h1⟩ := (unitValue_iff _).1 hl
  obtain ⟨hn, hneg⟩ := hi
  unfold rampedLevel
  cases hinf : f32IsInf v.envInc with
  | true =>
    rw [f32Add_inf_right hl.1 hinf]
    exact ⟨hn, by omega⟩
  | false =>
    have hfin := (f32IsFinite_iff _).2 ⟨hn, hinf⟩
    refine ⟨(f32Add_finite hl.1 hfin).1, ?_⟩
    rw [← f32Units_c1]
    exact f32Add_le hl.1 hfin rfl (by rw [f32Units_c1]; omega)

/-- A rising level that has not reached 1.0 is in range. -/
theorem unitValue_of_not_ge {x : F32} (hx : DurationValue x) (h : f32Ge x c1 = false) : UnitValue x := by
  rw [f32Ge, f32Le_of_notNaN rfl hx.1, decide_eq_false_iff_not, f32Units_c1] at h
  exact (unitValue_iff x).2 ⟨hx.1, hx.2, by omega⟩

/-- A falling level that has not reached a floor from zero on is in range. -/
theorem unitValue_of_not_le {x floor : F32} (hx : f32IsNaN x = false ∧ f32Units x ≤ 2 ^ 149)
    (hfloor : DurationValue floor) (h : f32Le x floor = false) : UnitValue x := by
  rw [f32Le_of_notNaN hx.1 hfloor.1, decide_eq_false_iff_not] at h
  have := hfloor.2
  exact (unitValue_iff x).2 ⟨hx.1, by omega, hx.2⟩

/-! ### The voice operations keep the range -/

theorem forceIdle_levelOk {v : Voice} (h : VoiceLevelOk v) : VoiceLevelOk (forceIdle v) := by
  obtain ⟨-, ha, hd, hs, hr, -⟩ := h
  exact ⟨unitValue_c0, ha, hd, hs, hr, rfl, f32Units_c0⟩

section Levels

variable {g : Globals} (hr : rateAdmitted g.sr = true)

include hr

theorem releaseVoice_levelOk {v : Voice} (h : VoiceLevelOk v) : VoiceLevelOk (releaseVoice g v) := by
  obtain ⟨hl, ha, hd, hs, hre, -⟩ := id h
  rcases releaseVoice_cases g v with ⟨-, -, e⟩ | ⟨-, e⟩ <;> rw [e]
  · exact ⟨hl, ha, hd, hs, hre, releaseInc_falls hr hre hl⟩
  · exact h

theorem envStep_levelOk {v : Voice} (h : VoiceLevelOk v) : VoiceLevelOk (envStep g.sr v) := by
  obtain ⟨hl, ha, hd, hs, hre, hi⟩ := id h
  rcases envStep_cases v g.sr with ⟨-, e⟩ | ⟨-, -, e⟩ | ⟨he, hc, e⟩ | ⟨-, -, e⟩ | ⟨he, hc, e⟩ | ⟨-, e⟩ | ⟨-, -, e⟩ |
    ⟨he, hc, e⟩ <;> rw [e]
  · exact forceIdle_levelOk h
  · exact ⟨unitValue_c1, ha, hd, hs, hre, decayInc_falls hr hd hs⟩
  · refine ⟨unitValue_of_not_ge (rampedLevel_rises hl ?_) hc, ha, hd, hs, hre, hi⟩
    simpa [IncSignOk, he, DurationValue] using hi
  · exact ⟨hs, ha, hd, hs, hre, rfl, f32Units_c0⟩
  · refine ⟨unitValue_of_not_le (rampedLevel_falls hl ?_) hs.duration hc, ha, hd, hs, hre, hi⟩
    simpa [IncSignOk, he] using hi
  · exact ⟨hs, ha, hd, hs, hre, hi⟩
  · exact forceIdle_levelOk h
  · refine ⟨unitValue_of_not_le (rampedLevel_falls hl ?_) ⟨rfl, by decide⟩ hc, ha, hd, hs, hre, hi⟩
    simpa [IncSignOk, he] using hi

theorem renderSample_levelOk {v : Voice} (h : VoiceLevelOk v) : VoiceLevelOk (renderSample g v).voice := by
  rcases renderSample_cases g v with ⟨-, e⟩ | ⟨-, -, e⟩ | ⟨-, -, e⟩ <;> rw [e]
  · exact h
  · exact forceIdle_levelOk (v := { v with age := v.age + 1 }) h
  · exact envStep_levelOk (v := { v with age := v.age + 1, phase := advancePhase v.phase v.phaseInc }) hr h

/-- The increment that `inc_for` gives a voice with admitted copies has its state's sign. -/
theorem incFor_signOk {v : Voice} (hl : UnitValue v.envLevel) (ha : DurationValue v.attack) (hd : DurationValue v.decay)
    (hs : UnitValue v.sustain) (hre : DurationValue v.release) : IncSignOk { v with envInc := incFor g.sr v } := by
  unfold IncSignOk incFor
  cases he : v.envState with
  | idle => exact ⟨rfl, f32Units_c0⟩
  | attack => exact attackInc_durationValue hr ha
  | decay => exact decayInc_falls hr hd hs
  | sustain => exact ⟨rfl, f32Units_c0⟩
  | release => exact releaseInc_falls hr hre hl

variable (hg : DurationValue g.attack ∧ DurationValue g.decay ∧ UnitValue g.sustain ∧ DurationValue g.release ∧
  UnitValue g.volume)

include hg

theorem triggerVoice_levelOk (note : BitVec 7) (vel : F32) : VoiceLevelOk (triggerVoice g note vel) := by
  obtain ⟨ha, hd, hs, hre, -⟩ := hg
  exact ⟨unitValue_c0, ha, hd, hs, hre, attackInc_durationValue hr ha⟩

theorem updateAdsr_levelOk {v : Voice} (h : VoiceLevelOk v) : VoiceLevelOk (updateAdsr g v) := by
  obtain ⟨ha, hd, hs, hre, -⟩ := hg
  obtain ⟨hl, -, -, -, -, hi⟩ := h
  rcases updateAdsr_cases g v with ⟨-, e⟩ | ⟨-, e⟩ <;> rw [e]
  · exact ⟨hl, ha, hd, hs, hre, incFor_signOk (v := copyAdsr g v) hr hl ha hd hs hre⟩
  · exact ⟨hl, ha, hd, hs, hre, hi⟩

end Levels

theorem levelOk_voiceOpsKeep {s t : State} (hr : RateInv s) (hg : GlobalsInv s) (hr' : RateInv t) (hg' : GlobalsInv t) :
    VoiceOpsKeep VoiceLevelOk s.g t.g where
  trigger note vel _ := triggerVoice_levelOk hr.1 hg note vel
  release _ := releaseVoice_levelOk hr.1
  update _ := updateAdsr_levelOk hr'.1 hg'
  render _ := renderSample_levelOk hr.1
  forceIdle _ := forceIdle_levelOk

/-- A step writes only admitted values into the global parameters. -/
theorem step_keeps_globalsInv {s t : State} (h : step s = .next t) (hg : GlobalsInv s) : GlobalsInv t := by
  obtain ⟨ha, hd, hs, hr, hv⟩ := id hg
  unfold GlobalsInv
  rcases step_globals h with e | ⟨c, e⟩ | e | hw | ⟨v, hok, e⟩ | ⟨w, e⟩
  · rwa [e]
  · rwa [e]
  · rwa [e]
  · rcases hw with ⟨v, hok, e⟩ | ⟨v, hok, e⟩ | ⟨v, hok, e⟩ | ⟨v, hok, e⟩ <;> rw [e]
    · exact ⟨(isDuration_iff v).1 hok, hd, hs, hr, hv⟩
    · exact ⟨ha, (isDuration_iff v).1 hok, hs, hr, hv⟩
    · exact ⟨ha, hd, (inUnitRange_iff v).1 hok, hr, hv⟩
    · exact ⟨ha, hd, hs, (isDuration_iff v).1 hok, hv⟩
  · rw [e]
    exact ⟨ha, hd, hs, hr, (inUnitRange_iff v).1 hok⟩
  · rwa [e]

/-- Settles O55, voice operation by voice operation, at the admitted rate and parameters before and after the step. -/
theorem stepKeepsLevelsInRange : Obligations.StepKeepsLevelsInRange := by
  unfold Obligations.StepKeepsLevelsInRange
  rintro s t ⟨hr, hg, hs⟩ h
  have hr' := step_keeps_rateInv h hr
  have hg' := step_keeps_globalsInv h hg
  exact ⟨hr', hg', step_keeps_voices h (levelOk_voiceOpsKeep hr hg hr' hg') hs⟩

end Sys2Proof.Machine
end

section
/-! The range of the phases (10_state.md R44 (b)). At 2^42 half a unit in the last place is 2^18, so an increment of at most
2^17 cannot take a phase past it; below two pi the sum is at most twice the value before two pi, and the wrap, which
Sterbenz's argument makes exact, takes it below two pi again. -/

namespace Sys2Proof.Machine

/-! ### Bounds in units -/

theorem f32Units_of_nonneg {x : F32} (h : 0 ≤ f32Units x) : f32Units x = magUnits (f32Mag x) := by
  have := f32Units_abs x
  omega

/-- A value between zero and a bound below infinity is finite. -/
theorem f32IsFinite_of_units_le {x : F32} {m : Nat} (hn : f32IsNaN x = false) (h0 : 0 ≤ f32Units x)
    (h : f32Units x ≤ magUnits m) (hm : m < infMag) : f32IsFinite x = true := by
  have := magUnits_lt_iff.2 hm
  rw [f32IsFinite_iff_units, abs_of_nonneg h0]
  exact ⟨hn, by omega⟩

theorem f32IsFinite_of_mag_le {x : F32} {m : Nat} (h : f32Mag x ≤ m) (hm : m < infMag) : f32IsFinite x = true :=
  decide_eq_true (Nat.lt_of_le_of_lt h hm)

/-- A difference of finite values, between the values that the exact difference lies between. -/
theorem f32Sub_between {a b lo hi : F32} (ha : f32IsFinite a = true) (hb : f32IsFinite b = true)
    (hlo : f32IsNaN lo = false) (hhi : f32IsNaN hi = false)
    (h₁ : f32Units lo ≤ f32Units a - f32Units b) (h₂ : f32Units a - f32Units b ≤ f32Units hi) :
    f32IsNaN (f32Sub a b) = false ∧ f32Units lo ≤ f32Units (f32Sub a b) ∧ f32Units (f32Sub a b) ≤ f32Units hi := by
  have hnb : f32IsFinite (f32Neg b) = true := by rwa [f32IsFinite_neg]
  rw [sub_eq_add_neg, ← f32Units_neg (f32NotNaN_of_finite hb)] at h₁ h₂
  exact ⟨(f32Add_finite ha hnb).1, f32Add_between ha hnb hlo hhi h₁ h₂⟩

/-- Dividing by a magnitude of at least 1 does not enlarge a magnitude. -/
theorem f32Mag_div_le {a b : F32} (ha : f32IsFinite a = true) (hb : f32IsFinite b = true)
    (h : f32Mag c1 ≤ f32Mag b) : f32Mag (f32Div a b) ≤ f32Mag a := by
  have hpos : 0 < f32Mag b := by
    rw [f32Mag_c1] at h
    omega
  rw [f32Div_finite ha hb hpos.ne', f32Mag_pack _ (roundMag_lt _ _)]
  refine roundMag_le_of_le (by simpa using magUnits_lt_iff.2 hpos) ?_ (Nat.mul_le_mul_left _ ?_)
  · exact Nat.le_of_lt (by simpa [f32IsFinite] using ha)
  · rw [← magUnits_one]
    exact magUnits_le_iff.2 h

/-- The magnitude bits of 2^42, the bound of a phase. -/
def phaseBound : Nat := 0x54800000

/-- The magnitude bits of 2^17, the bound of a phase increment. -/
def incBound : Nat := 0x48000000

/-! ### The phase increment of a trigger -/

/-- Every entry of the frequency ROM is a positive value of at most entry 127's magnitude. -/
theorem freqRom_range (n : BitVec 7) : f32Sign (freqRom n) = false ∧ f32Mag (freqRom n) ≤ 0x4643FF6A := by
  revert n
  decide +kernel

/-- A phase increment is finite and between 0 and 2^17, whatever the note and the admitted rate. -/
theorem phaseIncOf_range (note : BitVec 7) {sr : F32} (hr : rateAdmitted sr = true) :
    f32IsFinite (phaseIncOf (freqRom note) sr) = true ∧ 0 ≤ f32Units (phaseIncOf (freqRom note) sr) ∧
      f32Units (phaseIncOf (freqRom note) sr) ≤ magUnits incBound := by
  obtain ⟨hsf, hmf⟩ := freqRom_range note
  obtain ⟨hfr, hsr, hmin, -⟩ := rate_range hr
  have hfin : f32IsFinite (freqRom note) = true := f32IsFinite_of_mag_le hmf (by decide)
  have hpi : f32IsFinite twoPi32 = true := by decide
  have hprod : f32Mag (f32Mul twoPi32 (freqRom note)) ≤ incBound := by
    rw [f32Mag_mul_finite hpi hfin]
    refine roundMag_le_of_le (by positivity) (by decide) ?_
    calc magUnits (f32Mag twoPi32) * magUnits (f32Mag (freqRom note))
        ≤ magUnits (f32Mag twoPi32) * magUnits 0x4643FF6A := Nat.mul_le_mul_left _ (magUnits_le_iff.2 hmf)
      _ ≤ magUnits incBound * 2 ^ 149 := by decide +kernel
  have hprodfin := f32IsFinite_of_mag_le hprod (by decide)
  have hmag : f32Mag (phaseIncOf (freqRom note) sr) ≤ incBound := (f32Mag_div_le hprodfin hfr hmin).trans hprod
  have hsign : f32Sign (phaseIncOf (freqRom note) sr) = false := by
    rw [f32Mag_c1] at hmin
    rw [phaseIncOf, f32Sign_div_finite hprodfin hfr (by omega), f32SignXor, f32Sign_mul_finite hpi hfin, f32SignXor,
      hsf, hsr]
    rfl
  rw [f32Units_of_sign_false hsign]
  exact ⟨f32IsFinite_of_mag_le hmag (by decide), by omega, by exact_mod_cast magUnits_le_iff.2 hmag⟩

/-! ### The advance of the phase accumulator -/

/-- A phase and an increment in range, in units: the phase at most 2^42, the increment at most 2^17, and the phase below
two pi while the increment is. -/
structure PhaseOk (phase inc : F32) : Prop where
  phaseFinite : f32IsFinite phase = true
  incFinite : f32IsFinite inc = true
  phaseNonneg : 0 ≤ f32Units phase
  phaseLe : f32Units phase ≤ magUnits phaseBound
  incNonneg : 0 ≤ f32Units inc
  incLe : f32Units inc ≤ magUnits incBound
  belowTwoPi : f32Lt inc twoPi32 = true → f32Lt phase twoPi32 = true

theorem voicePhaseOk_iff (v : Voice) : VoicePhaseOk v ↔ PhaseOk v.phase v.phaseInc := by
  have hphase : f32ToRat v.phase ≤ 2 ^ 42 ↔ f32Units v.phase ≤ magUnits phaseBound := by
    rw [show ((magUnits phaseBound : Nat) : Int) = (2 ^ 42 : Nat) * 2 ^ 149 by decide +kernel, ← f32ToRat_le_natCast]
    norm_num
  have hinc : f32ToRat v.phaseInc ≤ 2 ^ 17 ↔ f32Units v.phaseInc ≤ magUnits incBound := by
    rw [show ((magUnits incBound : Nat) : Int) = (2 ^ 17 : Nat) * 2 ^ 149 by decide +kernel, ← f32ToRat_le_natCast]
    norm_num
  rw [VoicePhaseOk, f32ToRat_nonneg_iff, f32ToRat_nonneg_iff, hphase, hinc]
  exact ⟨fun ⟨h₁, h₂, h₃, h₄, h₅, h₆, h₇⟩ => ⟨h₁, h₂, h₃, h₄, h₅, h₆, h₇⟩,
    fun ⟨h₁, h₂, h₃, h₄, h₅, h₆, h₇⟩ => ⟨h₁, h₂, h₃, h₄, h₅, h₆, h₇⟩⟩

/-- A phase of zero is in range with every increment that is. -/
theorem phaseOk_zero {inc : F32} (hf : f32IsFinite inc = true) (h0 : 0 ≤ f32Units inc)
    (hle : f32Units inc ≤ magUnits incBound) : PhaseOk c0 inc :=
  ⟨rfl, hf, f32Units_c0.ge, by rw [f32Units_c0]; exact Int.natCast_nonneg _, h0, hle, fun _ => rfl⟩

/-- A finite value below two pi is at most the largest of them. -/
theorem units_le_of_lt_twoPi {x : F32} (hf : f32IsFinite x = true) (h0 : 0 ≤ f32Units x)
    (h : f32Lt x twoPi32 = true) : f32Units x ≤ magUnits 0x40C90FDA := by
  rw [f32Lt_of_notNaN (f32NotNaN_of_finite hf) rfl, decide_eq_true_eq, f32Units_of_nonneg h0,
    show f32Units twoPi32 = magUnits 0x40C90FDB from rfl, Nat.cast_lt, magUnits_lt_iff] at h
  rw [f32Units_of_nonneg h0]
  exact_mod_cast magUnits_le_iff.2 (Nat.le_of_lt_succ h)

/-- The sum of two values below two pi is at most the double of the largest of them, which is representable. -/
theorem f32Add_below_twoPi {a b : F32} (ha : f32IsFinite a = true) (hb : f32IsFinite b = true) (ha0 : 0 ≤ f32Units a)
    (hb0 : 0 ≤ f32Units b) (hat : f32Lt a twoPi32 = true) (hbt : f32Lt b twoPi32 = true) :
    f32Units (f32Add a b) ≤ f32Units 0x41490FDA := by
  have hua := units_le_of_lt_twoPi ha ha0 hat
  have hub := units_le_of_lt_twoPi hb hb0 hbt
  refine f32Add_le ha hb rfl ?_
  have : f32Units 0x41490FDA = 2 * magUnits 0x40C90FDA := by decide +kernel
  omega

/-- The wrap takes such a sum to at most the second value below two pi. -/
theorem f32Sub_twoPi_below {p : F32} (hf : f32IsFinite p = true) (hlo : f32Units twoPi32 ≤ f32Units p)
    (hhi : f32Units p ≤ f32Units 0x41490FDA) : f32Lt (f32Sub p twoPi32) twoPi32 = true := by
  have hgap : f32Units 0x41490FDA - f32Units twoPi32 = f32Units 0x40C90FD9 := by decide +kernel
  have hlt : f32Units 0x40C90FD9 < f32Units twoPi32 := by decide +kernel
  obtain ⟨hn, -, hle⟩ := f32Sub_between (lo := c0) (hi := 0x40C90FD9) hf (b := twoPi32) rfl rfl rfl
    (by rw [f32Units_c0]; omega) (by omega)
  rw [f32Lt_of_notNaN hn rfl]
  exact decide_eq_true (by omega)

/-- A phase with an increment is finite, not negative and at most 2^42: 2^42 plus 2^17 rounds back to 2^42. -/
theorem PhaseOk.sum {phase inc : F32} (h : PhaseOk phase inc) :
    f32IsFinite (f32Add phase inc) = true ∧ 0 ≤ f32Units (f32Add phase inc) ∧
      f32Units (f32Add phase inc) ≤ magUnits phaseBound := by
  have hn := (f32Add_finite h.phaseFinite h.incFinite).1
  have h0 : 0 ≤ f32Units (f32Add phase inc) := by
    have := h.phaseNonneg
    have := h.incNonneg
    rw [← f32Units_c0]
    exact f32Add_ge h.phaseFinite h.incFinite rfl (by rw [f32Units_c0]; omega)
  have hle : f32Units (f32Add phase inc) ≤ magUnits phaseBound := by
    have hround : f32Units (roundUnits (magUnits phaseBound + magUnits incBound)) = magUnits phaseBound := by
      decide +kernel
    rw [(f32Add_finite h.phaseFinite h.incFinite).2, ← hround]
    exact roundUnits_mono (add_le_add h.phaseLe h.incLe)
  exact ⟨f32IsFinite_of_units_le hn h0 hle (by decide), h0, hle⟩

/-- The accumulator gives the sum, or the sum with two pi subtracted once. -/
theorem advancePhase_cases (phase inc : F32) :
    (f32Ge (f32Add phase inc) twoPi32 = false ∧ advancePhase phase inc = f32Add phase inc) ∨
    (f32Ge (f32Add phase inc) twoPi32 = true ∧ advancePhase phase inc = f32Sub (f32Add phase inc) twoPi32) := by
  unfold advancePhase
  cases h : f32Ge (f32Add phase inc) twoPi32 <;> simp [h]

/-- The accumulator keeps the range, by the two branches of its conditional subtraction. -/
theorem PhaseOk.advance {phase inc : F32} (h : PhaseOk phase inc) : PhaseOk (advancePhase phase inc) inc := by
  obtain ⟨hf, h0, hle⟩ := h.sum
  have hn := f32NotNaN_of_finite hf
  rcases advancePhase_cases phase inc with ⟨hge, e⟩ | ⟨hge, e⟩ <;> rw [e]
  · refine ⟨hf, h.incFinite, h0, hle, h.incNonneg, h.incLe, fun _ => ?_⟩
    rw [f32Ge, f32Le_of_notNaN rfl hn, decide_eq_false_iff_not, not_le] at hge
    rw [f32Lt_of_notNaN hn rfl]
    exact decide_eq_true hge
  · rw [f32Ge, f32Le_of_notNaN rfl hn, decide_eq_true_eq] at hge
    have hpi : 0 < f32Units twoPi32 := by decide
    obtain ⟨hsn, hs0, hsle⟩ := f32Sub_between (lo := c0) (hi := f32Add phase inc) hf (b := twoPi32) rfl rfl hn
      (by rw [f32Units_c0]; omega) (by omega)
    rw [f32Units_c0] at hs0
    refine ⟨f32IsFinite_of_units_le hsn hs0 (hsle.trans hle) (by decide), h.incFinite, hs0, hsle.trans hle,
      h.incNonneg, h.incLe, fun hinc => ?_⟩
    exact f32Sub_twoPi_below hf (by omega)
      (f32Add_below_twoPi h.phaseFinite h.incFinite h.phaseNonneg h.incNonneg (h.belowTwoPi hinc) hinc)

/-! ### The voice operations keep the range -/

theorem triggerVoice_phaseOk {g : Globals} (hr : rateAdmitted g.sr = true) (note : BitVec 7) (vel : F32) :
    VoicePhaseOk (triggerVoice g note vel) := by
  obtain ⟨hf, h0, hle⟩ := phaseIncOf_range note hr
  exact (voicePhaseOk_iff _).2 (phaseOk_zero hf h0 hle)

theorem releaseVoice_phaseOk (g : Globals) {v : Voice} (h : VoicePhaseOk v) : VoicePhaseOk (releaseVoice g v) := by
  rcases releaseVoice_cases g v with ⟨-, -, e⟩ | ⟨-, e⟩ <;> rw [e] <;> exact h

theorem updateAdsr_phaseOk (g : Globals) {v : Voice} (h : VoicePhaseOk v) : VoicePhaseOk (updateAdsr g v) := by
  obtain ⟨-, -, -, -, hphase, hinc, -⟩ := updateAdsr_frame g v
  rwa [VoicePhaseOk, hphase, hinc]

theorem renderSample_phaseOk (g : Globals) {v : Voice} (h : VoicePhaseOk v) :
    VoicePhaseOk (renderSample g v).voice := by
  rcases renderSample_cases g v with ⟨-, e⟩ | ⟨-, -, e⟩ | ⟨-, -, e⟩ <;> rw [e]
  · exact h
  · exact h
  · obtain ⟨-, -, -, hphase, hinc, -⟩ :=
      envStep_frame { v with age := v.age + 1, phase := advancePhase v.phase v.phaseInc } g.sr
    rw [voicePhaseOk_iff] at h ⊢
    rw [hphase, hinc]
    exact h.advance

theorem phaseOk_voiceOpsKeep {g : Globals} (hr : rateAdmitted g.sr = true) (g' : Globals) :
    VoiceOpsKeep VoicePhaseOk g g' where
  trigger note vel _ := triggerVoice_phaseOk hr note vel
  release _ := releaseVoice_phaseOk g
  update _ := updateAdsr_phaseOk g'
  render _ := renderSample_phaseOk g
  forceIdle _ h := h

/-- Settles O56, since the accumulator keeps the range and only a trigger writes the increment. -/
theorem stepKeepsPhasesInRange : Obligations.StepKeepsPhasesInRange := by
  unfold Obligations.StepKeepsPhasesInRange
  rintro s t ⟨hr, hs⟩ h
  exact ⟨step_keeps_rateInv h hr, step_keeps_voices h (phaseOk_voiceOpsKeep hr.1 t.g) hs⟩

/-! ### The wrap is exact -/

/-- A whole number of 24 bits is representable at every scale. -/
theorem exists_magUnits_eq_mul (k : Nat) : ∀ n < 2 ^ 24, ∃ b, magUnits b = n * 2 ^ k := by
  induction k with
  | zero => exact fun n hn => ⟨0 * 2 ^ 23 + n, magUnits_scaled hn.le (by simp)⟩
  | succ k ih =>
    intro n hn
    by_cases h : n < 2 ^ 23
    · obtain ⟨b, hb⟩ := ih (n * 2) (by omega)
      exact ⟨b, by rw [hb, Nat.pow_succ]; ring⟩
    · exact ⟨_, magUnits_scaled hn.le fun _ => not_lt.1 h⟩

/-- From the binade of scale `k` on every value is a multiple of `2^k` units. -/
theorem two_pow_dvd_magUnits {k m : Nat} (h : (k + 1) * 2 ^ 23 ≤ m) : 2 ^ k ∣ magUnits m := by
  have hexp : k + 1 ≤ m / 2 ^ 23 := (Nat.le_div_iff_mul_le (by positivity)).2 h
  unfold magUnits
  rw [if_neg (by omega)]
  exact (pow_dvd_pow 2 (by omega)).mul_left _

/-- A difference that is representable is exact. -/
theorem f32Sub_exact {a b : F32} {m : Nat} (ha : f32IsFinite a = true) (hb : f32IsFinite b = true) (hm : m ≤ infMag)
    (h : f32Units a - f32Units b = magUnits m) : f32Units (f32Sub a b) = f32Units a - f32Units b := by
  have hpack : f32Units (f32Pack false m) = magUnits m := f32Units_pack false (Nat.lt_of_le_of_lt hm infMag_lt)
  have hn : f32IsNaN (f32Pack false m) = false := f32IsNaN_pack_of_le hm
  obtain ⟨-, h₁, h₂⟩ := f32Sub_between ha hb hn hn (by omega) (by omega)
  omega

/-- Subtracting two pi from a value between it and the double of the largest value below it is exact: both are multiples of
2^128 units, the unit in the last place of two pi, and less than 2^24 of them apart. -/
theorem f32Sub_twoPi_exact {p : F32} (hf : f32IsFinite p = true) (hlo : f32Units twoPi32 ≤ f32Units p)
    (hhi : f32Units p ≤ f32Units 0x41490FDA) : f32Units (f32Sub p twoPi32) = f32Units p - f32Units twoPi32 := by
  have hpi : f32Units twoPi32 = magUnits 0x40C90FDB := rfl
  have htop : f32Units 0x41490FDA = magUnits 0x41490FDA := rfl
  have hp : f32Units p = magUnits (f32Mag p) := f32Units_of_nonneg (by omega)
  have hmag : 0x40C90FDB ≤ f32Mag p := by
    rw [← magUnits_le_iff]
    omega
  obtain ⟨k, hk⟩ : 2 ^ 128 ∣ magUnits (f32Mag p) - magUnits 0x40C90FDB :=
    Nat.dvd_sub (two_pow_dvd_magUnits (by omega)) (two_pow_dvd_magUnits (by decide))
  have hspan : magUnits 0x41490FDA - magUnits 0x40C90FDB < 2 ^ 24 * 2 ^ 128 := by decide +kernel
  obtain ⟨b, hb⟩ := exists_magUnits_eq_mul 128 k (by omega)
  have hbound : 2 ^ 24 * 2 ^ 128 ≤ magUnits infMag := by decide +kernel
  have hb_le : b ≤ infMag := by
    rw [← magUnits_le_iff]
    omega
  exact f32Sub_exact hf rfl hb_le (by rw [hb]; omega)

/-- Settles O57: the sum lies between two pi and its double, where the subtraction is exact. -/
theorem phaseWrapIsExact : Obligations.PhaseWrapIsExact := by
  unfold Obligations.PhaseWrapIsExact
  intro phase inc hpf hif hp0 hi0 hpt hit hge
  rw [f32ToRat_nonneg_iff] at hp0 hi0
  have hhi := f32Add_below_twoPi hpf hif hp0 hi0 hpt hit
  have hn := (f32Add_finite hpf hif).1
  have hwrap : advancePhase phase inc = f32Sub (f32Add phase inc) twoPi32 := if_pos hge
  have hlo : f32Units twoPi32 ≤ f32Units (f32Add phase inc) := ((f32Le_iff _ _).1 hge).2.2
  have hpi : 0 < f32Units twoPi32 := by decide
  have hf := f32IsFinite_of_units_le (m := 0x41490FDA) hn (by omega) hhi (by decide)
  rw [hwrap, f32ToRat, f32ToRat, f32ToRat, f32Sub_twoPi_exact hf hlo hhi, show (0x40C90FDB : F32) = twoPi32 from rfl]
  push_cast
  ring

end Sys2Proof.Machine
end

section
/-! Every output value is finite (10_state.md R44 (d)). No wave of a phase in range has a magnitude above 2^44; velocity,
level and volume are at most 1, so they enlarge nothing; and each of the 16 additions of the summing stage at most doubles
the bound, which stays far below infinity. -/

namespace Sys2Proof.Machine

/-! ### Magnitudes of sums -/

/-- One step of the exponent doubles a normal magnitude's value. -/
theorem magUnits_add_binade {m : Nat} (h : 2 ^ 23 ≤ m) : magUnits (m + 2 ^ 23) = 2 * magUnits m := by
  unfold magUnits
  obtain ⟨e, he⟩ : ∃ e, m / 2 ^ 23 = e + 1 := ⟨m / 2 ^ 23 - 1, by omega⟩
  have he' : (m + 2 ^ 23) / 2 ^ 23 = e + 2 := by omega
  have hf : (m + 2 ^ 23) % 2 ^ 23 = m % 2 ^ 23 := by omega
  rw [he, he', hf, if_neg (by omega), if_neg (by omega), Nat.add_sub_cancel, show e + 2 - 1 = e + 1 from rfl,
    Nat.pow_succ]
  ring

/-- The sum of two magnitudes of at most `m` has at most the double of `m`. -/
theorem f32Mag_add_le {a b : F32} {m : Nat} (ha : f32Mag a ≤ m) (hb : f32Mag b ≤ m) (hlo : 2 ^ 23 ≤ m)
    (hhi : m + 2 ^ 23 < infMag) : f32Mag (f32Add a b) ≤ m + 2 ^ 23 := by
  have hm : m < infMag := by omega
  rw [f32Add_eq_pack (f32IsFinite_of_mag_le ha hm) (f32IsFinite_of_mag_le hb hm), f32Mag_pack _ (roundMag_lt _ _)]
  refine roundMag_le_of_le Nat.one_pos hhi.le ?_
  have hsum := Int.natAbs_add_le (f32Units a) (f32Units b)
  rw [f32Units_abs, f32Units_abs] at hsum
  have hua := magUnits_le_iff.2 ha
  have hub := magUnits_le_iff.2 hb
  rw [magUnits_add_binade hlo]
  omega

theorem f32Mag_sub_le {a b : F32} {m : Nat} (ha : f32Mag a ≤ m) (hb : f32Mag b ≤ m) (hlo : 2 ^ 23 ≤ m)
    (hhi : m + 2 ^ 23 < infMag) : f32Mag (f32Sub a b) ≤ m + 2 ^ 23 := by
  have hnb := f32NotNaN_of_finite (f32IsFinite_of_mag_le hb (by omega))
  exact f32Mag_add_le ha (by rwa [f32Mag_neg hnb]) hlo hhi

/-- The summing stage: each addition at most doubles the bound of the lanes. -/
theorem f32Mag_foldl_add_le (lanes : List Rendered) {acc : F32} {m : Nat} (hlanes : ∀ r ∈ lanes, f32Mag r.sample ≤ m)
    (hacc : f32Mag acc ≤ m) (hlo : 2 ^ 23 ≤ m) (hhi : m + lanes.length * 2 ^ 23 < infMag) :
    f32Mag (lanes.foldl (fun acc r => f32Add acc r.sample) acc) ≤ m + lanes.length * 2 ^ 23 := by
  induction lanes generalizing acc m with
  | nil => simpa using hacc
  | cons r rs ih =>
    rw [List.length_cons] at hhi ⊢
    have hr := hlanes r List.mem_cons_self
    have hadd := f32Mag_add_le hacc hr hlo (by omega)
    have hrest := ih (m := m + 2 ^ 23) (fun r' h => (hlanes r' (List.mem_cons_of_mem r h)).trans (by omega)) hadd
      (by omega) (by omega)
    rw [List.foldl_cons]
    omega

/-! ### The magnitude of a wave, a sample and a frame -/

/-- The magnitude bits of 2^44, which no wave of a phase up to 2^42 exceeds. -/
def waveBound : Nat := 0x55800000

theorem f32Mag_waveSaw_le {θ : F32} (hm : f32Mag θ ≤ phaseBound) : f32Mag (waveSaw θ) ≤ waveBound := by
  have hq : f32Mag (f32Div θ pi32) ≤ 0x55000000 :=
    (f32Mag_div_le (f32IsFinite_of_mag_le hm (by decide)) rfl (by decide)).trans (hm.trans (by decide))
  exact f32Mag_sub_le hq (by decide) (by decide) (by decide)

theorem f32Mag_waveTriangle_le {θ : F32} (hm : f32Mag θ ≤ phaseBound) : f32Mag (waveTriangle θ) ≤ waveBound := by
  have hdouble : f32Mag (f32Mul c2 θ) ≤ 0x55000000 := by
    rw [f32Mag_mul_finite rfl (f32IsFinite_of_mag_le hm (by decide))]
    refine roundMag_le_of_le (by positivity) (by decide) ?_
    calc magUnits (f32Mag c2) * magUnits (f32Mag θ) ≤ magUnits (f32Mag c2) * magUnits phaseBound :=
          Nat.mul_le_mul_left _ (magUnits_le_iff.2 hm)
      _ ≤ magUnits 0x55000000 * 2 ^ 149 := by decide +kernel
  have hq : f32Mag (f32Div (f32Mul c2 θ) pi32) ≤ 0x55000000 :=
    (f32Mag_div_le (f32IsFinite_of_mag_le hdouble (by decide)) rfl (by decide)).trans hdouble
  unfold waveTriangle
  dsimp only
  split
  · exact f32Mag_sub_le hq (by decide) (by decide) (by decide)
  · exact f32Mag_sub_le (by decide) hq (by decide) (by decide)

theorem f32Mag_waveSquare_le (θ : F32) : f32Mag (waveSquare θ) ≤ waveBound := by
  unfold waveSquare
  split <;> decide

theorem f32Mag_wavePulse_le (θ : F32) : f32Mag (wavePulse θ) ≤ waveBound := by
  unfold wavePulse
  split <;> decide

theorem f32Mag_wave_le (idx : BitVec 3) {θ : F32} (hm : f32Mag θ ≤ phaseBound) : f32Mag (wave idx θ) ≤ waveBound := by
  have hsine : f32Mag (sin32 θ) ≤ waveBound :=
    (sin32_mag (f32IsFinite_of_mag_le hm (by decide))).trans (by decide)
  unfold wave
  split
  · exact hsine
  · exact f32Mag_waveSquare_le θ
  · exact f32Mag_waveSaw_le hm
  · exact f32Mag_waveTriangle_le hm
  · exact f32Mag_wavePulse_le θ
  · exact hsine

theorem UnitValue.mag_le {v : F32} (h : UnitValue v) : f32Mag v ≤ f32Mag c1 := by
  obtain ⟨-, h0, h1⟩ := (unitValue_iff v).1 h
  rw [← magUnits_le_iff, magUnits_one]
  have := f32Units_of_nonneg h0
  omega

theorem PhaseOk.mag_le {phase inc : F32} (h : PhaseOk phase inc) : f32Mag phase ≤ phaseBound := by
  rw [← magUnits_le_iff]
  have hle := h.phaseLe
  rw [f32Units_of_nonneg h.phaseNonneg] at hle
  exact_mod_cast hle

/-- The sample of a voice whose phase, velocity and level are in range. -/
theorem f32Mag_renderSample_le (g : Globals) {v : Voice} (hp : VoicePhaseOk v) (hv : UnitValue v.velocity)
    (hl : UnitValue v.envLevel) : f32Mag (renderSample g v).sample ≤ waveBound := by
  rcases renderSample_cases g v with ⟨-, e⟩ | ⟨-, -, e⟩ | ⟨-, -, e⟩ <;> rw [e]
  · exact Nat.zero_le _
  · exact Nat.zero_le _
  · have hwave := f32Mag_wave_le v.waveform ((voicePhaseOk_iff v).1 hp).mag_le
    obtain ⟨hfin, hscaled⟩ := f32Mag_mul_le (f32IsFinite_of_mag_le hwave (by decide)) hv.mag_le
    exact ((f32Mag_mul_le hfin hl.mag_le).2.trans hscaled).trans hwave

theorem renderLanes_get (s : State) (i : Nat) (h : i < 16) : (renderLanes s)[i] = renderSample s.g s.voices[i] := by
  simp [renderLanes]

/-- The value of a frame of voices in range is finite. -/
theorem frameValue_finite {s : State} (hp : ∀ i : Fin 16, VoicePhaseOk s.voices[i])
    (hv : ∀ i : Fin 16, UnitValue s.voices[i].velocity) (hl : ∀ i : Fin 16, UnitValue s.voices[i].envLevel)
    (hvol : UnitValue s.g.volume) : f32IsFinite (frameValue s) = true := by
  have hlanes : ∀ r ∈ (renderLanes s).toArray.toList, f32Mag r.sample ≤ waveBound := by
    intro r hr
    obtain ⟨i, hi, rfl⟩ := List.getElem_of_mem hr
    have hi16 : i < 16 := by simpa using hi
    rw [bank_toList_get, renderLanes_get]
    exact f32Mag_renderSample_le s.g (hp ⟨i, hi16⟩) (hv ⟨i, hi16⟩) (hl ⟨i, hi16⟩)
  have hlen : (renderLanes s).toArray.toList.length = 16 := by simp
  have hmix : f32Mag (mixLanes (renderLanes s)) ≤ waveBound + 16 * 2 ^ 23 := by
    rw [← hlen]
    exact f32Mag_foldl_add_le _ hlanes (by decide) (by decide) (by rw [hlen]; decide)
  exact (f32Mag_mul_le (f32IsFinite_of_mag_le hmix (by decide)) hvol.mag_le).1

/-! ### What keeps a property of every frame -/

/-- Every frame of the output stream and the frame port has the property. -/
def FramesAll (P : Frame → Prop) (s : State) : Prop := (∀ f ∈ s.output, P f) ∧ ∀ f, s.framePort = some f → P f

/-- The progress of a `RENDER` emits at most the frame of the present voices. -/
theorem renderProgress_framesAll {P : Frame → Prop} {s : State} (hnew : P ⟨frameValue s, frameValue s⟩)
    (hs : FramesAll P s) : FramesAll P (renderProgress s) := by
  rcases renderProgress_cases s with ⟨-, e⟩ | ⟨-, -, e⟩ <;> rw [e]
  · exact hs
  · obtain ⟨hout, hport⟩ := hs
    have hval : frameValue { s with renderLeft := s.renderLeft - 1 } = frameValue s := frameValue_congr rfl rfl
    rw [FramesAll, frameStep_output, frameStep_framePort, hval]
    cases s.hostAccepts with
    | true =>
      refine ⟨fun f hf => ?_, hport⟩
      rw [if_pos rfl, List.mem_append, List.mem_singleton] at hf
      rcases hf with hf | rfl
      · exact hout f hf
      · exact hnew
    | false => exact ⟨hout, fun f hf => Option.some.inj hf ▸ hnew⟩

/-- A property of every frame is kept by every step that can only emit a frame with it. -/
theorem step_framesAll {P : Frame → Prop} {s t : State} (h : step s = .next t)
    (hnew : P ⟨frameValue s, frameValue s⟩) (hs : FramesAll P s) : FramesAll P t := by
  rcases step_cases h with ⟨-, -, rfl⟩ | ⟨-, rfl⟩ | ⟨w, rest, i, -, -, -, -, he⟩ | ⟨w, rest, c, -, -, -, -, rfl⟩
  · exact renderProgress_framesAll hnew hs
  · exact hs
  · rcases exec_cases he with ⟨-, rfl⟩ | ⟨-, rfl⟩ | ⟨note, vel, -, -, rfl⟩ | ⟨note, -, rfl⟩ | ⟨g', -, rfl⟩ |
      ⟨v, -, -, rfl⟩ | ⟨v, -, -, rfl⟩ | ⟨k, -, rfl⟩ | ⟨-, rfl⟩
    · exact hs
    · exact hs
    · exact hs
    · exact hs
    · exact hs
    · exact hs
    · exact hs
    · exact renderProgress_framesAll (s := { s with fifo := rest, renderLeft := k }) hnew hs
    · exact hs
  · exact hs

/-! ### The velocities, and the invariant -/

theorem velocity_voiceOpsKeep (g g' : Globals) : VoiceOpsKeep (fun v => UnitValue v.velocity) g g' where
  trigger _ vel hv := (inUnitRange_iff vel).1 hv
  release v hv := by rwa [(releaseVoice_identity g v).2.1]
  update v hv := by rwa [(updateAdsr_identity g' v).2.1]
  render v hv := by rwa [(renderSample_identity g v).2.1]
  forceIdle _ hv := hv

/-- Settles O58: levels, phases and velocities stay in range, and the one frame that a step can emit is finite. -/
theorem stepKeepsOutputsFinite : Obligations.StepKeepsOutputsFinite := by
  unfold Obligations.StepKeepsOutputsFinite
  rintro s t ⟨hlevel, hphase, hvel, hframes⟩ h
  obtain ⟨-, ⟨-, -, -, -, hvol⟩, hl⟩ := id hlevel
  have hfin := frameValue_finite hphase.2 hvel (fun i => (hl i).1) hvol
  exact ⟨stepKeepsLevelsInRange s t hlevel h, stepKeepsPhasesInRange s t hphase h,
    step_keeps_voices h (velocity_voiceOpsKeep s.g t.g) hvel,
    step_framesAll (P := fun f => f32IsFinite f.left = true ∧ f32IsFinite f.right = true) h ⟨hfin, hfin⟩ hframes⟩

end Sys2Proof.Machine
end

section
/-! The observation port (10_state.md R53 to R56) and the activation reset (R58): where every register reads, every bit of the
packed words, and the invariants at activation. -/

namespace Sys2Proof.Machine

/-! ### The observation map -/

theorem observe_voice (s : State) (i : Fin 16) {f : Nat} (hf : f < 16) :
    observe s (BitVec.ofNat 9 (16 * i.val + f)) = voiceWord s.voices[i] f := by
  have haddr : (BitVec.ofNat 9 (16 * i.val + f)).toNat = 16 * i.val + f := by
    rw [BitVec.toNat_ofNat]
    omega
  have hvoice : Fin.ofNat 16 ((16 * i.val + f) / 16) = i := by
    ext
    rw [Fin.val_ofNat]
    omega
  have hfield : (16 * i.val + f) % 16 = f := by omega
  unfold observe
  simp only [haddr, hvoice, hfield, if_pos (show 16 * i.val + f < 256 by omega)]

theorem observe_global (s : State) {a : BitVec 9} {f : Nat} (h : a.toNat = 256 + f) : observe s a = globalWord s f := by
  have hf : a.toNat - 256 = f := by omega
  rw [← hf]
  exact if_neg (by omega)

theorem observe_status (s : State) : observe s 0x108 = statusWord s := observe_global s (f := 8) rfl

theorem globalWord_reserved (s : State) {f : Nat} (h : 9 ≤ f) : globalWord s f = 0 := by
  obtain ⟨k, rfl⟩ := Nat.exists_eq_add_of_le' h
  rfl

theorem observe_reserved (s : State) {a : BitVec 9} (h : 0x109 ≤ a.toNat) : observe s a = 0 := by
  rw [observe_global s (f := a.toNat - 256) (by omega)]
  exact globalWord_reserved s (by omega)

/-- Settles O48, from the address's quotient and remainder by 16, and the fields' own words. -/
theorem observationMapPlacesEveryRegister : Obligations.ObservationMapPlacesEveryRegister := by
  unfold Obligations.ObservationMapPlacesEveryRegister
  exact ⟨fun s i f hf => observe_voice s i hf,
    fun s => ⟨observe_global s (f := 0) rfl, observe_global s (f := 1) rfl, observe_global s (f := 2) rfl,
      observe_global s (f := 3) rfl, observe_global s (f := 4) rfl, observe_global s (f := 5) rfl,
      observe_global s (f := 6) rfl, observe_global s (f := 7) rfl, observe_status s, fun a => observe_reserved s⟩⟩

/-! ### The packed words -/

/-- The fields of a VCTRL word (10_state.md R54), each found by passing the fields below it. -/
theorem vctrlWord_fields (v : Voice) :
    (vctrlWord v).getLsbD 0 = v.active ∧ (vctrlWord v).extractLsb' 1 3 = envCode v.envState ∧
      (vctrlWord v).extractLsb' 4 3 = v.waveform ∧ (vctrlWord v).getLsbD 7 = false ∧
      (vctrlWord v).extractLsb' 8 7 = v.note ∧ (vctrlWord v).extractLsb' 15 17 = 0 := by
  unfold vctrlWord
  simp (disch := decide) only [BitVec.getLsbD_append, BitVec.extractLsb'_append_eq_of_le,
    BitVec.extractLsb'_append_eq_of_add_le]
  simp

/-- The fields of a STATUS word (10_state.md R56). -/
theorem statusWord_fields (s : State) :
    (∀ i < 16, (statusWord s).getLsbD i = (activeMask s).getLsbD i) ∧ (statusWord s).extractLsb' 16 4 = s.g.cursor ∧
      (statusWord s).getLsbD 20 = s.g.err ∧ (statusWord s).extractLsb' 21 3 = s.g.errCause ∧
      (statusWord s).extractLsb' 24 8 = 0 := by
  unfold statusWord
  refine ⟨fun i hi => by rw [BitVec.getLsbD_append, if_pos hi], ?_⟩
  simp (disch := decide) only [BitVec.getLsbD_append, BitVec.extractLsb'_append_eq_of_le,
    BitVec.extractLsb'_append_eq_of_add_le]
  simp

/-- Bit `i` of the mask of a bank is the `ACTIVE` bit of voice `i`. -/
theorem testBit_maskOf (vs : List Voice) (i : Nat) (h : i < vs.length) : (maskOf vs).testBit i = vs[i].active := by
  induction vs generalizing i with
  | nil => exact absurd h (Nat.not_lt_zero i)
  | cons v vs ih =>
    unfold maskOf
    cases i with
    | zero => cases h : v.active <;> simp [Nat.testBit_zero, h]
    | succ i =>
      rw [Nat.testBit_succ, show (v.active.toNat + 2 * maskOf vs) / 2 = maskOf vs by cases v.active <;> simp; omega]
      exact ih i (by simpa using h)

theorem activeMask_getLsbD (s : State) (i : Fin 16) : (activeMask s).getLsbD i = s.voices[i].active := by
  rw [activeMask, BitVec.getLsbD_ofNat, testBit_maskOf _ _ (by simp), bank_toList_get]
  simp

/-- STATUS after the activation reset: no voice active, the cursor at 0 and no error. -/
theorem activated_status (sr : F32) (p : InitParams) : observe (State.activated sr p) 0x108 = 0 := by
  have hmask : activeMask (State.activated sr p) = 0 := by
    simp [activeMask, State.activated, Voice.reset, maskOf]
  rw [observe_status, statusWord, hmask]
  exact (by decide : 0#8 ++ 0#3 ++ BitVec.ofBool false ++ 0#4 ++ 0#16 = 0#32)

/-- Settles O49: each field stands above the ones appended after it, and each `ACTIVE` bit at its voice's index. -/
theorem packedWordsHoldTheirFields : Obligations.PackedWordsHoldTheirFields := by
  unfold Obligations.PackedWordsHoldTheirFields
  refine ⟨fun v => ?_, fun sr p => activated_status sr p, fun s => ⟨observe_status s, ?_⟩⟩
  · obtain ⟨hactive, henv, hrest⟩ := vctrlWord_fields v
    refine ⟨hactive, henv.trans ?_, hrest⟩
    cases v.envState <;> rfl
  · obtain ⟨hmask, hrest⟩ := statusWord_fields s
    exact ⟨fun i => (hmask i i.isLt).trans (activeMask_getLsbD s i), hrest⟩

/-! ### Activation -/

theorem activated_voice (sr : F32) (p : InitParams) (i : Fin 16) : (State.activated sr p).voices[i] = Voice.reset := by
  simp [State.activated]

/-- Settles O50: an activation at an admitted rate gives the activation reset, whatever the block was. -/
theorem activationSetsEveryElement : Obligations.ActivationSetsEveryElement := by
  unfold Obligations.ActivationSetsEveryElement
  exact fun sr p b hr =>
    ⟨State.activated sr p, if_pos hr, activated_voice sr p, rfl, rfl, rfl, rfl,
      activated_status sr p⟩

theorem activated_globalsInv (sr : F32) {p : InitParams} (h : initAdmitted p = true) :
    GlobalsInv (State.activated sr p) := by
  simp only [initAdmitted, Bool.and_eq_true, isDuration_iff, inUnitRange_iff] at h
  obtain ⟨⟨⟨⟨ha, hd⟩, hs⟩, hr⟩, hv⟩ := h
  exact ⟨ha, hd, hs, hr, hv⟩

section Activation

variable {sr : F32} (hr : rateAdmitted sr = true) (p : InitParams)

include hr

theorem activated_ageInv : AgeInv (State.activated sr p) := by
  refine ⟨⟨hr, rfl⟩, fun i => ?_⟩
  rw [activated_voice]
  exact ageOk_of_zero ⟨hr, rfl⟩ rfl

theorem activated_levelInv {p : InitParams} (hp : initAdmitted p = true) : LevelInv (State.activated sr p) := by
  refine ⟨⟨hr, rfl⟩, activated_globalsInv sr hp, fun i => ?_⟩
  rw [activated_voice]
  exact ⟨unitValue_c0, unitValue_c0.duration, unitValue_c0.duration, unitValue_c0, unitValue_c0.duration, rfl,
    f32Units_c0⟩

theorem activated_phaseInv : PhaseInv (State.activated sr p) := by
  refine ⟨⟨hr, rfl⟩, fun i => ?_⟩
  rw [activated_voice]
  exact (voicePhaseOk_iff _).2 (phaseOk_zero (inc := c0) rfl f32Units_c0.ge (by rw [f32Units_c0]; exact Int.natCast_nonneg _))

theorem activated_outputInv {p : InitParams} (hp : initAdmitted p = true) : OutputInv (State.activated sr p) := by
  refine ⟨activated_levelInv hr hp, activated_phaseInv hr p, fun i => ?_, fun f hf => absurd hf List.not_mem_nil,
    fun f hf => nomatch hf⟩
  rw [activated_voice]
  exact unitValue_c0

end Activation

/-- Settles O60, from the one register set that every voice has after the activation reset. -/
theorem invariantsHoldAtActivation : Obligations.InvariantsHoldAtActivation := by
  unfold Obligations.InvariantsHoldAtActivation
  refine ⟨fun sr p hr hp => ⟨fun i => ?_, fun i => ?_, ⟨fun _ => rfl, nofun⟩, activated_ageInv hr p,
    activated_levelInv hr hp, activated_phaseInv hr p, activated_outputInv hr hp,
    ⟨fun f hf => absurd hf List.not_mem_nil, nofun⟩, fun _ => rfl⟩, Config.sampleRate, Config.initParams, rfl,
    by decide +kernel, by decide +kernel⟩
  · rw [activated_voice]
    exact forceIdle_idleOk Voice.reset
  · rw [activated_voice]
    exact nofun

end Sys2Proof.Machine
end

section
/-! Words over a byte-wide channel (20_memory.md R75): the bytes of a word are its adjacent slices, lowest first, so joining
them gives the word back. -/

namespace Sys2Proof

/-- The eight bytes of a command word at the head of a stream are read back as the word. -/
@[simp] theorem wordOfBytes_bytesOfWord (w : CmdWord) (rest : List (BitVec 8)) :
    wordOfBytes (bytesOfWord w ++ rest) = some (w, rest) := by
  simp only [bytesOfWord, List.cons_append, List.nil_append, wordOfBytes]
  iterate 7 rw [BitVec.extractLsb'_append_extractLsb'_eq_extractLsb' (by decide)]
  rw [BitVec.extractLsb'_eq_self]

/-- The four bytes of a 32-bit word at the head of a stream are read back as the word. -/
@[simp] theorem wordOfBytes32_bytesOfWord32 (w : BitVec 32) (rest : List (BitVec 8)) :
    wordOfBytes32 (bytesOfWord32 w ++ rest) = some (w, rest) := by
  simp only [bytesOfWord32, List.cons_append, List.nil_append, wordOfBytes32]
  iterate 3 rw [BitVec.extractLsb'_append_extractLsb'_eq_extractLsb' (by decide)]
  rw [BitVec.extractLsb'_eq_self]

theorem bytesOfWord_get (w : CmdWord) (k : Fin 8) : (bytesOfWord w)[k.val]? = some (w.extractLsb' (8 * k.val) 8) := by
  fin_cases k <;> rfl

theorem bytesOfWord32_get (w : BitVec 32) (k : Fin 4) :
    (bytesOfWord32 w)[k.val]? = some (w.extractLsb' (8 * k.val) 8) := by
  fin_cases k <;> rfl

end Sys2Proof

namespace Sys2Proof.Machine

/-- The first sample of a channel is read back, before the samples after it. -/
theorem wordOfBytes32_sampleBytes (x : F32) (xs : List F32) :
    wordOfBytes32 (sampleBytes (x :: xs)) = some (x, sampleBytes xs) := by
  rw [sampleBytes, List.flatMap_cons, wordOfBytes32_bytesOfWord32, sampleBytes]

theorem wordOfBytes32_observeBytes (s : State) (a : BitVec 9) :
    wordOfBytes32 (observeBytes s a) = some (observe s a, []) := by
  rw [observeBytes, ← List.append_nil (bytesOfWord32 _), wordOfBytes32_bytesOfWord32]

/-- Settles O6: reading the bytes joins the adjacent slices of the word. -/
theorem byteChannelIsLittleEndian : Obligations.ByteChannelIsLittleEndian := by
  unfold Obligations.ByteChannelIsLittleEndian
  exact ⟨fun w rest => ⟨wordOfBytes_bytesOfWord w rest, bytesOfWord_get w⟩,
    fun w rest => ⟨wordOfBytes32_bytesOfWord32 w rest, bytesOfWord32_get w⟩,
    wordOfBytes32_observeBytes, wordOfBytes32_sampleBytes⟩

end Sys2Proof.Machine
end

section
/-! Decoding what was encoded (30_encoding.md R91 to R94): the fields of a word of format C are what it was assembled from,
and its must-be-zero bits lie under its row's mask. -/

namespace Sys2Proof

section FormatC

variable (op id note : BitVec 8) (imm : BitVec 32)

@[simp] theorem immField_formatC : immField (formatC op id note imm) = imm :=
  BitVec.extractLsb'_append_eq_right

@[simp] theorem noteField_formatC : noteField (formatC op id note imm) = (note.truncate 7).zeroExtend 8 := by
  unfold noteField formatC
  rw [BitVec.extractLsb'_append_eq_of_le (by decide), BitVec.extractLsb'_append_eq_of_le (by decide),
    BitVec.extractLsb'_append_eq_right]

@[simp] theorem idField_formatC : idField (formatC op id note imm) = id := by
  unfold idField formatC
  rw [BitVec.extractLsb'_append_eq_of_le (by decide), BitVec.extractLsb'_append_eq_of_le (by decide),
    BitVec.extractLsb'_append_eq_of_le (by decide), BitVec.extractLsb'_append_eq_of_le (by decide),
    BitVec.extractLsb'_append_eq_right]

@[simp] theorem opField_formatC : opField (formatC op id note imm) = op := by
  unfold opField formatC
  rw [BitVec.extractLsb'_append_eq_of_le (by decide), BitVec.extractLsb'_append_eq_of_le (by decide),
    BitVec.extractLsb'_append_eq_of_le (by decide), BitVec.extractLsb'_append_eq_of_le (by decide),
    BitVec.extractLsb'_append_eq_left]

end FormatC

/-- A note number that fits its field is read back from it. -/
theorem zeroExtend_truncate_note {note : BitVec 8} (h : noteFits note = true) :
    (note.truncate 7).zeroExtend 8 = note := by
  have hlt : note.toNat ≤ 127 := of_decide_eq_true h
  apply BitVec.eq_of_toNat_eq
  simp only [BitVec.truncate_eq_setWidth, BitVec.toNat_setWidth]
  omega

/-- The word of an instruction lies in the instruction's row. -/
theorem encode_and_rowMask (i : Instr) : encode i &&& (rowOf i).mask = (rowOf i).pattern := by
  apply beq_iff_eq.1
  cases i with
  | nop => exact Laws.EncodeInRow.nop
  | noteOn note vel => exact Laws.EncodeInRow.noteOn note vel
  | noteOff note => exact Laws.EncodeInRow.noteOff note
  | setAttack v => exact Laws.EncodeInRow.setAttack v
  | setDecay v => exact Laws.EncodeInRow.setDecay v
  | setSustain v => exact Laws.EncodeInRow.setSustain v
  | setRelease v => exact Laws.EncodeInRow.setRelease v
  | setVolume v => exact Laws.EncodeInRow.setVolume v
  | setWaveform v => exact Laws.EncodeInRow.setWaveform v
  | render k => exact Laws.EncodeInRow.render k
  | reset => exact Laws.EncodeInRow.reset

/-- Every row's mask has the whole opcode and the must-be-zero bits of the opcode, which are zero in the row's pattern. -/
theorem opcodeTable_mustBeZero : ∀ r ∈ opcodeTable,
    opField r.mask = BitVec.allOnes 8 ∧ (opField r.pattern).toNat ≤ 5 ∧
      r.mask &&& mustBeZero (opField r.pattern) = mustBeZero (opField r.pattern) ∧
      r.pattern &&& mustBeZero (opField r.pattern) = 0 := by
  decide

theorem rowOf_mem (i : Instr) : rowOf i ∈ opcodeTable := by
  cases i <;> simp [opcodeTable, rowOf]

theorem opField_encode (i : Instr) : opField (encode i) = opField (rowOf i).pattern := by
  obtain ⟨hop, -⟩ := opcodeTable_mustBeZero _ (rowOf_mem i)
  rw [← encode_and_rowMask, opField, opField, BitVec.extractLsb'_and, ← opField, ← opField, hop, BitVec.and_allOnes]

theorem encode_and_mustBeZero (i : Instr) : encode i &&& mustBeZero (opField (encode i)) = 0 := by
  obtain ⟨-, -, hmask, hpattern⟩ := opcodeTable_mustBeZero _ (rowOf_mem i)
  rw [opField_encode, ← hmask, ← BitVec.and_assoc, encode_and_rowMask, hpattern]

/-- The checks of 30_encoding.md R99 before the last pass on every encoding. -/
theorem decode_encode_eq_commandOf (i : Instr) : decode (encode i) = commandOf (encode i) := by
  obtain ⟨-, hop, -⟩ := opcodeTable_mustBeZero _ (rowOf_mem i)
  unfold decode
  rw [if_neg (by rw [opField_encode]; exact Nat.not_lt.2 hop), if_neg (not_not.2 (encode_and_mustBeZero i))]

/-- An instruction with an encoding decodes back to itself. -/
theorem decode_encode {i : Instr} (h : i.wellFormed = true) : decode (encode i) = .cmd i := by
  rw [decode_encode_eq_commandOf]
  cases i with
  | noteOn note vel => simp [encode, commandOf, zeroExtend_truncate_note h]
  | noteOff note => simp [encode, commandOf, zeroExtend_truncate_note h]
  | nop => simp [encode, commandOf]
  | render k => simp [encode, commandOf]
  | reset => simp [encode, commandOf]
  | _ v => simp [encode, commandOf, setCommand]

end Sys2Proof
end

section
/-! What a step does to the two output places, the stream and the frame port (20_memory.md R72): nothing, or it emits the one
frame of a `RENDER`'s frame step into an empty port. -/

namespace Sys2Proof.Machine

/-- The output stream and the frame port of `t` are those of `s`. -/
def FramesKept (s t : State) : Prop := t.output = s.output ∧ t.framePort = s.framePort

/-- From `s`, whose port is empty, to `t` one frame has gone to the output stream, or to the port of a host that does not
accept. -/
def FrameEmitted (s t : State) : Prop :=
  s.framePort = none ∧ ∃ f, t.output = (if s.hostAccepts then s.output ++ [f] else s.output) ∧
    t.framePort = if s.hostAccepts then none else some f

theorem renderProgress_frames (s : State) :
    FramesKept s (renderProgress s) ∨ FrameEmitted s (renderProgress s) := by
  rcases renderProgress_cases s with ⟨-, e⟩ | ⟨-, hp, e⟩ <;> rw [e]
  · exact .inl ⟨rfl, rfl⟩
  · exact .inr ⟨hp, _, frameStep_output _, by rw [frameStep_framePort, hp]⟩

/-- A command other than `RENDER` writes the voices and the global registers, and nothing else. -/
theorem exec_frame {i : Instr} {s t : State} (h : exec i s = .next t) :
    t = { s with voices := t.voices, g := t.g } ∨ ∃ k, i = .render k ∧ t = renderProgress { s with renderLeft := k } := by
  rcases exec_cases h with ⟨-, rfl⟩ | ⟨-, rfl⟩ | ⟨note, vel, -, -, rfl⟩ | ⟨note, -, rfl⟩ | ⟨g', -, rfl⟩ | ⟨v, -, -, rfl⟩ |
    ⟨v, -, -, rfl⟩ | ⟨k, hk, e⟩ | ⟨-, rfl⟩
  · exact .inl rfl
  · exact .inl rfl
  · exact .inl rfl
  · exact .inl rfl
  · exact .inl rfl
  · exact .inl rfl
  · exact .inl rfl
  · exact .inr ⟨k, hk, e⟩
  · exact .inl rfl

/-- A step keeps the host's side of the port, and it keeps every frame and emits one at most, in a frame step. -/
theorem step_frames {s t : State} (h : step s = .next t) :
    t.hostAccepts = s.hostAccepts ∧ (FramesKept s t ∨ NextIsFrame s ∧ FrameEmitted s t) := by
  rcases step_cases h with ⟨hp, hr, rfl⟩ | ⟨-, rfl⟩ | ⟨w, rest, i, hp, hr, hf, hd, he⟩ | ⟨w, rest, c, -, -, -, -, rfl⟩
  · exact ⟨renderProgress_hostAccepts s, (renderProgress_frames s).imp_right fun he => ⟨.inl ⟨hp, hr⟩, he⟩⟩
  · exact ⟨rfl, .inl ⟨rfl, rfl⟩⟩
  · rcases exec_frame he with e | ⟨k, rfl, rfl⟩
    · rw [e]
      exact ⟨rfl, .inl ⟨rfl, rfl⟩⟩
    · exact ⟨renderProgress_hostAccepts _,
        (renderProgress_frames { s with fifo := rest, renderLeft := k }).imp_right
          fun he => ⟨.inr ⟨k, hp, hr, w, rest, hf, hd⟩, he⟩⟩
  · exact ⟨rfl, .inl ⟨rfl, rfl⟩⟩

/-- Settles O25, from what a step does to the frames. -/
theorem onlyRenderEmitsFrames : Obligations.OnlyRenderEmitsFrames := by
  unfold Obligations.OnlyRenderEmitsFrames
  intro s t h
  obtain ⟨-, ⟨ho, hp⟩ | ⟨hframe, hempty, f, ho, -⟩⟩ := step_frames h
  · exact ⟨⟨[], by simp [ho], by simp⟩, fun _ => ⟨ho, hp⟩, fun _ => hp⟩
  · refine ⟨?_, fun hn => absurd hframe hn, by simp [hempty]⟩
    cases ha : s.hostAccepts with
    | true => exact ⟨[f], by simp [ho, ha], by simp⟩
    | false => exact ⟨[], by simp [ho, ha], by simp⟩

theorem step_keeps_portInv {s t : State} (h : step s = .next t) (hs : PortInv s) : PortInv t := by
  intro ha
  obtain ⟨hhost, ⟨-, hp⟩ | ⟨-, -, f, -, hp⟩⟩ := step_frames h
  · rw [hp, hs (hhost ▸ ha)]
  · rw [hp, if_pos (hhost ▸ ha)]

/-- Settles O59: the one frame that a step can emit has one value on both channels, and an accepting host's port is kept
empty. -/
theorem stepKeepsFramesStereo : Obligations.StepKeepsFramesStereo := by
  unfold Obligations.StepKeepsFramesStereo
  exact fun s t hstereo hport h => ⟨step_framesAll (P := StereoFrame) h rfl hstereo, step_keeps_portInv h hport⟩

end Sys2Proof.Machine
end

section
/-! In an admitted state the block's step computes no NaN, so the machine's step is the block's: every command and every
frame step keeps `OutputInv`, before it is asked whether the step faults. -/

namespace Sys2Proof.Machine

/-! ### The invariant, register by register -/

/-- What `OutputInv` asks of one voice. -/
def VoiceOutputOk (v : Voice) : Prop := VoiceLevelOk v ∧ VoicePhaseOk v ∧ UnitValue v.velocity

/-- Both channels of a frame are finite. -/
def FrameFinite (f : Frame) : Prop := f32IsFinite f.left = true ∧ f32IsFinite f.right = true

theorem outputInv_iff (s : State) :
    OutputInv s ↔ RateInv s ∧ GlobalsInv s ∧ (∀ i : Fin 16, VoiceOutputOk s.voices[i]) ∧ FramesAll FrameFinite s := by
  constructor
  · rintro ⟨⟨hr, hg, hl⟩, ⟨-, hp⟩, hv, hf⟩
    exact ⟨hr, hg, fun i => ⟨hl i, hp i, hv i⟩, hf⟩
  · rintro ⟨hr, hg, hv, hf⟩
    exact ⟨⟨hr, hg, fun i => (hv i).1⟩, ⟨hr, fun i => (hv i).2.1⟩, fun i => (hv i).2.2, hf⟩

/-- Two properties that every voice operation keeps are kept together. -/
theorem VoiceOpsKeep.and {P Q : Voice → Prop} {g g' : Globals} (hp : VoiceOpsKeep P g g') (hq : VoiceOpsKeep Q g g') :
    VoiceOpsKeep (fun v => P v ∧ Q v) g g' where
  trigger note vel hv := ⟨hp.trigger note vel hv, hq.trigger note vel hv⟩
  release v h := ⟨hp.release v h.1, hq.release v h.2⟩
  update v h := ⟨hp.update v h.1, hq.update v h.2⟩
  render v h := ⟨hp.render v h.1, hq.render v h.2⟩
  forceIdle v h := ⟨hp.forceIdle v h.1, hq.forceIdle v h.2⟩

/-- The voice operations of an admitted state keep a voice admitted. -/
theorem OutputInv.voiceOpsKeep {s : State} (h : OutputInv s) : VoiceOpsKeep VoiceOutputOk s.g s.g := by
  obtain ⟨hr, hg, -, -⟩ := (outputInv_iff s).1 h
  exact (levelOk_voiceOpsKeep hr hg hr hg).and ((phaseOk_voiceOpsKeep hr.1 s.g).and (velocity_voiceOpsKeep s.g s.g))

/-! ### What keeps the invariant -/

section Keeps

variable {s : State} (h : OutputInv s)

include h

theorem mapVoices_keeps_outputInv {f : Voice → Voice} (hf : ∀ v, VoiceOutputOk v → VoiceOutputOk (f v)) :
    OutputInv (s.mapVoices f) := by
  obtain ⟨hr, hg, hv, hframes⟩ := (outputInv_iff s).1 h
  refine (outputInv_iff _).2 ⟨hr, hg, fun i => ?_, hframes⟩
  rw [State.mapVoices_voices, mapBank_get]
  exact hf _ (hv i)

theorem setVoice_keeps_outputInv (i : Fin 16) {v : Voice} (hv : VoiceOutputOk v) : OutputInv (s.setVoice i v) := by
  obtain ⟨hr, hg, hvs, hframes⟩ := (outputInv_iff s).1 h
  refine (outputInv_iff _).2 ⟨hr, hg, fun j => ?_, hframes⟩
  rw [setVoice_get]
  split
  · exact hv
  · exact hvs j

/-- Global registers that keep the rate and hold admitted parameters may be put in place of others. -/
theorem setGlobals_keeps_outputInv {g : Globals} (hsr : g.sr = s.g.sr) (hlimit : g.ageLimit = s.g.ageLimit)
    (hg : GlobalsInv { s with g := g }) : OutputInv { s with g := g } := by
  obtain ⟨hr, -, hv, hframes⟩ := (outputInv_iff s).1 h
  refine (outputInv_iff _).2 ⟨?_, hg, hv, hframes⟩
  unfold RateInv
  rwa [hsr, hlimit]

theorem renderProgress_keeps_outputInv : OutputInv (renderProgress s) := by
  obtain ⟨hr, hg, hv, hframes⟩ := (outputInv_iff s).1 h
  have hfin := frameValue_finite (fun i => (hv i).2.1) (fun i => (hv i).2.2) (fun i => (hv i).1.1) hg.2.2.2.2
  refine (outputInv_iff _).2 ⟨?_, ?_, fun i => ?_, renderProgress_framesAll ⟨hfin, hfin⟩ hframes⟩
  · rwa [RateInv, renderProgress_g]
  · rwa [GlobalsInv, renderProgress_g]
  · rcases renderProgress_get s i with e | e <;> rw [e]
    · exact hv i
    · exact h.voiceOpsKeep.render _ (hv i)

theorem noteOnEffect_keeps_outputInv (note : BitVec 8) {vel : F32} (hv : inUnitRange vel = true) :
    OutputInv (noteOnEffect note vel s) := by
  obtain ⟨-, hg, -, -⟩ := (outputInv_iff s).1 h
  have htrigger := h.voiceOpsKeep.trigger (noteIndex note) vel hv
  rcases allocateVoice_globals s with e | ⟨e, -⟩
  · exact setVoice_keeps_outputInv (setGlobals_keeps_outputInv h (by rw [e]) (by rw [e]) (by rwa [e])) _ htrigger
  · exact setVoice_keeps_outputInv (setGlobals_keeps_outputInv h (by rw [e]) (by rw [e]) (by rwa [e])) _ htrigger

theorem propagateAdsr_keeps_outputInv : OutputInv (propagateAdsr s) := by
  refine mapVoices_keeps_outputInv h fun v hv => ?_
  split
  · exact h.voiceOpsKeep.update v hv
  · exact hv

/-- An ADSR parameter command writes one admitted value. -/
theorem adsrWrite_keeps_outputInv {g : Globals} (hw : AdsrWrite s.g g) : OutputInv { s with g := g } := by
  obtain ⟨-, ⟨ha, hd, hs, hr, hv⟩, -, -⟩ := (outputInv_iff s).1 h
  rcases hw with ⟨v, hok, rfl⟩ | ⟨v, hok, rfl⟩ | ⟨v, hok, rfl⟩ | ⟨v, hok, rfl⟩
  · exact setGlobals_keeps_outputInv h rfl rfl ⟨(isDuration_iff v).1 hok, hd, hs, hr, hv⟩
  · exact setGlobals_keeps_outputInv h rfl rfl ⟨ha, (isDuration_iff v).1 hok, hs, hr, hv⟩
  · exact setGlobals_keeps_outputInv h rfl rfl ⟨ha, hd, (inUnitRange_iff v).1 hok, hr, hv⟩
  · exact setGlobals_keeps_outputInv h rfl rfl ⟨ha, hd, hs, (isDuration_iff v).1 hok, hv⟩

theorem exec_keeps_outputInv {i : Instr} {t : State} (he : exec i s = .next t) : OutputInv t := by
  obtain ⟨-, hg, -, -⟩ := (outputInv_iff s).1 h
  obtain ⟨ha, hd, hs, hr, -⟩ := id hg
  rcases exec_cases he with ⟨-, rfl⟩ | ⟨-, rfl⟩ | ⟨note, vel, -, hv, rfl⟩ | ⟨note, -, rfl⟩ | ⟨g', hw, rfl⟩ |
    ⟨v, -, hv, rfl⟩ | ⟨v, -, -, rfl⟩ | ⟨k, -, rfl⟩ | ⟨-, rfl⟩
  · exact h
  · exact setGlobals_keeps_outputInv h rfl rfl hg
  · exact noteOnEffect_keeps_outputInv h note hv
  · refine mapVoices_keeps_outputInv h fun v hv => ?_
    split
    · exact h.voiceOpsKeep.release v hv
    · exact hv
  · exact propagateAdsr_keeps_outputInv (adsrWrite_keeps_outputInv h hw)
  · exact setGlobals_keeps_outputInv h rfl rfl ⟨ha, hd, hs, hr, (inUnitRange_iff v).1 hv⟩
  · exact setGlobals_keeps_outputInv h rfl rfl hg
  · exact renderProgress_keeps_outputInv (s := { s with renderLeft := k }) h
  · exact mapVoices_keeps_outputInv h h.voiceOpsKeep.forceIdle

theorem blockStep_keeps_outputInv {t : State} (hb : blockStep s = .next t) : OutputInv t := by
  obtain ⟨-, hg, -, -⟩ := (outputInv_iff s).1 h
  rcases blockStep_cases hb with ⟨-, -, rfl⟩ | ⟨-, rfl⟩ | ⟨w, rest, i, -, -, -, -, he⟩ | ⟨w, rest, c, -, -, -, -, rfl⟩
  · exact renderProgress_keeps_outputInv h
  · exact h
  · exact exec_keeps_outputInv (s := { s with fifo := rest }) h he
  · exact setGlobals_keeps_outputInv (s := { s with fifo := rest }) h rfl rfl hg

end Keeps

/-! ### The block always goes on -/

theorem exec_next (i : Instr) (s : State) : ∃ t, exec i s = .next t := by
  cases i <;> exact ⟨_, rfl⟩

theorem blockStep_next (s : State) : ∃ t, blockStep s = .next t := by
  unfold blockStep executeWord
  split
  · exact ⟨_, rfl⟩
  · split
    · exact ⟨_, rfl⟩
    · split
      · exact ⟨_, rfl⟩
      · split
        · exact exec_next _ _
        · exact ⟨_, rfl⟩

/-- In an admitted state the machine's step is the block's. -/
theorem step_eq_blockStep {s : State} (h : OutputInv s) : step s = blockStep s := by
  obtain ⟨t, ht⟩ := blockStep_next s
  rw [ht]
  exact step_eq_next.2 ⟨ht, computesNaN_of_outputInv (blockStep_keeps_outputInv h ht)⟩

end Sys2Proof.Machine
end

section
/-! A step takes the oldest word of the FIFO and runs the instruction it decodes to (20_memory.md R71, 43_pool_commands.md
R200), and a word that `withFetchWord` places is that word. -/

namespace Sys2Proof.Machine

/-! ### The step with nothing in progress -/

section Fetch

variable {s : State} {w : CmdWord} {rest : List CmdWord} (hp : s.framePort = none) (hr : s.renderLeft = 0)
  (hf : s.fifo = w :: rest)

include hp hr hf

theorem blockStep_fetch : blockStep s = executeWord w { s with fifo := rest } := by
  simp [blockStep, portBusy, fetchWord, hp, hr, hf]

theorem blockStep_command {i : Instr} (hd : decode w = .cmd i) : blockStep s = exec i { s with fifo := rest } := by
  rw [blockStep_fetch hp hr hf, executeWord, hd]

theorem blockStep_reject {c : Cause} (hd : decode w = .reject c) :
    blockStep s = .next (raiseCmdError c { s with fifo := rest }) := by
  rw [blockStep_fetch hp hr hf, executeWord, hd]

theorem step_command {i : Instr} (hd : decode w = .cmd i) :
    step s = faultOnNaN s (exec i { s with fifo := rest }) := by
  rw [step, blockStep_command hp hr hf hd]

theorem step_command_of_outputInv {i : Instr} (hd : decode w = .cmd i) (h : OutputInv s) :
    step s = exec i { s with fifo := rest } := by
  rw [step_eq_blockStep h, blockStep_command hp hr hf hd]

end Fetch

/-! ### A placed word -/

theorem tableWord_toNat (w : CmdWord) : tableWord 64 w.toNat = w := by
  rw [tableWord, Nat.mod_eq_of_lt w.isLt, BitVec.ofNat_toNat, BitVec.setWidth_eq]

/-- The host's accept moves a finite frame from the port to the output stream. -/
theorem hostAccept_keeps_outputInv {s : State} (h : OutputInv s) : OutputInv (hostAccept s) := by
  obtain ⟨hr, hg, hv, hout, hport⟩ := (outputInv_iff s).1 h
  refine (outputInv_iff _).2 ⟨by rwa [RateInv, hostAccept_g], by rwa [GlobalsInv, hostAccept_g],
    by rwa [hostAccept_voices], fun f hf => ?_, by simp⟩
  rw [hostAccept_output, List.mem_append, Option.mem_toList] at hf
  exact hf.elim (hout f) (hport f)

/-- A placed word is the oldest, and behind it stands the FIFO as it was. -/
theorem withFetchWord_eq (s : State) (w : CmdWord) :
    s.withFetchWord 64 w.toNat = { hostAccept s with renderLeft := 0, fifo := w :: s.fifo } := by
  rw [State.withFetchWord, tableWord_toNat, placeWord]

/-- What a placed word's command runs on. -/
theorem withFetchWord_taken (s : State) (w : CmdWord) :
    { s.withFetchWord 64 w.toNat with fifo := s.fifo } = { hostAccept s with renderLeft := 0 } := by
  rw [withFetchWord_eq, ← hostAccept_fifo s]

/-- Settles O45: nothing holds the block, so it takes the word at the head of the FIFO, which a placed word is. -/
theorem stepRunsTheDecodedInstruction : Obligations.StepRunsTheDecodedInstruction := by
  unfold Obligations.StepRunsTheDecodedInstruction
  refine ⟨fun s w rest i hp hr hf hd => ⟨step_command hp hr hf hd, step_command_of_outputInv hp hr hf hd⟩,
    fun s i hi => ?_⟩
  have hw := withFetchWord_eq s (encode i)
  have hp : (s.withFetchWord 64 (encode i).toNat).framePort = none := by rw [hw]; exact hostAccept_framePort s
  have hr : (s.withFetchWord 64 (encode i).toNat).renderLeft = 0 := by rw [hw]
  have hf : (s.withFetchWord 64 (encode i).toNat).fifo = encode i :: s.fifo := by rw [hw]
  rw [← withFetchWord_taken s (encode i)]
  exact ⟨step_command hp hr hf (decode_encode hi),
    fun h => step_command_of_outputInv hp hr hf (decode_encode hi) (hw ▸ hostAccept_keeps_outputInv h)⟩

end Sys2Proof.Machine
end

section
/-! A run of the machine is the left fold of its commands' effects (20_memory.md R80): a command's whole effect does not read
the FIFO, and the machine reaches it before it takes the next word. -/

namespace Sys2Proof.Machine

/-! ### Runs -/

theorem core_run_add (M : Host.Core) {s t : M.State} {m : Nat} (h : M.run m s = .next t) (n : Nat) :
    M.run (m + n) s = M.run n t := by
  induction m generalizing s with
  | zero =>
    cases h
    rw [Nat.zero_add]
  | succ m ih =>
    cases hs : M.step s with
    | next u =>
      rw [core_run_succ M hs] at h
      rw [Nat.add_right_comm, core_run_succ M hs]
      exact ih h
    | fault r => simp [Host.Core.run, hs] at h
    | refused r => simp [Host.Core.run, hs] at h

theorem run_keeps_outputInv {n : Nat} {s t : State} (h : Host.Core.run Sys2Proof.core n s = .next t)
    (hs : OutputInv s) : OutputInv t := by
  induction n generalizing s with
  | zero =>
    cases h
    exact hs
  | succ n ih =>
    obtain ⟨u, hu⟩ := blockStep_next s
    rw [run_succ ((step_eq_blockStep hs).trans hu)] at h
    exact ih h (blockStep_keeps_outputInv hs hu)

/-! ### The frames of a `RENDER` -/

/-- A frame step neither reads nor writes the FIFO and the count of the frames left. -/
theorem frameStep_control (s : State) (ws : List CmdWord) (k : BitVec 32) :
    frameStep { s with fifo := ws, renderLeft := k } = { frameStep s with fifo := ws, renderLeft := k } := by
  have hval : frameValue { s with fifo := ws, renderLeft := k } = frameValue s := frameValue_congr rfl rfl
  unfold frameStep emitFrame
  rw [hval]
  split <;> rfl

theorem blockStep_rendering {s : State} (hp : s.framePort = none) (hr : s.renderLeft ≠ 0) :
    blockStep s = .next (renderProgress s) := by
  rw [blockStep, if_neg (by simp [portBusy, hp]), if_pos hr]

theorem renderProgress_rendering {s : State} (hp : s.framePort = none) (hr : s.renderLeft ≠ 0) :
    renderProgress s = frameStep { s with renderLeft := s.renderLeft - 1 } := by
  rw [renderProgress, if_neg (not_or.2 ⟨hr, by simp [portBusy, hp]⟩)]

/-- A `RENDER` in progress runs to its end, every frame accepted. -/
theorem run_rendering {n : Nat} {s : State} (h : OutputInv s) (hp : s.framePort = none) (ha : s.hostAccepts = true)
    (hn : s.renderLeft.toNat = n) :
    Host.Core.run Sys2Proof.core n s = .next (renderFrames n { s with renderLeft := 0 }) := by
  induction n generalizing s with
  | zero =>
    have hr : s.renderLeft = 0 := BitVec.eq_of_toNat_eq hn
    rw [← hr]
    rfl
  | succ n ih =>
    have hr : s.renderLeft ≠ 0 := by
      intro h0
      simp [h0] at hn
    have hb := blockStep_rendering hp hr
    rw [renderProgress_rendering hp hr] at hb
    rw [run_succ ((step_eq_blockStep h).trans hb),
      ih (blockStep_keeps_outputInv h hb) (by simp [ha, hp]) (by simp [ha]) ?_, renderFrames]
    · congr 2
      rw [← frameStep_control _ _ 0]
      simp
    · rw [frameStep_renderLeft]
      bv_omega

/-- The run of a `RENDER` that is the oldest word: one step if it has no frame, else one step a frame. -/
theorem run_render {s : State} {w : CmdWord} {rest : List CmdWord} {k : BitVec 32} (h : OutputInv s) (hq : Quiescent s)
    (hf : s.fifo = w :: rest) (hd : decode w = .cmd (.render k)) :
    Host.Core.run Sys2Proof.core (max 1 k.toNat) s = .next (renderFrames k.toNat { s with fifo := rest }) := by
  obtain ⟨hr, hp, ha⟩ := hq
  have hs : { s with fifo := rest, renderLeft := 0 } = { s with fifo := rest } := by rw [← hr]
  have hstep : step s = .next (renderProgress { s with fifo := rest, renderLeft := k }) :=
    step_command_of_outputInv hp hr hf hd h
  by_cases hk : k = 0
  · subst hk
    rw [renderProgress, if_pos (.inl rfl), hs] at hstep
    exact run_succ hstep 0
  · obtain ⟨n, hn⟩ := Nat.exists_eq_succ_of_ne_zero fun h0 => hk (BitVec.eq_of_toNat_eq h0)
    -- The first frame step is that of the `RENDER` already in progress.
    have hstarted := (step_eq_blockStep (s := { s with fifo := rest, renderLeft := k }) h).trans (blockStep_rendering hp hk)
    have hrun := run_rendering (s := { s with fifo := rest, renderLeft := k }) h hp ha hn
    rw [run_succ hstarted, hs] at hrun
    rw [hn, Nat.max_eq_right (Nat.le_add_left 1 n), run_succ hstep, hrun]

/-! ### The effect of a command -/

/-- What a word's whole effect is from any state: a rejection, the frames of a `RENDER`, or what another command gives. -/
theorem commandEffect_cases (w : CmdWord) :
    (∃ c, decode w = .reject c ∧ ∀ s, commandEffect s w = raiseCmdError c s) ∨
    (∃ k, decode w = .cmd (.render k) ∧ ∀ s, commandEffect s w = renderFrames k.toNat s) ∨
    (∃ i, decode w = .cmd i ∧ (∀ k, i ≠ .render k) ∧ ∀ s, exec i s = .next (commandEffect s w)) := by
  cases hd : decode w with
  | reject c => exact .inl ⟨c, rfl, fun s => by rw [commandEffect, hd]⟩
  | cmd i =>
    by_cases hi : ∃ k, i = .render k
    · obtain ⟨k, rfl⟩ := hi
      exact .inr (.inl ⟨k, rfl, fun s => by rw [commandEffect, hd]⟩)
    · refine .inr (.inr ⟨i, rfl, fun k hk => hi ⟨k, hk⟩, fun s => ?_⟩)
      unfold commandEffect
      rw [hd]
      cases i with
      | render k => exact absurd ⟨k, rfl⟩ hi
      | _ => rfl

/-- The run of the oldest word gives its command's effect. -/
theorem run_command {s : State} {w : CmdWord} {rest : List CmdWord} (h : OutputInv s) (hq : Quiescent s)
    (hf : s.fifo = w :: rest) :
    ∃ n, Host.Core.run Sys2Proof.core n s = .next (commandEffect { s with fifo := rest } w) := by
  obtain ⟨hr, hp, -⟩ := id hq
  rcases commandEffect_cases w with ⟨c, hd, he⟩ | ⟨k, hd, he⟩ | ⟨i, hd, -, he⟩
  · rw [he]
    exact ⟨1, run_succ ((step_eq_blockStep h).trans (blockStep_reject hp hr hf hd)) 0⟩
  · rw [he]
    exact ⟨_, run_render h hq hf hd⟩
  · exact ⟨1, run_succ ((step_command_of_outputInv hp hr hf hd h).trans (he _)) 0⟩

/-! ### The effect does not read the FIFO -/

theorem renderFrames_setFifo (n : Nat) (s : State) (ws : List CmdWord) :
    renderFrames n { s with fifo := ws } = { renderFrames n s with fifo := ws } := by
  induction n generalizing s with
  | zero => rfl
  | succ n ih =>
    rw [renderFrames, renderFrames, ← ih, frameStep_control s ws s.renderLeft, ← frameStep_renderLeft s]

theorem checkedOperand_setFifo {ok : Bool} {f : State → State} {s : State} {ws : List CmdWord}
    (h : f { s with fifo := ws } = { f s with fifo := ws }) :
    checkedOperand ok f { s with fifo := ws } = { checkedOperand ok f s with fifo := ws } := by
  cases ok
  · rfl
  · exact h

/-- A command other than `RENDER` has the same effect before any FIFO. -/
theorem exec_setFifo {i : Instr} {s t : State} (hi : ∀ k, i ≠ .render k) (h : exec i s = .next t) (ws : List CmdWord) :
    exec i { s with fifo := ws } = .next { t with fifo := ws } := by
  cases i with
  | nop => cases h; rfl
  | noteOn note vel => cases h; exact congrArg _ (checkedOperand_setFifo rfl)
  | noteOff note => cases h; rfl
  | setAttack v => cases h; exact congrArg _ (checkedOperand_setFifo rfl)
  | setDecay v => cases h; exact congrArg _ (checkedOperand_setFifo rfl)
  | setSustain v => cases h; exact congrArg _ (checkedOperand_setFifo rfl)
  | setRelease v => cases h; exact congrArg _ (checkedOperand_setFifo rfl)
  | setVolume v => cases h; exact congrArg _ (checkedOperand_setFifo rfl)
  | setWaveform v => cases h; exact congrArg _ (checkedOperand_setFifo rfl)
  | render k => exact absurd rfl (hi k)
  | reset => cases h; rfl

theorem commandEffect_setFifo (s : State) (w : CmdWord) (ws : List CmdWord) :
    commandEffect { s with fifo := ws } w = { commandEffect s w with fifo := ws } := by
  rcases commandEffect_cases w with ⟨c, -, he⟩ | ⟨k, -, he⟩ | ⟨i, -, hi, he⟩
  · rw [he, he]
    rfl
  · rw [he, he, renderFrames_setFifo]
  · exact Host.Outcome.next.inj ((he _).symm.trans (exec_setFifo hi (he s) ws))

/-! ### The fold -/

theorem renderFrames_quiescent (n : Nat) {s : State} (hq : Quiescent s) : Quiescent (renderFrames n s) := by
  induction n generalizing s with
  | zero => exact hq
  | succ n ih =>
    obtain ⟨hr, hp, ha⟩ := hq
    exact ih ⟨by rw [frameStep_renderLeft, hr], by rw [frameStep_framePort, if_pos ha, hp],
      by rw [frameStep_hostAccepts, ha]⟩

/-- After a command's whole effect nothing is in progress. -/
theorem commandEffect_quiescent {s : State} (w : CmdWord) (hq : Quiescent s) : Quiescent (commandEffect s w) := by
  rcases commandEffect_cases w with ⟨c, -, he⟩ | ⟨k, -, he⟩ | ⟨i, -, hi, he⟩
  · rw [he]
    exact hq
  · rw [he]
    exact renderFrames_quiescent _ hq
  · rcases exec_frame (he s) with e | ⟨k, hk, -⟩
    · rw [e]
      exact hq
    · exact absurd hk (hi k)

/-- Settles O47, by induction on the words: the run of the oldest word ends with nothing in progress. -/
theorem runIsTheFoldOfTheCommands : Obligations.RunIsTheFoldOfTheCommands := by
  unfold Obligations.RunIsTheFoldOfTheCommands
  intro ws
  induction ws with
  | nil =>
    intro s _ _ hf
    have hs : { s with fifo := [] } = s := by rw [← hf]
    exact ⟨0, by rw [hs]; rfl⟩
  | cons w rest ih =>
    intro s h hq hf
    obtain ⟨m, hm⟩ := run_command h hq hf
    have hfifo : (commandEffect { s with fifo := rest } w).fifo = rest := by rw [commandEffect_setFifo]
    obtain ⟨n, hn⟩ := ih _ (run_keeps_outputInv hm h) (commandEffect_quiescent w hq) hfifo
    refine ⟨m + n, (core_run_add Sys2Proof.core hm n).trans (hn.trans ?_)⟩
    rw [commandEffect_setFifo s w rest, commandsEffect, commandsEffect, List.foldl_cons, commandEffect_setFifo s w []]

end Sys2Proof.Machine
end

section
/-! The operand checks (30_encoding.md R98): each comparison is one of exact values, so a check admits the operands that the
spec's range admits, and a command whose check fails does nothing but raise its error. -/

namespace Sys2Proof.Machine

/-! ### A command with its operand out of range (30_encoding.md R98, R99) -/

theorem checkedOperand_rejected {ok : Bool} (h : ok = false) (f : State → State) (s : State) :
    checkedOperand ok f s = raiseCmdError .operandRange s :=
  if_neg (ne_true_of_eq_false h)

/-- A command whose operand check fails only raises its error. -/
theorem exec_of_not_admitted {i : Instr} (h : operandAdmitted i = false) (s : State) :
    exec i s = .next (raiseCmdError .operandRange s) := by
  cases i with
  | nop => cases h
  | noteOff note => cases h
  | render k => cases h
  | reset => cases h
  | noteOn note v => exact congrArg _ (checkedOperand_rejected h _ s)
  | _ v => exact congrArg _ (checkedOperand_rejected h _ s)

/-! ### Operand ranges by value (30_encoding.md R98) -/

theorem f32Lt_iff (a b : F32) :
    f32Lt a b = true ↔ f32IsNaN a = false ∧ f32IsNaN b = false ∧ f32Units a < f32Units b := by
  simp [f32Lt, f32Ordered, and_assoc]

theorem f32Units_cNeg1 : f32Units cNeg1 = -2 ^ 149 := by decide
theorem f32Units_c8 : f32Units c8 = 8 * 2 ^ 149 := by decide

theorem waveValue_iff (v : F32) :
    WaveValue v ↔ f32IsNaN v = false ∧ -2 ^ 149 < f32Units v ∧ f32Units v < 8 * 2 ^ 149 := by
  have hlow : -1 < f32ToRat v ↔ -2 ^ 149 < f32Units v := by
    rw [f32ToRat, lt_div_iff₀ (by positivity), neg_one_mul]
    exact_mod_cast Iff.rfl
  have hhigh : f32ToRat v < 8 ↔ f32Units v < 8 * 2 ^ 149 := by
    rw [f32ToRat, div_lt_iff₀ (by positivity)]
    exact_mod_cast Iff.rfl
  rw [WaveValue, hlow, hhigh, f32IsFinite_iff_units]
  constructor
  · rintro ⟨⟨hn, -⟩, h0, h1⟩
    exact ⟨hn, h0, h1⟩
  · rintro ⟨hn, h0, h1⟩
    have hinf : (8 * 2 ^ 149 : Int) < magUnits infMag := by decide
    exact ⟨⟨hn, abs_lt.2 ⟨by omega, by omega⟩⟩, h0, h1⟩

theorem inWaveRange_iff (v : F32) : inWaveRange v = true ↔ WaveValue v := by
  rw [inWaveRange, Bool.and_eq_true, f32Lt_iff, f32Lt_iff, waveValue_iff, f32Units_cNeg1, f32Units_c8,
    show f32IsNaN cNeg1 = false from rfl, show f32IsNaN c8 = false from rfl]
  tauto

theorem operandAdmitted_iff (i : Instr) : operandAdmitted i = true ↔ AdmittedByValue i := by
  cases i with
  | nop => exact iff_of_true rfl trivial
  | noteOn note v => exact inUnitRange_iff v
  | noteOff note => exact iff_of_true rfl trivial
  | setAttack v => exact isDuration_iff v
  | setDecay v => exact isDuration_iff v
  | setSustain v => exact inUnitRange_iff v
  | setRelease v => exact isDuration_iff v
  | setVolume v => exact inUnitRange_iff v
  | setWaveform v => exact inWaveRange_iff v
  | render k => exact iff_of_true rfl trivial
  | reset => exact iff_of_true rfl trivial

/-- An admitted waveform operand truncates to a selector; one between -1 and 0 truncates to 0. -/
theorem f32Trunc_waveValue {v : F32} (h : WaveValue v) : 0 ≤ f32Trunc v ∧ f32Trunc v ≤ 7 := by
  obtain ⟨-, hlow, hhigh⟩ := h
  rw [f32Trunc_eq]
  split
  · have hlt : ⌊f32ToRat v⌋ < 8 := Int.floor_lt.2 (by exact_mod_cast hhigh)
    exact ⟨Int.floor_nonneg.2 ‹_›, by omega⟩
  · have hneg : -1 < ⌈f32ToRat v⌉ := Int.lt_ceil.2 (by exact_mod_cast hlow)
    have hle : ⌈f32ToRat v⌉ ≤ 0 := Int.ceil_le.2 (by push_cast; linarith)
    omega

/-- Settles O8, from the order of the units that the comparisons of R98 compare. -/
theorem operandRangesByValue : Obligations.OperandRangesByValue := by
  unfold Obligations.OperandRangesByValue
  refine ⟨fun i => ⟨operandAdmitted_iff i, fun h => exec_of_not_admitted ?_⟩, fun v => f32Trunc_waveValue⟩
  exact eq_false_of_ne_true (mt (operandAdmitted_iff i).1 h)

end Sys2Proof.Machine
end

section
/-! The order of the decoder's checks (30_encoding.md R91 to R99): a mask of bit ranges clears a word exactly when the word is
zero on the ranges, so a word past the checks is format C of its fields, which is its command's one encoding. -/

namespace Sys2Proof

/-! ### Bits under a mask -/

/-- Where a mask is all ones over a bit range, a word with no bit under the mask is zero on the range. -/
theorem extractLsb'_eq_zero_of_and {n s len : Nat} {w m : BitVec n} (h : w &&& m = 0)
    (hm : m.extractLsb' s len = BitVec.allOnes len) : w.extractLsb' s len = 0#len := by
  rw [← BitVec.and_allOnes (x := w.extractLsb' s len), ← hm, ← BitVec.extractLsb'_and, h]
  exact BitVec.extractLsb'_zero

/-- The mask of the `len` bits of a command word from bit `s` up. -/
def rangeMask (s len : Nat) : CmdWord := (BitVec.allOnes len).setWidth 64 <<< s

theorem rangeMask_getLsbD (s len i : Nat) : (rangeMask s len).getLsbD i = decide (i < 64 ∧ s ≤ i ∧ i < s + len) := by
  rw [rangeMask, BitVec.getLsbD_shiftLeft, BitVec.getLsbD_setWidth, BitVec.getLsbD_allOnes, Bool.eq_iff_iff]
  simp only [Bool.and_eq_true, Bool.not_eq_true', decide_eq_true_eq, decide_eq_false_iff_not]
  omega

theorem and_rangeMask_eq_zero_iff (w : CmdWord) {s len : Nat} (h : s + len ≤ 64) :
    w &&& rangeMask s len = 0 ↔ w.extractLsb' s len = 0 := by
  constructor
  · intro hw
    refine extractLsb'_eq_zero_of_and hw (BitVec.eq_of_getLsbD_eq fun i hi => ?_)
    rw [BitVec.getLsbD_extractLsb', rangeMask_getLsbD, BitVec.getLsbD_allOnes, Bool.eq_iff_iff]
    simp only [Bool.and_eq_true, decide_eq_true_eq]
    omega
  · intro hw
    refine BitVec.eq_of_getLsbD_eq fun i hi => ?_
    rw [BitVec.getLsbD_and, rangeMask_getLsbD]
    by_cases hr : s ≤ i ∧ i < s + len
    · have hbit := congrArg (BitVec.getLsbD · (i - s)) hw
      simp only [BitVec.getLsbD_extractLsb', Nat.add_sub_cancel' hr.1, show i - s < len by omega] at hbit
      simp [show w.getLsbD i = false by simpa using hbit]
    · simp [hr]

theorem and_twoRanges_eq_zero_iff (w : CmdWord) {s len s' len' : Nat} (h : s + len ≤ 64) (h' : s' + len' ≤ 64) :
    w &&& (rangeMask s len ||| rangeMask s' len') = 0 ↔ w.extractLsb' s len = 0 ∧ w.extractLsb' s' len' = 0 := by
  rw [BitVec.and_or_distrib_left, ← and_rangeMask_eq_zero_iff w h, ← and_rangeMask_eq_zero_iff w h']
  exact BitVec.or_eq_zero_iff

/-! ### The must-be-zero bits (30_encoding.md R93) -/

/-- The must-be-zero mask of the opcode has the bit ranges of R93, and no other bit. -/
theorem reservedBitsZero_iff (w : CmdWord) : Machine.ReservedBitsZero w ↔ w &&& mustBeZero (opField w) = 0 := by
  have hop : w.extractLsb' 56 8 = opField w := rfl
  rw [Machine.ReservedBitsZero, mustBeZero, hop]
  match (opField w).toNat with
  | 0 => exact (and_rangeMask_eq_zero_iff w (s := 0) (len := 56) (by decide)).symm
  | 1 => exact (and_twoRanges_eq_zero_iff w (s := 47) (len := 9) (s' := 32) (len' := 8) (by decide) (by decide)).symm
  | 2 => exact (and_twoRanges_eq_zero_iff w (s := 47) (len := 9) (s' := 0) (len' := 40) (by decide) (by decide)).symm
  | 3 => exact (and_rangeMask_eq_zero_iff w (s := 32) (len := 16) (by decide)).symm
  | 4 => exact (and_rangeMask_eq_zero_iff w (s := 32) (len := 24) (by decide)).symm
  | n + 5 => exact (and_rangeMask_eq_zero_iff w (s := 0) (len := 56) (by decide)).symm

/-- RSV1 and RSV0 must be zero under every opcode, and so must each field that the opcode's command does not use. -/
theorem mustBeZero_fields (op : BitVec 8) :
    (mustBeZero op).extractLsb' 47 1 = BitVec.allOnes 1 ∧ (mustBeZero op).extractLsb' 32 8 = BitVec.allOnes 8 ∧
      (op ≠ 3 → (mustBeZero op).extractLsb' 48 8 = BitVec.allOnes 8) ∧
      (op ≠ 1 → op ≠ 2 → (mustBeZero op).extractLsb' 40 7 = BitVec.allOnes 7) ∧
      (op ≠ 1 → op ≠ 3 → op ≠ 4 → (mustBeZero op).extractLsb' 0 32 = BitVec.allOnes 32) := by
  decide +revert

section Fields

variable {w : CmdWord} (hz : w &&& mustBeZero (opField w) = 0)
include hz

theorem idField_eq_zero (h : opField w ≠ 3) : idField w = 0 := by
  obtain ⟨-, -, hid, -, -⟩ := mustBeZero_fields (opField w)
  exact extractLsb'_eq_zero_of_and hz (hid h)

theorem noteField_eq_zero (h₁ : opField w ≠ 1) (h₂ : opField w ≠ 2) : noteField w = 0 := by
  obtain ⟨-, -, -, hnote, -⟩ := mustBeZero_fields (opField w)
  rw [noteField, extractLsb'_eq_zero_of_and hz (hnote h₁ h₂)]
  rfl

theorem immField_eq_zero (h₁ : opField w ≠ 1) (h₃ : opField w ≠ 3) (h₄ : opField w ≠ 4) : immField w = 0 := by
  obtain ⟨-, -, -, -, himm⟩ := mustBeZero_fields (opField w)
  exact extractLsb'_eq_zero_of_and hz (himm h₁ h₃ h₄)

/-- A word whose must-be-zero bits are zero is format C of its fields. -/
theorem formatC_fields : formatC (opField w) (idField w) (noteField w) (immField w) = w := by
  obtain ⟨hrsv1, hrsv0, -⟩ := mustBeZero_fields (opField w)
  have hnote : (noteField w).truncate 7 = w.extractLsb' 40 7 := BitVec.setWidth_setWidth_of_le _ (by decide)
  rw [formatC, hnote, opField, idField, immField, ← extractLsb'_eq_zero_of_and hz hrsv1,
    ← extractLsb'_eq_zero_of_and hz hrsv0]
  iterate 5 rw [BitVec.extractLsb'_append_extractLsb'_eq_extractLsb' (by decide)]
  exact BitVec.extractLsb'_eq_self

end Fields

theorem noteFits_noteField (w : CmdWord) : noteFits (noteField w) = true := by
  have := (w.extractLsb' 40 7).isLt
  simp only [noteFits, noteField, decide_eq_true_eq, BitVec.toNat_setWidth]
  omega

/-! ### The command of a word, opcode by opcode (30_encoding.md R92, R94) -/

section CommandOf

variable {w : CmdWord}

theorem commandOf_nop (h : opField w = 0) : commandOf w = .cmd .nop := by
  rw [commandOf, h]
  rfl

theorem commandOf_noteOn (h : opField w = 1) : commandOf w = .cmd (.noteOn (noteField w) (immField w)) := by
  rw [commandOf, h]
  rfl

theorem commandOf_noteOff (h : opField w = 2) : commandOf w = .cmd (.noteOff (noteField w)) := by
  rw [commandOf, h]
  rfl

theorem commandOf_setParam {i : Instr} (h : opField w = 3) (hi : setCommand (idField w) (immField w) = some i) :
    commandOf w = .cmd i := by
  rw [commandOf, h]
  simp [hi]

theorem commandOf_badParamId (h : opField w = 3) (hi : setCommand (idField w) (immField w) = none) :
    commandOf w = .reject .badParamId := by
  rw [commandOf, h]
  simp [hi]

theorem commandOf_render (h : opField w = 4) : commandOf w = .cmd (.render (immField w)) := by
  rw [commandOf, h]
  rfl

theorem commandOf_reset (h : opField w = 5) : commandOf w = .cmd .reset := by
  rw [commandOf, h]
  rfl

end CommandOf

theorem setCommand_none {id : BitVec 8} (h : 5 < id.toNat) (v : F32) : setCommand id v = none := by
  obtain ⟨k, hk⟩ := Nat.exists_eq_add_of_le' (show 6 ≤ id.toNat from h)
  rw [setCommand, hk]
  rfl

/-- A parameter number of at most 5 names a command, whose word has the number in its ID. -/
theorem setCommand_some {id : BitVec 8} (h : id.toNat ≤ 5) (v : F32) :
    ∃ i, setCommand id v = some i ∧ i.wellFormed = true ∧ encode i = formatC 0x03 id 0 v := by
  have hid : id = BitVec.ofNat 8 id.toNat := by rw [BitVec.ofNat_toNat, BitVec.setWidth_eq]
  interval_cases id.toNat <;> subst hid <;> exact ⟨_, rfl, rfl, rfl⟩

/-- The allocated opcodes. -/
theorem opcode_cases {op : BitVec 8} (h : op.toNat ≤ 5) : op = 0 ∨ op = 1 ∨ op = 2 ∨ op = 3 ∨ op = 4 ∨ op = 5 := by
  have hop : op = BitVec.ofNat 8 op.toNat := by rw [BitVec.ofNat_toNat, BitVec.setWidth_eq]
  interval_cases op.toNat <;> simp [hop]

/-- Past the first two checks a word has an unknown parameter number, or a command whose one encoding it is. -/
theorem commandOf_cases {w : CmdWord} (hop : (opField w).toNat ≤ 5) (hz : w &&& mustBeZero (opField w) = 0) :
    (opField w = 3 ∧ 5 < (idField w).toNat ∧ commandOf w = .reject .badParamId) ∨
      ((opField w = 3 → (idField w).toNat ≤ 5) ∧ ∃ i, commandOf w = .cmd i ∧ i.wellFormed = true ∧ encode i = w) := by
  have hid := idField_eq_zero hz
  have hnote := noteField_eq_zero hz
  have himm := immField_eq_zero hz
  have hw := formatC_fields hz
  rcases opcode_cases hop with h | h | h | h | h | h <;> simp only [h, ne_eq, BitVec.reduceEq, not_false_eq_true,
    not_true_eq_false, forall_const, IsEmpty.forall_iff, true_and, false_and, false_or] at hid hnote himm ⊢
  · exact ⟨_, commandOf_nop h, rfl, .trans (by rw [h, hid, hnote, himm]; rfl) hw⟩
  · exact ⟨_, commandOf_noteOn h, noteFits_noteField w, .trans (by rw [h, hid]; rfl) hw⟩
  · exact ⟨_, commandOf_noteOff h, noteFits_noteField w, .trans (by rw [h, hid, himm]; rfl) hw⟩
  · by_cases hle : (idField w).toNat ≤ 5
    · obtain ⟨i, hi, hwf, henc⟩ := setCommand_some hle (immField w)
      exact .inr ⟨hle, i, commandOf_setParam h hi, hwf, .trans (by rw [h, henc, hnote]) hw⟩
    · have hlt := Nat.not_le.1 hle
      exact .inl ⟨hlt, commandOf_badParamId h (setCommand_none hlt _)⟩
  · exact ⟨_, commandOf_render h, rfl, .trans (by rw [h, hid, hnote]; rfl) hw⟩
  · exact ⟨_, commandOf_reset h, rfl, .trans (by rw [h, hid, hnote, himm]; rfl) hw⟩

/-! ### Decoding, one outcome per word (30_encoding.md R99) -/

section Decode

open Machine

variable {w : CmdWord}

theorem decode_unknownOp (h : 5 < (opField w).toNat) : decode w = .reject .unknownOp := if_pos h

theorem decode_reservedNonzero (hop : (opField w).toNat ≤ 5) (h : ¬ReservedBitsZero w) :
    decode w = .reject .reservedNonzero := by
  rw [decode, if_neg (Nat.not_lt.2 hop), if_pos (mt (reservedBitsZero_iff w).2 h)]

theorem decode_eq_commandOf (hop : (opField w).toNat ≤ 5) (h : ReservedBitsZero w) : decode w = commandOf w := by
  rw [decode, if_neg (Nat.not_lt.2 hop), if_neg (not_not.2 ((reservedBitsZero_iff w).1 h))]

/-- What a word decodes to, with the checks in their order: one of three causes, or a command whose one encoding it is. -/
theorem decode_cases (w : CmdWord) :
    (5 < (opField w).toNat ∧ decode w = .reject .unknownOp) ∨
    ((opField w).toNat ≤ 5 ∧ ¬ReservedBitsZero w ∧ decode w = .reject .reservedNonzero) ∨
    (opField w = 3 ∧ ReservedBitsZero w ∧ 5 < (idField w).toNat ∧ decode w = .reject .badParamId) ∨
    ((opField w).toNat ≤ 5 ∧ ReservedBitsZero w ∧ (opField w = 3 → (idField w).toNat ≤ 5) ∧
      ∃ i, decode w = .cmd i ∧ i.wellFormed = true ∧ encode i = w) := by
  by_cases hop : (opField w).toNat ≤ 5
  · by_cases hr : ReservedBitsZero w
    · rw [decode_eq_commandOf hop hr]
      rcases commandOf_cases hop ((reservedBitsZero_iff w).1 hr) with ⟨h, hid, hc⟩ | ⟨hid, hi⟩
      · exact .inr (.inr (.inl ⟨h, hr, hid, hc⟩))
      · exact .inr (.inr (.inr ⟨hop, hr, hid, hi⟩))
    · exact .inr (.inl ⟨hop, hr, decode_reservedNonzero hop hr⟩)
  · exact .inl ⟨Nat.not_le.1 hop, decode_unknownOp (Nat.not_le.1 hop)⟩

/-- An accepted word is the one encoding of its instruction. -/
theorem encode_decode {i : Instr} (h : decode w = .cmd i) : i.wellFormed = true ∧ encode i = w := by
  rcases decode_cases w with ⟨-, hd⟩ | ⟨-, -, hd⟩ | ⟨-, -, -, hd⟩ | ⟨-, -, -, j, hd, hj⟩ <;> rw [hd] at h <;> cases h
  exact hj

end Decode

/-! ### The opcode table -/

/-- No word has the bits of two rows. -/
theorem opcodeTable_disjoint : opcodeTable.Pairwise fun r r' => r.pattern &&& r'.mask ≠ r'.pattern &&& r.mask := by
  decide

/-- Where a row has the opcode of `SET_*`, it has the parameter number too, and the number is an allocated one. -/
theorem opcodeTable_idField : ∀ r ∈ opcodeTable, opField r.pattern = 3 →
    idField r.mask = BitVec.allOnes 8 ∧ (idField r.pattern).toNat ≤ 5 := by
  decide

theorem Row.selects_iff (r : Row) (w : CmdWord) : r.selects w = true ↔ w &&& r.mask = r.pattern := beq_iff_eq

theorem Row.selects_encode (i : Instr) : (rowOf i).selects (encode i) = true :=
  ((rowOf i).selects_iff _).2 (encode_and_rowMask i)

/-- Two rows that a word selects have the same pattern under each other's masks. -/
theorem Row.patterns_agree {r r' : Row} {w : CmdWord} (h : r.selects w = true) (h' : r'.selects w = true) :
    r.pattern &&& r'.mask = r'.pattern &&& r.mask := by
  rw [← (r.selects_iff w).1 h, ← (r'.selects_iff w).1 h', BitVec.and_assoc, BitVec.and_comm r.mask, BitVec.and_assoc]

/-- A word selects no row but its own. -/
theorem filter_selects_eq_singleton {r : Row} {w : CmdWord} (hr : r ∈ opcodeTable) (h : r.selects w = true) :
    opcodeTable.filter (fun r => r.selects w) = [r] := by
  have hmem : r ∈ opcodeTable.filter (fun r => r.selects w) := List.mem_filter.2 ⟨hr, h⟩
  have hpair := opcodeTable_disjoint.filter (fun r => r.selects w)
  have hsel : ∀ r' ∈ opcodeTable.filter (fun r => r.selects w), r'.selects w = true :=
    fun _ h' => (List.mem_filter.1 h').2
  generalize opcodeTable.filter (fun r => r.selects w) = rows at hmem hpair hsel
  match rows with
  | [] => cases hmem
  | [a] => rw [List.mem_singleton.1 hmem]
  | a :: b :: rows =>
    exact absurd (Row.patterns_agree (hsel a (by simp)) (hsel b (by simp))) (List.rel_of_pairwise_cons hpair (by simp))

/-- A word that selects a row is accepted. -/
theorem decode_of_selects {r : Row} {w : CmdWord} (hr : r ∈ opcodeTable) (h : r.selects w = true) :
    ∃ i, decode w = .cmd i := by
  obtain ⟨hmaskOp, hpatOp, hmbz, hpatZero⟩ := opcodeTable_mustBeZero r hr
  have hsel := (r.selects_iff w).1 h
  have hop : opField w = opField r.pattern := by
    rw [← hsel, opField, opField, BitVec.extractLsb'_and, ← opField, ← opField, hmaskOp, BitVec.and_allOnes]
  have hz : w &&& mustBeZero (opField w) = 0 := by rw [hop, ← hmbz, ← BitVec.and_assoc, hsel, hpatZero]
  have hid : opField w = 3 → (idField w).toNat ≤ 5 := by
    intro h3
    obtain ⟨hmaskId, hpatId⟩ := opcodeTable_idField r hr (hop ▸ h3)
    rw [← hsel, idField, BitVec.extractLsb'_and, ← idField, ← idField, hmaskId, BitVec.and_allOnes] at hpatId
    exact hpatId
  rcases decode_cases w with ⟨h5, -⟩ | ⟨-, hr, -⟩ | ⟨h3, -, h5, -⟩ | ⟨-, -, -, i, hi, -⟩
  · exact absurd (hop ▸ hpatOp) (Nat.not_le.2 h5)
  · exact absurd ((reservedBitsZero_iff w).2 hz) hr
  · exact absurd (hid h3) (Nat.not_le.2 h5)
  · exact ⟨i, hi⟩

end Sys2Proof

namespace Sys2Proof.Machine

/-! ### The statements about the encoding -/

/-- Settles O1. -/
theorem decodeInvertsEncode : Obligations.DecodeInvertsEncode :=
  fun _ h => decode_encode h

/-- Settles O2, since an accepted word is format C of its fields. -/
theorem encodeInvertsDecode : Obligations.EncodeInvertsDecode :=
  fun _ _ h => encode_decode h

/-- Settles O3, from the one outcome of each word and the rows' disjoint patterns. -/
theorem decodingIsTotalInTheOrderOfChecks : Obligations.DecodingIsTotalInTheOrderOfChecks := by
  unfold Obligations.DecodingIsTotalInTheOrderOfChecks
  intro w
  refine ⟨decode_unknownOp, decode_reservedNonzero, fun hop hr hid => ?_, fun hop hr hid => ?_, fun c hc => ?_⟩
  · have h3 : opField w = 3 := BitVec.eq_of_toNat_eq hop
    rw [decode_eq_commandOf (hop.trans_le (by decide)) hr]
    exact commandOf_badParamId h3 (setCommand_none hid _)
  · rcases decode_cases w with ⟨h5, -⟩ | ⟨-, hnr, -⟩ | ⟨h3, -, h5, -⟩ | ⟨-, -, -, i, hi, -, henc⟩
    · exact absurd hop (Nat.not_le.2 h5)
    · exact absurd hr hnr
    · exact absurd (hid (congrArg BitVec.toNat h3)) (Nat.not_le.2 h5)
    · exact ⟨i, hi, filter_selects_eq_singleton (rowOf_mem i) (henc ▸ Row.selects_encode i),
        fun s h => exec_of_not_admitted h s⟩
  · refine List.filter_eq_nil_iff.2 fun r hr hsel => ?_
    obtain ⟨i, hi⟩ := decode_of_selects hr hsel
    cases hc.symm.trans hi

/-- Settles O4, opcode by opcode. -/
theorem commandsTakeTheirFields : Obligations.CommandsTakeTheirFields := by
  unfold Obligations.CommandsTakeTheirFields
  intro w hr
  have hd {op : BitVec 8} (hop : opField w = op) (hle : op.toNat ≤ 5) : decode w = commandOf w :=
    decode_eq_commandOf (hop ▸ hle) hr
  have hset {id : BitVec 8} {i : Instr} (hop : opField w = 3) (hid : idField w = id)
      (hi : setCommand id (immField w) = some i) : decode w = .cmd i :=
    (hd hop (by decide)).trans (commandOf_setParam hop (hid ▸ hi))
  exact ⟨fun h => (hd h (by decide)).trans (commandOf_nop h),
    fun h => (hd h (by decide)).trans (commandOf_noteOn h),
    fun h => (hd h (by decide)).trans (commandOf_noteOff h),
    fun h => ⟨fun hid => hset h hid rfl, fun hid => hset h hid rfl, fun hid => hset h hid rfl,
      fun hid => hset h hid rfl, fun hid => hset h hid rfl, fun hid => hset h hid rfl⟩,
    fun h => (hd h (by decide)).trans (commandOf_render h),
    fun h => (hd h (by decide)).trans (commandOf_reset h)⟩

/-- Settles O5: each word and each line evaluates to what R103 gives for it. -/
theorem workedEncodingsDecode : Obligations.WorkedEncodingsDecode := by
  unfold Obligations.WorkedEncodingsDecode
  iterate 18 refine ⟨by decide, ?_⟩
  exact ⟨exec_of_not_admitted (by decide), by decide +kernel⟩

end Sys2Proof.Machine
end

section
/-! `ALL_NOTES_OFF` (30_encoding.md R102): a list of `NOTE_OFF`s acts on each voice alone, and one that names every note
releases every active voice. -/

namespace Sys2Proof.Machine

/-! ### A list of `NOTE_OFF`s, voice by voice (43_pool_commands.md R203) -/

/-- What `NOTE_OFF note` makes of one voice. -/
def noteOffVoice (g : Globals) (note : BitVec 8) (v : Voice) : Voice :=
  if holdsNote note v then releaseVoice g v else v

/-- What a list of `NOTE_OFF`s makes of one voice. -/
def notesOffVoice (g : Globals) (notes : List (BitVec 8)) (v : Voice) : Voice :=
  notes.foldl (fun v note => noteOffVoice g note v) v

theorem State.mapVoices_mapVoices (s : State) (f f' : Voice → Voice) :
    (s.mapVoices f).mapVoices f' = s.mapVoices (f' ∘ f) := by
  simp [State.mapVoices, mapBank_mapBank]

theorem State.mapVoices_id (s : State) : s.mapVoices id = s := by
  simp [State.mapVoices, mapBank_eq_map]

theorem commandEffect_noteOff {note : BitVec 8} (h : noteFits note = true) (s : State) :
    commandEffect s (encode (.noteOff note)) = s.mapVoices (noteOffVoice s.g note) := by
  rw [commandEffect, decode_encode (i := .noteOff note) h]
  rfl

theorem commandsEffect_notesOff {notes : List (BitVec 8)} (h : ∀ note ∈ notes, noteFits note = true) (s : State) :
    commandsEffect s (notes.map fun note => encode (.noteOff note)) = s.mapVoices (notesOffVoice s.g notes) := by
  induction notes generalizing s with
  | nil => exact s.mapVoices_id.symm
  | cons note notes ih =>
    obtain ⟨hnote, hnotes⟩ := List.forall_mem_cons.1 h
    rw [List.map_cons, commandsEffect, List.foldl_cons, ← commandsEffect, commandEffect_noteOff hnote, ih hnotes,
      State.mapVoices_mapVoices]
    rfl

/-! ### One voice -/

section Voice

variable (g : Globals) (v : Voice)

@[simp] theorem releaseVoice_active : (releaseVoice g v).active = v.active := by
  rcases releaseVoice_cases g v with ⟨-, -, e⟩ | ⟨-, e⟩ <;> rw [e]

@[simp] theorem releaseVoice_note : (releaseVoice g v).note = v.note := (releaseVoice_identity g v).1

theorem releaseVoice_envState {v : Voice} (h : v.active = true) : (releaseVoice g v).envState = .release := by
  rcases releaseVoice_cases g v with ⟨-, -, e⟩ | ⟨hv, e⟩
  · rw [e]
  · rw [e]
    exact hv.resolve_left (by simp [h])

theorem noteOffVoice_inactive {v : Voice} (h : v.active = false) (note : BitVec 8) : noteOffVoice g note v = v := by
  simp [noteOffVoice, holdsNote, h]

theorem notesOffVoice_inactive {v : Voice} (h : v.active = false) (notes : List (BitVec 8)) :
    notesOffVoice g notes v = v := by
  induction notes with
  | nil => rfl
  | cons note notes ih => rw [notesOffVoice, List.foldl_cons, noteOffVoice_inactive g h, ← notesOffVoice, ih]

/-- An active voice stays active on its note; it is in Release after its note's `NOTE_OFF`, and stays there. -/
theorem noteOffVoice_active {v : Voice} (h : v.active = true) (note : BitVec 8) :
    (noteOffVoice g note v).active = true ∧ (noteOffVoice g note v).note = v.note ∧
      (v.envState = .release ∨ v.note.zeroExtend 8 = note → (noteOffVoice g note v).envState = .release) := by
  unfold noteOffVoice
  split
  · exact ⟨by simp [h], by simp, fun _ => releaseVoice_envState g h⟩
  · rename_i hn
    exact ⟨h, rfl, fun hr => hr.resolve_right fun he => hn (by simp [holdsNote, h, he])⟩

/-- `NOTE_OFF`s that name the note of an active voice put it in Release. -/
theorem notesOffVoice_active {v : Voice} {notes : List (BitVec 8)} (h : v.active = true)
    (hr : v.envState = .release ∨ v.note.zeroExtend 8 ∈ notes) :
    (notesOffVoice g notes v).active = true ∧ (notesOffVoice g notes v).envState = .release := by
  induction notes generalizing v with
  | nil => exact ⟨h, hr.resolve_right List.not_mem_nil⟩
  | cons note notes ih =>
    obtain ⟨hactive, hnote, hrelease⟩ := noteOffVoice_active g h note
    refine ih hactive ?_
    rw [hnote]
    rcases hr with hr | hr
    · exact .inl (hrelease (.inl hr))
    · exact (List.mem_cons.1 hr).imp_left fun he => hrelease (.inr he)

end Voice

/-! ### Every note -/

/-- The notes that `ALL_NOTES_OFF` names, in order. -/
def allNotes : List (BitVec 8) := (List.range 128).map (BitVec.ofNat 8)

theorem expand_allNotesOff : (expand .allNotesOff).map encode = allNotes.map fun note => encode (.noteOff note) := by
  simp [expand, allNotes]

theorem noteFits_of_mem_allNotes : ∀ note ∈ allNotes, noteFits note = true := by
  intro note h
  obtain ⟨n, hn, rfl⟩ := List.mem_map.1 h
  have hlt : n < 128 := List.mem_range.1 hn
  simp only [noteFits, decide_eq_true_eq, BitVec.toNat_ofNat]
  omega

theorem zeroExtend_mem_allNotes (note : BitVec 7) : note.zeroExtend 8 ∈ allNotes :=
  List.mem_map.2 ⟨note.toNat, List.mem_range.2 note.isLt, BitVec.ofNat_toNat _ _⟩

/-- Settles O16: each voice's own note is one of the 128. -/
theorem allNotesOffReleasesEveryVoice : Obligations.AllNotesOffReleasesEveryVoice := by
  unfold Obligations.AllNotesOffReleasesEveryVoice
  intro s
  rw [expand_allNotesOff, commandsEffect_notesOff noteFits_of_mem_allNotes]
  refine ⟨rfl, fun i => ⟨fun h => ?_, fun h => ?_⟩⟩
  · rw [State.mapVoices_voices, mapBank_get]
    exact notesOffVoice_active s.g h (.inr (zeroExtend_mem_allNotes _))
  · rw [State.mapVoices_voices, mapBank_get]
    exact notesOffVoice_inactive s.g h _

end Sys2Proof.Machine
end

section
/-! The voice operations one call at a time (40_voice.md): a trigger, a repeated release, one `render_sample` and the first one
after a trigger, and the watchdog that ends every voice that is only rendered. -/

namespace Sys2Proof.Machine

/-! ### trigger and release (40_voice.md R122, R124) -/

/-- Settles O11, since `trigger` is the record of R122. -/
theorem triggerWritesEveryField : Obligations.TriggerWritesEveryField := by
  unfold Obligations.TriggerWritesEveryField
  exact fun _ _ _ => rfl

theorem exec_noteOff (note : BitVec 8) (s : State) :
    exec (.noteOff note) s = .next (s.mapVoices (noteOffVoice s.g note)) := rfl

theorem releaseVoice_of_release (g : Globals) {v : Voice} (h : v.envState = .release) : releaseVoice g v = v := by
  rcases releaseVoice_cases g v with ⟨-, hne, -⟩ | ⟨-, e⟩
  · exact absurd h hne
  · exact e

/-- A released voice holds its note and is in Release, where a second release does nothing. -/
theorem noteOffVoice_noteOffVoice (g : Globals) (note : BitVec 8) (v : Voice) :
    noteOffVoice g note (noteOffVoice g note v) = noteOffVoice g note v := by
  cases ha : v.active with
  | false => rw [noteOffVoice_inactive g ha, noteOffVoice_inactive g ha]
  | true =>
    cases hh : holdsNote note v with
    | false => simp [noteOffVoice, hh]
    | true =>
      have hrel : noteOffVoice g note v = releaseVoice g v := by simp [noteOffVoice, hh]
      rw [hrel, noteOffVoice, releaseVoice_of_release g (releaseVoice_envState g ha), ite_self]

/-- Settles O14, voice by voice: `NOTE_OFF` acts on each voice alone and writes no global register. -/
theorem noteOffIsIdempotent : Obligations.NoteOffIsIdempotent := by
  unfold Obligations.NoteOffIsIdempotent
  intro s note
  refine ⟨_, exec_noteOff note s, ?_⟩
  rw [exec_noteOff, State.mapVoices_g, State.mapVoices_mapVoices]
  congr 2
  exact funext (noteOffVoice_noteOffVoice s.g note)

/-! ### One call of `render_sample` (40_voice.md R126 to R130) -/

section RenderSample

variable {g : Globals} {v : Voice}

theorem renderSample_inactive (h : v.active = false) : renderSample g v = { sample := c0, voice := v } := by
  simp [renderSample, h]

theorem renderSample_watchdog (ha : v.active = true) (hw : watchdogFires g v = true) :
    renderSample g v = { sample := c0, voice := forceIdle { v with age := v.age + 1 } } := by
  simp [renderSample, ha, hw]

theorem renderSample_advance (ha : v.active = true) (hw : watchdogFires g v = false) :
    renderSample g v =
      { sample := voiceSample v
        voice := envStep g.sr { v with age := v.age + 1, phase := advancePhase v.phase v.phaseInc } } := by
  simp [renderSample, ha, hw]

theorem watchdogFires_iff (h : f32IsFinite g.ageLimit = true) :
    watchdogFires g v = true ↔ f32ToRat g.ageLimit < ((v.age + 1).toNat : ℚ) :=
  natGtF32_iff_toRat _ h

/-- A voice still active after a call was active before it, and its new age is within the limit. -/
theorem renderSample_still_active (h : (renderSample g v).voice.active = true) :
    v.active = true ∧ watchdogFires g v = false ∧ (renderSample g v).voice.age = v.age + 1 := by
  rcases renderSample_cases g v with ⟨hi, e⟩ | ⟨-, -, e⟩ | ⟨ha, hw, e⟩
  · rw [e, hi] at h
    exact absurd h Bool.false_ne_true
  · rw [e] at h
    exact absurd h Bool.false_ne_true
  · obtain ⟨-, -, -, -, -, -, -, -, -, -, hage⟩ :=
      envStep_frame { v with age := v.age + 1, phase := advancePhase v.phase v.phaseInc } g.sr
    exact ⟨ha, hw, by rw [e, hage]⟩

end RenderSample

/-- Settles O29, by the three cases of `render_sample`, the watchdog's comparison read by exact values. -/
theorem renderSampleFollowsItsSteps : Obligations.RenderSampleFollowsItsSteps := by
  unfold Obligations.RenderSampleFollowsItsSteps
  intro g v hlimit
  refine ⟨renderSample_inactive, fun ha hw => ?_, fun ha hw => ?_⟩
  · exact renderSample_watchdog ha ((watchdogFires_iff hlimit).2 hw)
  · have hfires : watchdogFires g v = false := by
      rw [← Bool.not_eq_true, watchdogFires_iff hlimit]
      exact not_lt.2 hw
    rw [renderSample_advance ha hfires]
    exact ⟨rfl, rfl⟩

/-! ### The first sample of a note (40_voice.md R130, 70_reset_and_hazards.md R273) -/

/-- The age limit of an admitted rate holds at least one sample. -/
theorem one_le_ageLimitOf {sr : F32} (h : rateAdmitted sr = true) : natGtF32 1 (ageLimitOf sr) = false := by
  obtain ⟨hf, -, hmin, -⟩ := rate_range h
  obtain ⟨hn, h0, -⟩ := ageLimitOf_range h
  have h30 : f32IsFinite ageSeconds = true := by decide
  have hmag : f32Mag c1 ≤ f32Mag (ageLimitOf sr) := by
    rw [ageLimitOf, f32Mag_mul_finite hf h30]
    refine le_roundMag_of_le (by positivity) (by decide) ?_
    calc magUnits (f32Mag c1) * 2 ^ 149 ≤ magUnits (f32Mag c1) * magUnits (f32Mag ageSeconds) := by decide +kernel
      _ ≤ magUnits (f32Mag sr) * magUnits (f32Mag ageSeconds) := Nat.mul_le_mul_right _ (magUnits_le_iff.2 hmin)
  have hunits := magUnits_le_iff.2 hmag
  rw [magUnits_one] at hunits
  rw [← Bool.not_eq_true, natGtF32_iff 1 hn, f32Units_of_nonneg h0]
  omega

/-- The product with a zero is a zero. -/
theorem f32Mag_mul_zero_right {a b : F32} (ha : f32IsFinite a = true) (hb : f32Mag b = 0) : f32Mag (f32Mul a b) = 0 := by
  rw [f32Mag_mul_finite ha (f32IsFinite_of_zero hb), hb, magUnits_zero, Nat.mul_zero, roundMag_zero (by positivity)]

/-- The sample of a voice at level zero is a zero, whatever its wave, when phase and velocity are in range. -/
theorem voiceSample_of_level_zero {v : Voice} (hp : f32Mag v.phase ≤ phaseBound) (hv : UnitValue v.velocity)
    (hl : f32Mag v.envLevel = 0) : f32Mag (voiceSample v) = 0 := by
  have hwave := f32IsFinite_of_mag_le (f32Mag_wave_le v.waveform hp) (by decide)
  exact f32Mag_mul_zero_right (f32Mag_mul_le hwave hv.mag_le).1 hl

/-- A zero attack, of either sign, has the increment 1.0. -/
theorem attackInc_of_zero {a : F32} (h : f32Mag a = 0) (sr : F32) : attackInc a sr = c1 := by
  have heq : f32Eq a c0 = true := by
    rw [f32Eq_of_notNaN (f32NotNaN_of_finite (f32IsFinite_of_zero h)) rfl, (f32Units_eq_zero_iff a).2 h]
    rfl
  rw [attackInc, if_pos heq]

/-- An Attack step with increment 1.0 from level zero reaches 1.0 and goes on to Decay. -/
theorem envStep_attack_full (sr : F32) {v : Voice} (hs : v.envState = .attack) (hl : v.envLevel = c0)
    (hi : v.envInc = c1) : (envStep sr v).envState = .decay ∧ (envStep sr v).envLevel = c1 := by
  have hfull : f32Ge (rampedLevel v) c1 = true := by
    rw [rampedLevel, hl, hi]
    decide
  simp [envStep, attackStep, hs, hfull]

/-- Settles O33: a trigger leaves phase and level zero, and its voice's first age of 1 is within every admitted limit. -/
theorem firstSampleIsASignedZero : Obligations.FirstSampleIsASignedZero := by
  unfold Obligations.FirstSampleIsASignedZero
  intro g n vel hr hlimit hvel
  have hfires : watchdogFires g (triggerVoice g n vel) = false := by
    rw [watchdogFires, hlimit]
    exact one_le_ageLimitOf hr
  rw [renderSample_advance rfl hfires]
  refine ⟨voiceSample_of_level_zero (Nat.zero_le _) hvel rfl, fun hattack => ?_⟩
  exact envStep_attack_full g.sr rfl rfl (attackInc_of_zero hattack g.sr)

/-! ### The watchdog ends every voice (40_voice.md R127, 60_exceptions.md R248) -/

theorem renderTimes_succ (g : Globals) (k : Nat) (v : Voice) :
    renderTimes g (k + 1) v = (renderSample g (renderTimes g k v)).voice :=
  Function.iterate_succ_apply' _ k v

/-- A voice still active after `k` calls has aged by `k`, to an age that the limit holds. -/
theorem renderTimes_still_active {g : Globals} {v : Voice} {k : Nat} (hk : v.age.toNat + k < 2 ^ 32)
    (h : (renderTimes g k v).active = true) :
    (renderTimes g k v).age.toNat = v.age.toNat + k ∧ (k ≠ 0 → natGtF32 (v.age.toNat + k) g.ageLimit = false) := by
  induction k with
  | zero => exact ⟨rfl, fun h0 => absurd rfl h0⟩
  | succ k ih =>
    rw [renderTimes_succ] at h ⊢
    obtain ⟨hactive, hfires, hage⟩ := renderSample_still_active h
    obtain ⟨hprev, -⟩ := ih (by omega) hactive
    have hnext : ((renderTimes g k v).age + 1).toNat = v.age.toNat + (k + 1) := by
      rw [BitVec.toNat_add_of_lt (by simp; omega), hprev]
      rfl
    rw [watchdogFires, hnext] at hfires
    exact ⟨by rw [hage, hnext], fun _ => hfires⟩

/-- Settles O35: after 30000001 calls the age of a voice still active would be above every admitted limit. -/
theorem everyVoiceEndsByTheWatchdog : Obligations.EveryVoiceEndsByTheWatchdog := by
  unfold Obligations.EveryVoiceEndsByTheWatchdog
  intro g v hr hlimit hage
  refine ⟨30000001, le_rfl, eq_false_of_ne_true fun hactive => ?_⟩
  obtain ⟨-, hheld⟩ := renderTimes_still_active (by omega) hactive
  have := le_of_natGtF32_ageLimit ⟨hr, hlimit⟩ (hheld (by decide))
  omega

end Sys2Proof.Machine
end

section
/-! The frequency ROM (40_voice.md R121): a value whose midpoints with its two neighbours enclose a real number is nearest to
it, and whether they enclose `440·2^((n−69)/12)` is a comparison of twelfth powers, which are whole numbers. -/

namespace Sys2Proof.Machine

/-! ### Nearest by midpoints -/

/-- No value lies strictly between a magnitude's value and either neighbour's. -/
theorem f32Units_neighbours (m : Nat) (c : F32) :
    f32Units c ≤ magUnits (m - 1) ∨ f32Units c = magUnits m ∨ (magUnits (m + 1) : Int) ≤ f32Units c := by
  have habs := f32Units_abs c
  rcases lt_trichotomy (f32Mag c) m with hlt | heq | hgt
  · have := magUnits_le_iff.2 (Nat.le_sub_one_of_lt hlt)
    exact .inl (by omega)
  · rw [heq] at habs
    omega
  · have := magUnits_le_iff.2 (show m + 1 ≤ f32Mag c from hgt)
    omega

/-- A value without a sign is nearest to every number between its midpoints with its neighbours; `t` in units of 2^-149. -/
theorem isNearest_of_midpoints {x : F32} {t : ℝ} (hs : f32Sign x = false)
    (hlo : (magUnits (f32Mag x - 1) + magUnits (f32Mag x) : ℝ) ≤ 2 * t)
    (hhi : 2 * t ≤ (magUnits (f32Mag x) + magUnits (f32Mag x + 1) : ℝ)) : IsNearest x (t / 2 ^ 149) := by
  intro c _
  have scaled (z : F32) : ((f32ToRat z : ℚ) : ℝ) - t / 2 ^ 149 = ((f32Units z : ℝ) - t) / 2 ^ 149 := by
    rw [f32ToRat]
    push_cast
    ring
  rw [scaled, scaled, abs_div, abs_div]
  refine div_le_div_of_nonneg_right (abs_sub_le_abs_sub_iff_mul.2 ?_) (abs_nonneg _)
  rw [f32Units_of_sign_false hs, Int.cast_natCast]
  rcases f32Units_neighbours (f32Mag x) c with hbelow | heq | habove
  · have hc : (f32Units c : ℝ) ≤ magUnits (f32Mag x - 1) := by exact_mod_cast hbelow
    have hlt : (magUnits (f32Mag x - 1) : ℝ) ≤ magUnits (f32Mag x) := by
      exact_mod_cast magUnits_le_iff.2 (Nat.sub_le _ _)
    exact mul_nonpos_of_nonneg_of_nonpos (by linarith) (by linarith)
  · simp [heq]
  · have hc : (magUnits (f32Mag x + 1) : ℝ) ≤ f32Units c := by exact_mod_cast habove
    have hlt : (magUnits (f32Mag x) : ℝ) ≤ magUnits (f32Mag x + 1) := by
      exact_mod_cast magUnits_le_iff.2 (Nat.le_succ _)
    exact mul_nonpos_of_nonpos_of_nonneg (by linarith) (by linarith)

/-! ### The tuning formula -/

/-- The frequency of a note by the tuning formula of 40_voice.md R121. -/
noncomputable def tuning (n : Nat) : ℝ := 440 * 2 ^ (((n : ℝ) - 69) / 12)

theorem tuning_pos (n : Nat) : 0 < tuning n := by
  unfold tuning
  positivity

/-- The twelfth power of a note's frequency is rational. -/
theorem tuning_pow (n : Nat) : tuning n ^ 12 * 2 ^ 69 = 440 ^ 12 * 2 ^ n := by
  have hroot : ((2 : ℝ) ^ (((n : ℝ) - 69) / 12)) ^ 12 * 2 ^ 69 = 2 ^ n := by
    rw [← Real.rpow_natCast, ← Real.rpow_mul (by norm_num), ← Real.rpow_natCast 2 69, ← Real.rpow_natCast 2 n,
      ← Real.rpow_add (by norm_num)]
    congr 1
    push_cast
    ring
  rw [tuning, mul_pow, mul_assoc, hroot]

/-- The twelfth power of twice a note's frequency in units of 2^-149, in which a midpoint is a whole number. -/
theorem two_mul_tuning_pow (n : Nat) : (2 * (tuning n * 2 ^ 149)) ^ 12 * 2 ^ 69 = (880 * 2 ^ 149) ^ 12 * 2 ^ n := by
  linear_combination (2 * 2 ^ 149) ^ 12 * tuning_pow n

/-- Nonnegative numbers compare as their scaled twelfth powers. -/
theorem le_iff_scaled_pow_le {x y : ℝ} (hx : 0 ≤ x) (hy : 0 ≤ y) : x ≤ y ↔ x ^ 12 * 2 ^ 69 ≤ y ^ 12 * 2 ^ 69 := by
  rw [mul_le_mul_iff_left₀ (by positivity), pow_le_pow_iff_left₀ hx hy (by decide)]

section Midpoint

variable {a n : Nat}

theorem le_two_mul_tuning_iff : (a : ℝ) ≤ 2 * (tuning n * 2 ^ 149) ↔ a ^ 12 * 2 ^ 69 ≤ (880 * 2 ^ 149) ^ 12 * 2 ^ n := by
  have hpos := tuning_pos n
  rw [le_iff_scaled_pow_le (Nat.cast_nonneg a) (by positivity), two_mul_tuning_pow]
  exact_mod_cast Iff.rfl

theorem two_mul_tuning_le_iff : 2 * (tuning n * 2 ^ 149) ≤ (a : ℝ) ↔ (880 * 2 ^ 149) ^ 12 * 2 ^ n ≤ a ^ 12 * 2 ^ 69 := by
  have hpos := tuning_pos n
  rw [le_iff_scaled_pow_le (by positivity) (Nat.cast_nonneg a), two_mul_tuning_pow]
  exact_mod_cast Iff.rfl

end Midpoint

/-! ### The entries -/

/-- The twelfth powers of each entry's two midpoints enclose the note's. -/
theorem freqRom_midpoints (n : BitVec 7) :
    (magUnits (f32Mag (freqRom n) - 1) + magUnits (f32Mag (freqRom n))) ^ 12 * 2 ^ 69 ≤
      (880 * 2 ^ 149) ^ 12 * 2 ^ n.toNat ∧
    (880 * 2 ^ 149) ^ 12 * 2 ^ n.toNat ≤
      (magUnits (f32Mag (freqRom n)) + magUnits (f32Mag (freqRom n) + 1)) ^ 12 * 2 ^ 69 := by
  revert n
  decide +kernel

theorem freqRom_nearest (n : BitVec 7) : IsNearest (freqRom n) (tuning n.toNat) := by
  obtain ⟨hlo, hhi⟩ := freqRom_midpoints n
  have h := isNearest_of_midpoints (t := tuning n.toNat * 2 ^ 149) (freqRom_range n).1
    (by exact_mod_cast le_two_mul_tuning_iff.2 hlo) (by exact_mod_cast two_mul_tuning_le_iff.2 hhi)
  rwa [mul_div_cancel_right₀ _ (by positivity)] at h

/-- An octave up adds 1 to the exponent field. -/
theorem freqRom_octaves (n : BitVec 7) :
    (freqRom n).toNat = (freqRom (BitVec.ofNat 7 (n.toNat % 12))).toNat + n.toNat / 12 * 2 ^ 23 := by
  revert n
  decide +kernel

theorem f32ToRat_freqRom_a4 : f32ToRat (freqRom 69) = 440 := by
  have hunits : f32Units (freqRom 69) = 440 * 2 ^ 149 := by decide +kernel
  rw [f32ToRat, hunits]
  norm_num

/-- Settles O44, from the midpoints of each entry, compared with the tuning formula by twelfth powers. -/
theorem frequencyRomIsNearest : Obligations.FrequencyRomIsNearest := by
  unfold Obligations.FrequencyRomIsNearest
  exact ⟨freqRom_nearest, rfl, f32ToRat_freqRom_a4, freqRom_octaves⟩

end Sys2Proof.Machine
end

section
/-! The wave shaper (41_waveform.md). Sine is within [-1, 1] for every finite phase, and square and pulse have the values ±1
only. For saw and triangle the rounded quotient by π is held between whole numbers: from 0 to 2 for the saw and for the
rising half of the triangle, from 2 to 4 for its falling half; so the one subtraction after it stays within [-1, 1]. -/

namespace Sys2Proof.Machine

/-- Settles O36: each clause is the model's arm for that selector. -/
theorem waveformFormulas : Obligations.WaveformFormulas := by
  unfold Obligations.WaveformFormulas
  exact fun θ => ⟨rfl, rfl, rfl, rfl, rfl, rfl, rfl, rfl⟩

/-! ### Magnitudes of at most 1 -/

/-- Magnitude bits up to those of 1.0 are those of the finite values within [-1, 1]. -/
theorem range_of_mag_le_one {x : F32} (h : f32Mag x ≤ f32Mag c1) :
    f32IsFinite x = true ∧ -1 ≤ f32ToRat x ∧ f32ToRat x ≤ 1 := by
  have hone : magToRat (f32Mag c1) = 1 := by
    rw [magToRat, magUnits_one]
    norm_num
  have habs : |f32ToRat x| ≤ 1 := by
    rw [abs_f32ToRat, ← hone]
    exact magToRat_le_iff.2 h
  exact ⟨f32IsFinite_of_mag_le h (by decide), abs_le.1 habs⟩

/-- A difference of finite values that are at most 1 apart has a magnitude of at most 1. -/
theorem f32Mag_sub_le_one {a b : F32} (ha : f32IsFinite a = true) (hb : f32IsFinite b = true)
    (h : |f32Units a - f32Units b| ≤ 2 ^ 149) : f32Mag (f32Sub a b) ≤ f32Mag c1 := by
  obtain ⟨hlo, hhi⟩ := abs_le.1 h
  obtain ⟨-, h₁, h₂⟩ := f32Sub_between (lo := cNeg1) (hi := c1) ha hb rfl rfl
    (by rwa [f32Units_cNeg1]) (by rwa [f32Units_c1])
  rw [f32Units_cNeg1] at h₁
  rw [f32Units_c1] at h₂
  rw [← magUnits_le_iff, magUnits_one, ← f32Units_abs]
  omega

/-- The two values of square and pulse. -/
theorem f32ToRat_one_or_neg_one (high : Bool) :
    f32ToRat (if high then c1 else cNeg1) = 1 ∨ f32ToRat (if high then c1 else cNeg1) = -1 := by
  cases high with
  | true => left; norm_num [f32ToRat]
  | false => right; norm_num [f32ToRat, f32Units_cNeg1]

theorem f32Mag_one_or_neg_one (high : Bool) : f32Mag (if high then c1 else cNeg1) ≤ f32Mag c1 := by
  cases high <;> decide

/-! ### Products and quotients of values in a range -/

/-- A finite value from zero on, with magnitude bits from `lo` to `hi`; a zero may have either sign. -/
structure MagRange (lo hi : Nat) (x : F32) : Prop where
  finite : f32IsFinite x = true
  lower : lo ≤ f32Mag x
  upper : f32Mag x ≤ hi
  sign : f32Sign x = true → f32Mag x = 0

namespace MagRange

variable {lo hi lo' hi' : Nat} {x : F32}

/-- A finite value is in the range when its units are. -/
theorem of_units (hf : f32IsFinite x = true) (h₁ : (magUnits lo : Int) ≤ f32Units x)
    (h₂ : f32Units x ≤ magUnits hi) : MagRange lo hi x := by
  have h0 : 0 ≤ f32Units x := (Int.natCast_nonneg _).trans h₁
  rw [f32Units_of_nonneg h0, Nat.cast_le, magUnits_le_iff] at h₁ h₂
  exact ⟨hf, h₁, h₂, f32Mag_zero_of_sign h0⟩

theorem units (h : MagRange lo hi x) : f32Units x = magUnits (f32Mag x) := by
  cases hs : f32Sign x with
  | false => exact f32Units_of_sign_false hs
  | true => rw [(f32Units_eq_zero_iff x).2 (h.sign hs), h.sign hs, magUnits_zero, Nat.cast_zero]

theorem units_bounds (h : MagRange lo hi x) : (magUnits lo : Int) ≤ f32Units x ∧ f32Units x ≤ magUnits hi := by
  rw [h.units, Nat.cast_le, Nat.cast_le, magUnits_le_iff, magUnits_le_iff]
  exact ⟨h.lower, h.upper⟩

/-- A rounded magnitude, between representable values that its exact value lies between. -/
theorem pack_roundMag {s : Bool} {n d : Nat} (hd : 0 < d) (hs : s = true → n = 0) (hhi : hi < infMag)
    (h₁ : magUnits lo * d ≤ n) (h₂ : n ≤ magUnits hi * d) : MagRange lo hi (f32Pack s (roundMag n d)) := by
  have hends : lo ≤ hi := magUnits_le_iff.1 (Nat.le_of_mul_le_mul_right (h₁.trans h₂) hd)
  have hmag : f32Mag (f32Pack s (roundMag n d)) = roundMag n d := f32Mag_pack s (roundMag_lt n d)
  have hupper : roundMag n d ≤ hi := roundMag_le_of_le hd hhi.le h₂
  refine ⟨(f32IsFinite_pack_iff s (roundMag_lt n d)).2 (by omega), ?_, ?_, fun hsign => ?_⟩
  · rw [hmag]
    exact le_roundMag_of_le hd (by omega) h₁
  · rwa [hmag]
  · rw [f32Sign_pack s (roundMag_lt n d)] at hsign
    rw [hmag, hs hsign, roundMag_zero hd]

/-- The double of a value, from the doubles of the two ends. -/
theorem double (h : MagRange lo hi x) (hhi : hi' < infMag)
    (h₁ : magUnits lo' * 2 ^ 149 ≤ magUnits (f32Mag c2) * magUnits lo)
    (h₂ : magUnits (f32Mag c2) * magUnits hi ≤ magUnits hi' * 2 ^ 149) : MagRange lo' hi' (f32Mul c2 x) := by
  rw [f32Mul_finite rfl h.finite]
  refine pack_roundMag (by positivity) (fun hs => ?_) hhi
    (h₁.trans (Nat.mul_le_mul_left _ (magUnits_le_iff.2 h.lower)))
    ((Nat.mul_le_mul_left _ (magUnits_le_iff.2 h.upper)).trans h₂)
  rw [f32SignXor, show f32Sign c2 = false from rfl, Bool.false_bne] at hs
  rw [h.sign hs, magUnits_zero, Nat.mul_zero]

/-- The quotient by π, from the quotients of the two ends. -/
theorem div_pi (h : MagRange lo hi x) (hhi : hi' < infMag)
    (h₁ : magUnits lo' * magUnits (f32Mag pi32) ≤ magUnits lo * 2 ^ 149)
    (h₂ : magUnits hi * 2 ^ 149 ≤ magUnits hi' * magUnits (f32Mag pi32)) : MagRange lo' hi' (f32Div x pi32) := by
  rw [f32Div_finite h.finite rfl (by decide)]
  refine pack_roundMag (by decide) (fun hs => ?_) hhi
    (h₁.trans (Nat.mul_le_mul_right _ (magUnits_le_iff.2 h.lower)))
    ((Nat.mul_le_mul_right _ (magUnits_le_iff.2 h.upper)).trans h₂)
  rw [f32SignXor, show f32Sign pi32 = false from rfl, Bool.bne_false] at hs
  rw [h.sign hs, magUnits_zero, Nat.zero_mul]

end MagRange

/-! ### Saw and triangle -/

/-- The magnitude bits of the largest value below two pi. -/
def magBelowTwoPi : Nat := 0x40C90FDA

/-- The magnitude bits of 4.0. -/
def magFour : Nat := 0x40800000

/-- The magnitude bits of four times π. -/
def magFourPi : Nat := 0x41490FDB

theorem magUnits_two : magUnits (f32Mag c2) = 2 * 2 ^ 149 := by decide

theorem magUnits_four : magUnits magFour = 4 * 2 ^ 149 := by decide

theorem f32Units_c3 : f32Units c3 = 3 * 2 ^ 149 := by decide

section Quotient

variable {q : F32}

/-- A quotient from 0 to 2, less 1. -/
theorem MagRange.mag_sub_one_le (h : MagRange 0 (f32Mag c2) q) : f32Mag (f32Sub q c1) ≤ f32Mag c1 := by
  obtain ⟨hlo, hhi⟩ := h.units_bounds
  rw [magUnits_zero] at hlo
  rw [magUnits_two] at hhi
  refine f32Mag_sub_le_one h.finite rfl ?_
  rw [f32Units_c1, abs_le]
  omega

/-- 3 less a quotient from 2 to 4. -/
theorem MagRange.mag_three_sub_le (h : MagRange (f32Mag c2) magFour q) : f32Mag (f32Sub c3 q) ≤ f32Mag c1 := by
  obtain ⟨hlo, hhi⟩ := h.units_bounds
  rw [magUnits_two] at hlo
  rw [magUnits_four] at hhi
  refine f32Mag_sub_le_one rfl h.finite ?_
  rw [f32Units_c3, abs_le]
  omega

end Quotient

section Phase

variable {θ : F32}

theorem MagRange.mag_waveSaw_le (h : MagRange 0 magBelowTwoPi θ) : f32Mag (waveSaw θ) ≤ f32Mag c1 :=
  (h.div_pi (by decide) (by decide +kernel) (by decide +kernel)).mag_sub_one_le

/-- Below π the quotient of the triangle lies between 0 and 2. -/
theorem MagRange.triangle_rising (h : MagRange 0 (f32Mag pi32) θ) :
    MagRange 0 (f32Mag c2) (f32Div (f32Mul c2 θ) pi32) := by
  have hdouble : MagRange 0 (f32Mag twoPi32) (f32Mul c2 θ) :=
    h.double (by decide) (by decide +kernel) (by decide +kernel)
  exact hdouble.div_pi (by decide) (by decide +kernel) (by decide +kernel)

/-- From π on it lies between 2 and 4. -/
theorem MagRange.triangle_falling (h : MagRange (f32Mag pi32) magBelowTwoPi θ) :
    MagRange (f32Mag c2) magFour (f32Div (f32Mul c2 θ) pi32) := by
  have hdouble : MagRange (f32Mag twoPi32) magFourPi (f32Mul c2 θ) :=
    h.double (by decide) (by decide +kernel) (by decide +kernel)
  exact hdouble.div_pi (by decide) (by decide +kernel) (by decide +kernel)

theorem MagRange.mag_waveTriangle_le (h : MagRange 0 magBelowTwoPi θ) : f32Mag (waveTriangle θ) ≤ f32Mag c1 := by
  have hpi : f32Units pi32 = magUnits (f32Mag pi32) := rfl
  obtain ⟨hlo, hhi⟩ := h.units_bounds
  unfold waveTriangle
  dsimp only
  rw [f32Lt_of_notNaN (f32NotNaN_of_finite h.finite) rfl, hpi]
  split
  next hrise => exact (of_units h.finite hlo (of_decide_eq_true hrise).le).triangle_rising.mag_sub_one_le
  next hfall => exact (of_units h.finite (by simpa using hfall) hhi).triangle_falling.mag_three_sub_le

/-- The bound for every selector, by the model's own arms. -/
theorem MagRange.mag_wave_le (h : MagRange 0 magBelowTwoPi θ) (idx : BitVec 3) :
    f32Mag (wave idx θ) ≤ f32Mag c1 := by
  unfold wave
  split
  · exact sin32_mag h.finite
  · exact f32Mag_one_or_neg_one _
  · exact h.mag_waveSaw_le
  · exact h.mag_waveTriangle_le
  · exact f32Mag_one_or_neg_one _
  · exact sin32_mag h.finite

end Phase

/-- Square and pulse have the values ±1 only, at every phase. -/
theorem f32ToRat_wave_square_or_pulse {idx : BitVec 3} (h : idx = 1 ∨ idx = 4) (θ : F32) :
    f32ToRat (wave idx θ) = 1 ∨ f32ToRat (wave idx θ) = -1 := by
  rcases h with rfl | rfl
  · exact f32ToRat_one_or_neg_one (f32Lt θ pi32)
  · exact f32ToRat_one_or_neg_one (f32Lt θ halfPi32)

/-- Settles O37, from the bound 1.0 on every wave's magnitude and the two values of square and pulse. -/
theorem waveformsStayInRange : Obligations.WaveformsStayInRange := by
  unfold Obligations.WaveformsStayInRange
  intro idx θ hf h0 hlt
  rw [f32ToRat_nonneg_iff] at h0
  have hphase : MagRange 0 magBelowTwoPi θ := .of_units hf h0 (units_le_of_lt_twoPi hf h0 hlt)
  obtain ⟨hfin, hlo, hhi⟩ := range_of_mag_le_one (hphase.mag_wave_le idx)
  exact ⟨hfin, hlo, hhi, fun h => f32ToRat_wave_square_or_pulse h θ⟩

end Sys2Proof.Machine
end

section
/-! The envelope state machine (42_envelope.md): the increment and the step of each state, what a frame and a command can make
of a voice's state (the table of R170), and Sustain, which holds its level until the watchdog. -/

namespace Sys2Proof.Machine

/-! ### The increment and the step of each state (R171 to R180) -/

/-- The increment function is the one that the rules R171 to R175 write out. -/
theorem incFor_eq_incByState (sr : F32) (v : Voice) : incFor sr v = incByState sr v := by
  unfold incFor incByState
  cases v.envState <;> rfl

section EnvStep

variable (sr : F32) {v : Voice}

theorem envStep_idle (h : v.envState = .idle) : envStep sr v = forceIdle v := by
  simp [envStep, h]

theorem envStep_attack (h : v.envState = .attack) : envStep sr v = attackStep sr v := by
  simp [envStep, h]

theorem envStep_decay (h : v.envState = .decay) : envStep sr v = decayStep v := by
  simp [envStep, h]

theorem envStep_sustain (h : v.envState = .sustain) : envStep sr v = { v with envLevel := v.sustain } := by
  simp [envStep, sustainStep, h]

theorem envStep_release (h : v.envState = .release) : envStep sr v = releaseStep v := by
  simp [envStep, h]

end EnvStep

/-- Settles O30: each clause is the model's step of that state, with the constants of 00_scope.md R7 and R17. -/
theorem envelopeIncrementsAndSteps : Obligations.EnvelopeIncrementsAndSteps := by
  unfold Obligations.EnvelopeIncrementsAndSteps
  exact fun sr v => ⟨incFor_eq_incByState sr v, envStep_attack sr, envStep_decay sr, envStep_sustain sr,
    envStep_release sr, envStep_idle sr⟩

/-! ### Every transition (R170) -/

/-- The rows of R170 that a frame makes: the end of Attack, of Decay and of Release, and the watchdog. -/
def FrameTransition (g : Globals) (v w : Voice) : Prop :=
  (v.envState = .attack ∧ w.envState = .decay) ∨
  (v.envState = .decay ∧ w.envState = .sustain) ∨
  (v.envState = .release ∧ w.envState = .idle) ∨
  (v.active = true ∧ watchdogFires g v = true ∧ w.envState = .idle)

/-- The rows of R170 that the command `i` makes: a trigger, a release of the voices that hold the note, and `RESET`. -/
def CommandTransition (i : Instr) (v w : Voice) : Prop :=
  (w.envState = .attack ∧ ∃ note vel, i = .noteOn note vel) ∨
  (v.envState ≠ .idle ∧ w.envState = .release ∧ i = .noteOff (v.note.zeroExtend 8)) ∨
  (w.envState = .idle ∧ i = .reset)

/-- The envelope step keeps the state, or ends Attack, Decay or Release. -/
theorem envStep_envState (sr : F32) (v : Voice) :
    (envStep sr v).envState = v.envState ∨
    (v.envState = .attack ∧ (envStep sr v).envState = .decay) ∨
    (v.envState = .decay ∧ (envStep sr v).envState = .sustain) ∨
    (v.envState = .release ∧ (envStep sr v).envState = .idle) := by
  rcases envStep_cases v sr with ⟨hs, e⟩ | ⟨hs, -, e⟩ | ⟨-, -, e⟩ | ⟨hs, -, e⟩ | ⟨-, -, e⟩ | ⟨-, e⟩ | ⟨hs, -, e⟩ |
    ⟨-, -, e⟩ <;> rw [e]
  · exact .inl hs.symm
  · exact .inr (.inl ⟨hs, rfl⟩)
  · exact .inl rfl
  · exact .inr (.inr (.inl ⟨hs, rfl⟩))
  · exact .inl rfl
  · exact .inl rfl
  · exact .inr (.inr (.inr ⟨hs, rfl⟩))
  · exact .inl rfl

theorem renderSample_envState (g : Globals) (v : Voice) :
    (renderSample g v).voice.envState = v.envState ∨ FrameTransition g v (renderSample g v).voice := by
  rcases renderSample_cases g v with ⟨-, e⟩ | ⟨ha, hw, e⟩ | ⟨-, -, e⟩ <;> rw [e]
  · exact .inl rfl
  · exact .inr (.inr (.inr (.inr ⟨ha, hw, rfl⟩)))
  · rcases envStep_envState g.sr { v with age := v.age + 1, phase := advancePhase v.phase v.phaseInc } with
      hk | ht | ht | ht
    · exact .inl hk
    · exact .inr (.inl ht)
    · exact .inr (.inr (.inl ht))
    · exact .inr (.inr (.inr (.inl ht)))

theorem renderProgress_envState (s : State) (i : Fin 16) :
    (renderProgress s).voices[i].envState = s.voices[i].envState ∨
      FrameTransition s.g s.voices[i] (renderProgress s).voices[i] := by
  rcases renderProgress_get s i with e | e <;> rw [e]
  · exact .inl rfl
  · exact renderSample_envState s.g _

/-- A `NOTE_OFF` keeps a voice's state, or releases a voice that is not Idle and holds the note. -/
theorem noteOffVoice_envState (g : Globals) (note : BitVec 8) {v : Voice} (hv : VoiceIdleOk v) :
    (noteOffVoice g note v).envState = v.envState ∨
      v.envState ≠ .idle ∧ (noteOffVoice g note v).envState = .release ∧ v.note.zeroExtend 8 = note := by
  unfold noteOffVoice
  split
  case isTrue hh =>
    obtain ⟨ha, hnote⟩ : v.active = true ∧ v.note.zeroExtend 8 = note := by simpa [holdsNote] using hh
    exact .inr ⟨hv.envState_ne_idle ha, releaseVoice_envState g ha, hnote⟩
  case isFalse => exact .inl rfl

/-- A command keeps the state of a voice, or makes one of its transitions, or a frame's when it is a `RENDER`. -/
theorem exec_envState {ins : Instr} {s t : State} (h : exec ins s = .next t) (i : Fin 16) (hv : VoiceIdleOk s.voices[i]) :
    t.voices[i].envState = s.voices[i].envState ∨ CommandTransition ins s.voices[i] t.voices[i] ∨
      (∃ k, ins = .render k) ∧ FrameTransition s.g s.voices[i] t.voices[i] := by
  rcases exec_cases h with ⟨-, rfl⟩ | ⟨-, rfl⟩ | ⟨note, vel, rfl, -, rfl⟩ | ⟨note, rfl, rfl⟩ | ⟨g', -, rfl⟩ |
    ⟨v, -, -, rfl⟩ | ⟨v, -, -, rfl⟩ | ⟨k, rfl, rfl⟩ | ⟨rfl, rfl⟩
  · exact .inl rfl
  · exact .inl rfl
  · unfold noteOnEffect
    rw [setVoice_get]
    split
    · exact .inr (.inl (.inl ⟨rfl, note, vel, rfl⟩))
    · exact .inl rfl
  · rw [State.mapVoices_voices, mapBank_get]
    refine (noteOffVoice_envState s.g note hv).imp_right fun ⟨hne, hrel, hnote⟩ => ?_
    exact .inl (.inr (.inl ⟨hne, hrel, by rw [hnote]⟩))
  · rw [propagateAdsr, State.mapVoices_voices, mapBank_get]
    split
    · obtain ⟨-, -, -, -, -, -, hstate, -⟩ := updateAdsr_frame g' s.voices[i]
      exact .inl hstate
    · exact .inl rfl
  · exact .inl rfl
  · exact .inl rfl
  · exact (renderProgress_envState { s with renderLeft := k } i).imp_right fun ht => .inr ⟨⟨k, rfl⟩, ht⟩
  · rw [State.mapVoices_voices, mapBank_get]
    exact .inr (.inl (.inr (.inr ⟨rfl, rfl⟩)))

/-- A step keeps the state of a voice, or makes a frame's transition or one of the command that it takes. -/
theorem step_envState {s t : State} (h : step s = .next t) (i : Fin 16) (hv : VoiceIdleOk s.voices[i]) :
    t.voices[i].envState = s.voices[i].envState ∨
    (NextIsFrame s ∧ FrameTransition s.g s.voices[i] t.voices[i]) ∨
    (∃ ins, NextCommand s ins ∧ CommandTransition ins s.voices[i] t.voices[i]) := by
  rcases step_cases h with ⟨hp, hr, rfl⟩ | ⟨-, rfl⟩ | ⟨w, rest, ins, hp, hr, hf, hd, he⟩ | ⟨w, rest, c, -, -, -, -, rfl⟩
  · exact (renderProgress_envState s i).imp_right fun ht => .inl ⟨.inl ⟨hp, hr⟩, ht⟩
  · exact .inl rfl
  · have hn : NextCommand s ins := ⟨hp, hr, w, rest, hf, hd⟩
    rcases exec_envState he i hv with hk | ht | ⟨⟨k, rfl⟩, ht⟩
    · exact .inl hk
    · exact .inr (.inr ⟨ins, hn, ht⟩)
    · exact .inr (.inl ⟨.inr ⟨k, hn⟩, ht⟩)
  · exact .inl rfl

/-- Settles O31: the transitions of a frame and of a command are the rows of the table. -/
theorem envelopeTransitionsAreTheTables : Obligations.EnvelopeTransitionsAreTheTables := by
  unfold Obligations.EnvelopeTransitionsAreTheTables
  intro s t hidle h i hne
  rcases step_envState h i (hidle i) with hk | ⟨hn, ht | ht | ht | ht⟩ |
    ⟨ins, hn, ⟨hs, note, vel, rfl⟩ | ⟨hs, hs', rfl⟩ | ⟨hs, rfl⟩⟩
  · exact absurd hk hne
  · exact .inr (.inl ⟨hn, ht⟩)
  · exact .inr (.inr (.inl ⟨hn, ht⟩))
  · exact .inr (.inr (.inr (.inr (.inl ⟨hn, ht⟩))))
  · exact .inr (.inr (.inr (.inr (.inr (.inl ⟨hn, ht⟩)))))
  · exact .inl ⟨hs, note, vel, hn⟩
  · exact .inr (.inr (.inr (.inl ⟨hs, hs', _, hn, rfl⟩)))
  · exact .inr (.inr (.inr (.inr (.inr (.inr ⟨hs, hn⟩)))))

/-! ### Sustain (R178) -/

/-- When `n` does not exceed a limit, no smaller integer does. -/
theorem natGtF32_false_of_le {m n : Nat} {x : F32} (hmn : m ≤ n) (h : natGtF32 n x = false) : natGtF32 m x = false := by
  cases hx : f32IsNaN x with
  | true => simp [natGtF32, hx]
  | false =>
    rw [← Bool.not_eq_true, natGtF32_iff _ hx] at h ⊢
    omega

theorem watchdogFires_of_age {g : Globals} {v : Voice} {n : Nat} (hage : v.age.toNat = n) (hn : n + 1 < 2 ^ 32) :
    watchdogFires g v = natGtF32 (n + 1) g.ageLimit := by
  rw [watchdogFires, BitVec.toNat_add_of_lt (by simp; omega), hage]
  rfl

/-- A voice in Sustain within its age limit gets its sustain copy as its level, and keeps its state. -/
theorem renderSample_sustain {g : Globals} {v : Voice} (ha : v.active = true) (hs : v.envState = .sustain)
    (hw : watchdogFires g v = false) :
    (renderSample g v).voice =
      { v with age := v.age + 1, phase := advancePhase v.phase v.phaseInc, envLevel := v.sustain } := by
  rw [renderSample_advance ha hw]
  exact envStep_sustain g.sr hs

/-- The voice is active in Sustain, with the level and the sustain copy `level`. -/
def SustainsAt (level : F32) (v : Voice) : Prop :=
  v.active = true ∧ v.envState = .sustain ∧ v.envLevel = level ∧ v.sustain = level

theorem SustainsAt.renderSample {g : Globals} {v : Voice} {level : F32} (h : SustainsAt level v)
    (hw : watchdogFires g v = false) : SustainsAt level (renderSample g v).voice := by
  obtain ⟨ha, hs, -, hcopy⟩ := h
  rw [renderSample_sustain ha hs hw]
  exact ⟨ha, hs, hcopy, hcopy⟩

/-- A voice in Sustain stays there, at its level, for as many calls as its age limit holds. -/
theorem SustainsAt.renderTimes {g : Globals} {v : Voice} {level : F32} {k : Nat} (h : SustainsAt level v)
    (hk : v.age.toNat + k < 2 ^ 32) (hlimit : natGtF32 (v.age.toNat + k) g.ageLimit = false) :
    SustainsAt level (renderTimes g k v) := by
  induction k with
  | zero => exact h
  | succ k ih =>
    have hprev := ih (by omega) (natGtF32_false_of_le (by omega) hlimit)
    obtain ⟨hage, -⟩ := renderTimes_still_active (by omega) hprev.1
    rw [renderTimes_succ]
    exact hprev.renderSample ((watchdogFires_of_age hage hk).trans hlimit)

/-- Settles O34, by induction on the number of samples: none of them fires the watchdog, so each rewrites the level. -/
theorem sustainHoldsWithoutDrift : Obligations.SustainHoldsWithoutDrift := by
  unfold Obligations.SustainHoldsWithoutDrift
  intro g v k ha hs hlevel hk hlimit
  have hheld : SustainsAt v.sustain v := ⟨ha, hs, hlevel, rfl⟩
  obtain ⟨ha', hs', hlevel', -⟩ := hheld.renderTimes hk hlimit
  obtain ⟨hage, -⟩ := renderTimes_still_active hk ha'
  exact ⟨ha', hs', hlevel', hage⟩

end Sys2Proof.Machine
end

section
/-! `NOTE_ON` and `NOTE_OFF` (43_pool_commands.md section 3): the one voice that a `NOTE_ON` triggers, the rotation of steals
through a full pool, and the voices that a `NOTE_OFF` releases. -/

namespace Sys2Proof.Machine

theorem checkedOperand_admitted {ok : Bool} (h : ok = true) (f : State → State) (s : State) :
    checkedOperand ok f s = f s :=
  if_pos h

/-! ### NOTE_ON (R201, R202) -/

theorem exec_noteOn_admitted {vel : F32} (h : inUnitRange vel = true) (note : BitVec 8) (s : State) :
    exec (.noteOn note vel) s = .next (noteOnEffect note vel s) :=
  congrArg _ (checkedOperand_admitted h _ s)

/-- The lowest free voice is triggered, and no global register changes. -/
theorem noteOnEffect_free (note : BitVec 8) (vel : F32) {s : State} {i : Fin 16} (hf : s.voices[i].active = false)
    (hl : ∀ j : Fin 16, j < i → s.voices[j].active = true) :
    noteOnEffect note vel s = s.setVoice i (triggerVoice s.g (note.truncate 7) vel) := by
  rw [noteOnEffect, allocateVoice_free s i hf hl]
  rfl

/-- With every voice active the voice at the cursor is triggered, and the cursor advances. -/
theorem noteOnEffect_full (note : BitVec 8) (vel : F32) {s : State} (h : ∀ j : Fin 16, s.voices[j].active = true) :
    noteOnEffect note vel s =
      State.setVoice { s with g := { s.g with cursor := s.g.cursor + 1 } } s.g.cursor.toFin
        (triggerVoice s.g (note.truncate 7) vel) := by
  rw [noteOnEffect, allocateVoice_steal s h]
  rfl

/-- Settles O12: the allocator finds the lowest free voice, or finds the pool full and steals at the cursor. -/
theorem noteOnAllocatesAndTriggers : Obligations.NoteOnAllocatesAndTriggers := by
  unfold Obligations.NoteOnAllocatesAndTriggers
  refine fun s note vel => ⟨fun hv => ⟨fun i hf hl => ?_, fun hall => ?_⟩,
    fun hv => exec_of_not_admitted (i := .noteOn note vel) hv s, free_or_full s⟩
  · rw [exec_noteOn_admitted hv, noteOnEffect_free note vel hf hl]
    rfl
  · rw [exec_noteOn_admitted hv, noteOnEffect_full note vel hall]
    rfl

/-! ### Steals in rotation (R201) -/

theorem commandEffect_noteOn {note : BitVec 8} {vel : F32} (hn : noteFits note = true) (hv : inUnitRange vel = true)
    (s : State) : commandEffect s (encode (.noteOn note vel)) = noteOnEffect note vel s := by
  rw [commandEffect, decode_encode (i := .noteOn note vel) hn]
  exact checkedOperand_admitted hv _ s

theorem commandsEffect_append (s : State) (ws ws' : List CmdWord) :
    commandsEffect s (ws ++ ws') = commandsEffect (commandsEffect s ws) ws' :=
  List.foldl_append

/-- Settles O15, by induction from the last note: the notes before it have moved the cursor to the voice that it steals, and
the snapshot it triggers with differs from the first one in the cursor alone. -/
theorem stealsRotateThroughThePool : Obligations.StealsRotateThroughThePool := by
  unfold Obligations.StealsRotateThroughThePool
  intro notes s hadmitted hfull
  induction notes using List.reverseRecOn with
  | nil => exact ⟨by simp [commandsEffect], hfull, by simp⟩
  | append_singleton notes n ih =>
    obtain ⟨hg, hfull', -⟩ := ih fun m hm => hadmitted m (List.mem_append_left _ hm)
    obtain ⟨hn, hv⟩ := hadmitted n (by simp)
    rw [List.map_append, commandsEffect_append]
    generalize commandsEffect s (notes.map fun n => encode (.noteOn n.1 n.2)) = t at hg hfull'
    have hstep : commandsEffect t ([n].map fun n => encode (.noteOn n.1 n.2)) =
        State.setVoice { t with g := { t.g with cursor := t.g.cursor + 1 } } t.g.cursor.toFin
          (triggerVoice t.g (n.1.truncate 7) n.2) :=
      (commandEffect_noteOn hn hv t).trans (noteOnEffect_full n.1 n.2 hfull')
    rw [hstep]
    refine ⟨?_, fun j => ?_, fun m hm => ?_⟩
    · simp [hg, BitVec.ofNat_add, BitVec.add_assoc]
    · rw [setVoice_get]
      split
      · rfl
      · exact hfull' j
    · obtain rfl : n = m := by simpa using hm
      rw [setVoice_get, if_pos (by simp [hg]), hg]
      rfl

/-! ### NOTE_OFF (R203) -/

/-- Settles O13: each voice is released or left alone, by its own registers. -/
theorem noteOffReleasesEveryHolder : Obligations.NoteOffReleasesEveryHolder := by
  unfold Obligations.NoteOffReleasesEveryHolder
  refine fun s note => ⟨_, exec_noteOff note s, rfl, fun i => ?_⟩
  rw [State.mapVoices_voices, mapBank_get]
  generalize s.voices[i] = v
  by_cases hh : v.active = true ∧ v.note.zeroExtend 8 = note
  · have hholds : holdsNote note v = true := by simpa [holdsNote] using hh
    rw [noteOffVoice, if_pos hholds, releaseVoice]
    simp only [hh, true_and]
    rfl
  · have hholds : ¬holdsNote note v = true := by simpa [holdsNote] using hh
    rw [noteOffVoice, if_neg hholds, if_neg fun h => hh ⟨h.1, h.2.1⟩]

end Sys2Proof.Machine
end

section
/-! The parameter commands, `RESET` and `NOP` (43_pool_commands.md sections 4 and 6): what each writes, and what the ADSR
commands propagate to the active voices. -/

namespace Sys2Proof.Machine

/-! ### ADSR commands (R204 to R207, R210) -/

/-- Propagation of the global registers `g` from any state: `update_adsr` on the active voices alone. -/
theorem propagateAdsr_propagatedTo (s : State) (g : Globals) : PropagatedTo s g (propagateAdsr { s with g := g }) := by
  refine ⟨rfl, fun i => ?_⟩
  rw [propagateAdsr, State.mapVoices_voices, mapBank_get]
  refine ⟨fun h => if_neg (ne_true_of_eq_false h), fun h => ?_⟩
  rw [if_pos h, updateAdsr, if_pos h, incFor_eq_incByState]
  rfl

/-- An admitted ADSR write, propagated. -/
theorem setAdsrParam_propagatedTo {ok : Bool} (h : ok = true) (write : Globals → Globals) (s : State) :
    PropagatedTo s (write s.g) (setAdsrParam ok write s) := by
  rw [setAdsrParam, checkedOperand_admitted h]
  exact propagateAdsr_propagatedTo s (write s.g)

/-- Settles O17: the four commands differ in their operand check and in the register they write. -/
theorem adsrCommandsWriteAndPropagate : Obligations.AdsrCommandsWriteAndPropagate := by
  unfold Obligations.AdsrCommandsWriteAndPropagate
  refine fun s v => ⟨fun h => ⟨_, rfl, setAdsrParam_propagatedTo h _ s⟩, fun h => ⟨_, rfl, setAdsrParam_propagatedTo h _ s⟩,
    fun h => ⟨_, rfl, setAdsrParam_propagatedTo h _ s⟩, fun h => ⟨_, rfl, setAdsrParam_propagatedTo h _ s⟩,
    fun h i hi => exec_of_not_admitted ?_ s, fun h => exec_of_not_admitted (i := .setSustain v) h s⟩
  simp only [List.mem_cons, List.not_mem_nil, or_false] at hi
  rcases hi with rfl | rfl | rfl <;> exact h

/-! ### SET_VOLUME and SET_WAVEFORM (R208, R209) -/

/-- Settles O18: an admitted operand goes to the volume register, and there is no propagation. -/
theorem setVolumeWritesTheGain : Obligations.SetVolumeWritesTheGain := by
  unfold Obligations.SetVolumeWritesTheGain
  exact fun s v => ⟨fun h => congrArg _ (checkedOperand_admitted h _ s),
    fun h => exec_of_not_admitted (i := .setVolume v) h s⟩

/-- Truncation of an admitted waveform operand is the natural floor, which is 0 for an operand below 0. -/
theorem f32Trunc_eq_natFloor {v : F32} (h : WaveValue v) : f32Trunc v = ⌊f32ToRat v⌋₊ := by
  obtain ⟨htrunc, -⟩ := f32Trunc_waveValue h
  rw [f32Trunc_eq] at htrunc ⊢
  split
  · exact (Int.natCast_floor_eq_floor ‹_›).symm
  · rename_i hneg
    rw [if_neg hneg] at htrunc
    have hle : f32ToRat v ≤ 0 := le_of_not_ge hneg
    rw [Nat.floor_of_nonpos hle]
    exact le_antisymm (Int.ceil_le.2 (by simpa using hle)) htrunc

/-- Settles O19: the 3 bits of the truncation are those of the natural floor, which is at most 7. -/
theorem setWaveformStoresTheTruncation : Obligations.SetWaveformStoresTheTruncation := by
  unfold Obligations.SetWaveformStoresTheTruncation
  refine fun s v => ⟨fun h => ?_, fun h => exec_of_not_admitted (i := .setWaveform v) h s⟩
  have hwave := (inWaveRange_iff v).1 h
  have hfloor := f32Trunc_eq_natFloor hwave
  have hselect : waveSelect v = BitVec.ofNat 3 ⌊f32ToRat v⌋₊ := by rw [waveSelect, hfloor, BitVec.ofInt_natCast]
  have hle := (f32Trunc_waveValue hwave).2
  refine ⟨?_, by omega⟩
  rw [← hselect]
  exact congrArg _ (checkedOperand_admitted h _ s)

/-! ### RESET and NOP (R214, R215) -/

/-- Settles O27: the bank is mapped by `force_idle`, and no other field is written. -/
theorem resetForcesEveryVoiceIdle : Obligations.ResetForcesEveryVoiceIdle := by
  unfold Obligations.ResetForcesEveryVoiceIdle
  refine fun s => ⟨s.mapVoices forceIdle, rfl, rfl, fun i => ?_⟩
  rw [State.mapVoices_voices, mapBank_get]
  rfl

/-- Settles O28: the word is format C of zero fields, and the command answers the state it is given. -/
theorem nopChangesNothing : Obligations.NopChangesNothing := by
  unfold Obligations.NopChangesNothing
  exact ⟨by decide, fun _ => rfl⟩

end Sys2Proof.Machine
end

section
/-! `RENDER` (43_pool_commands.md section 5): its first frame and the ordered sum of the frame's lanes, its completion, and the
frames of a pool with no voice active. -/

namespace Sys2Proof.Machine

/-! ### The summing stage (R211) -/

theorem renderLanes_toList (s : State) :
    (renderLanes s).toArray.toList = (List.finRange 16).map fun i => renderSample s.g s.voices[i] := by
  refine List.ext_getElem (by simp) fun i hi _ => ?_
  have hi16 : i < 16 := by simpa using hi
  rw [bank_toList_get, renderLanes_get s i hi16]
  simp

/-- The mix of a frame is the ordered sum over the voices. -/
theorem mixLanes_renderLanes (s : State) :
    mixLanes (renderLanes s) =
      (List.finRange 16).foldl (fun acc i => f32Add acc (renderSample s.g s.voices[i]).sample) c0 := by
  rw [mixLanes, renderLanes_toList, List.foldl_map]

/-! ### The first frame and the last (R213) -/

/-- A `RENDER` of at least one frame, with none pending, makes its first frame step. -/
theorem exec_render_first {k : BitVec 32} (hk : k ≠ 0) {s : State} (hp : s.framePort = none) :
    exec (.render k) s = .next (frameStep { s with renderLeft := k - 1 }) :=
  congrArg _ (renderProgress_rendering (s := { s with renderLeft := k }) hp hk)

/-- A `RENDER` with no frame to render, or with one pending, only notes how many frames are left. -/
theorem exec_render_held {k : BitVec 32} {s : State} (h : k = 0 ∨ portBusy s = true) :
    exec (.render k) s = .next { s with renderLeft := k } :=
  congrArg _ (if_pos h)

/-- Settles O22: the step is a frame step of a `RENDER` with `k - 1` frames left, or it is held. -/
theorem renderEmitsItsFirstFrame : Obligations.RenderEmitsItsFirstFrame := by
  unfold Obligations.RenderEmitsItsFirstFrame
  refine fun s k => ⟨fun hk hr => ?_, fun hk hp => ?_, fun hp => exec_render_held (.inr hp)⟩
  · rw [exec_render_held (.inl hk), hk, ← hr]
  · refine ⟨_, frameValue s, exec_render_first hk hp, ?_, fun i => frameStep_get _ i, ?_⟩
    · rw [frameValue, mixLanes_renderLanes]
      rfl
    · have hvalue : frameValue { s with renderLeft := k - 1 } = frameValue s := frameValue_congr rfl rfl
      refine ⟨frameStep_renderLeft _, frameStep_g _, frameStep_fifo _, frameStep_hostAccepts _, ?_, ?_⟩
      · rw [frameStep_output, hvalue]
      · rw [frameStep_framePort, hvalue, hp]

/-- Settles O23: the run of a `RENDER` that is the oldest word. -/
theorem renderCompletesInItsFrames : Obligations.RenderCompletesInItsFrames := by
  unfold Obligations.RenderCompletesInItsFrames
  exact fun s k rest h hq hf => run_render h hq hf (decode_encode rfl)

/-! ### Silence -/

section Silence

variable {s : State} (h : ∀ i : Fin 16, s.voices[i].active = false)

include h

/-- With no voice active the mix is the `+0.0` it starts from. -/
theorem mixLanes_silent : mixLanes (renderLanes s) = c0 := by
  have hzero : f32Add c0 c0 = c0 := by decide
  rw [mixLanes_renderLanes]
  refine List.foldl_fixed' (fun i => ?_) _
  rw [renderSample_inactive (h i)]
  exact hzero

/-- The value of a silent frame is the zero of the volume's sign. -/
theorem frameValue_silent (hvol : f32IsFinite s.g.volume = true) :
    frameValue s = signedZero (f32Sign s.g.volume) := by
  have hsign : f32SignXor c0 s.g.volume = f32Sign s.g.volume := Bool.false_xor _
  rw [frameValue, mixLanes_silent h, f32Mul_finite (by decide) hvol, hsign, show f32Mag c0 = 0 from rfl, magUnits_zero,
    Nat.zero_mul, roundMag_zero (by positivity), signedZero_eq_pack]

/-- A silent frame that the host accepts changes the output stream alone. -/
theorem frameStep_silent (ha : s.hostAccepts = true) :
    frameStep s = { s with output := s.output ++ [⟨frameValue s, frameValue s⟩] } := by
  have hvoices : mapBank Rendered.voice (renderLanes s) = s.voices := by
    refine bank_ext fun i => ?_
    rw [renderLanes, mapBank_get, mapBank_get, renderSample_inactive (h i)]
  rw [frameStep, hvoices, emitFrame, if_pos ha]

theorem renderFrames_silent (ha : s.hostAccepts = true) (k : Nat) :
    renderFrames k s = { s with output := s.output ++ List.replicate k ⟨frameValue s, frameValue s⟩ } := by
  induction k generalizing s with
  | zero => simp [renderFrames]
  | succ k ih =>
    have hvalue : frameValue { s with output := s.output ++ [⟨frameValue s, frameValue s⟩] } = frameValue s :=
      frameValue_congr rfl rfl
    have hrest := ih (s := { s with output := s.output ++ [⟨frameValue s, frameValue s⟩] }) h ha
    rw [hvalue, List.append_assoc] at hrest
    rw [renderFrames, frameStep_silent h ha, hrest, List.replicate_succ]
    rfl

end Silence

/-- Settles O26: each frame is the zero of the volume's sign. -/
theorem silenceStaysSilent : Obligations.SilenceStaysSilent := by
  unfold Obligations.SilenceStaysSilent
  intro s k h hvol ha
  rw [renderFrames_silent h ha, frameValue_silent h hvol.1]
  refine ⟨rfl, rfl, ?_⟩
  cases f32Sign s.g.volume <;> rfl

end Sys2Proof.Machine
end

section
/-! Rejections, the error registers, the waits of the block and the fault of a computed NaN (60_exceptions.md). -/

namespace Sys2Proof.Machine

/-! ### Rejection (R242) and the sticky error registers (R243) -/

/-- Settles O7: the step takes the word, and a rejection writes no voice and emits no frame, so it is never a fault. -/
theorem rejectionOnlyLatchesItsCause : Obligations.RejectionOnlyLatchesItsCause := by
  unfold Obligations.RejectionOnlyLatchesItsCause
  refine ⟨fun s w rest c hp hr hf hd => ?_, fun i s h => exec_of_not_admitted h s, rfl, rfl, rfl, rfl⟩
  exact step_eq_next.2 ⟨blockStep_reject hp hr hf hd, computesNaN_of_kept rfl rfl rfl⟩

/-- A step latches a cause into the error registers, as a rejection does, or keeps both of them. -/
theorem step_errorRegisters {s t : State} (h : step s = .next t) :
    (∃ c, t.g = latchError c s.g) ∨ t.g.err = s.g.err ∧ t.g.errCause = s.g.errCause := by
  rcases step_globals h with e | hlatch | e | hw | ⟨v, -, e⟩ | ⟨v, e⟩
  · exact .inr (by simp [e])
  · exact .inl hlatch
  · exact .inr (by simp [e])
  · exact .inr (by rw [hw.only_adsr]; exact ⟨rfl, rfl⟩)
  · exact .inr (by simp [e])
  · exact .inr (by simp [e])

/-- Settles O9: a latch keeps a flag and a cause that are already set, and no step clears them. -/
theorem errorRegistersAreSticky : Obligations.ErrorRegistersAreSticky := by
  unfold Obligations.ErrorRegistersAreSticky
  refine ⟨fun s t h hs => ?_, fun sr p => ⟨rfl, rfl⟩, fun s => ?_⟩
  · rcases step_errorRegisters h with ⟨c, e⟩ | ⟨herr, hcause⟩
    · rw [e, latchError_errCause, if_pos hs]
      exact ⟨rfl, rfl⟩
    · exact ⟨herr.trans hs, hcause⟩
  · obtain ⟨-, -, herr, hcause, -⟩ := statusWord_fields s
    rw [observe_status]
    exact ⟨herr, hcause⟩

/-! ### Waiting (R251, R265) -/

theorem step_idle {s : State} (hr : s.renderLeft = 0) (hf : s.fifo = []) : step s = .next s := by
  refine step_eq_next.2 ⟨?_, computesNaN_of_kept rfl rfl rfl⟩
  simp [blockStep, fetchWord, hr, hf]

/-- A state that a step leaves alone is where every run from it ends. -/
theorem run_of_step_self {s : State} (h : step s = .next s) (n : Nat) : Host.Core.run Sys2Proof.core n s = .next s := by
  induction n with
  | zero => rfl
  | succ n ih => rw [run_succ h, ih]

/-- A host that does not accept is left with the first frame of a `RENDER` in its port. -/
theorem step_render_unaccepted {s : State} {k : BitVec 32} {rest : List CmdWord} (h : OutputInv s)
    (hp : s.framePort = none) (hr : s.renderLeft = 0) (ha : s.hostAccepts = false)
    (hf : s.fifo = encode (.render k) :: rest) (hk : k ≠ 0) :
    ∃ t, step s = .next t ∧ t.fifo = rest ∧ t.renderLeft = k - 1 ∧ t.framePort.isSome = true := by
  refine ⟨_, (step_command_of_outputInv hp hr hf (decode_encode rfl) h).trans (exec_render_first hk hp), ?_, ?_, ?_⟩
  · rw [frameStep_fifo]
  · rw [frameStep_renderLeft]
  · simp [ha]

theorem step_rendering {s : State} (hp : s.framePort = none) (hr : s.renderLeft ≠ 0) :
    step s = faultOnNaN s (.next (frameStep { s with renderLeft := s.renderLeft - 1 })) := by
  rw [step, blockStep_rendering hp hr, renderProgress_rendering hp hr]

theorem hostAccept_pending {s : State} {f : Frame} (h : s.framePort = some f) :
    hostAccept s = { s with framePort := none, output := s.output ++ [f] } := by
  rw [hostAccept, h]

/-- Settles O24: with nothing to do or a frame pending a step keeps the state, and once the host has accepted the frame
the port is empty. -/
theorem theBlockWaitsOnlyForItsHost : Obligations.TheBlockWaitsOnlyForItsHost := by
  unfold Obligations.TheBlockWaitsOnlyForItsHost
  refine ⟨fun s => step_idle, fun s hp => run_of_step_self (step_held hp), fun s k rest h hp hr ha hf hk => ?_,
    fun s f hp => ⟨hostAccept_pending hp, fun hr => ?_, fun w rest i hr hf hd => ?_⟩⟩
  · obtain ⟨t, hstep, hfifo, hleft, hport⟩ := step_render_unaccepted h hp hr ha hf hk
    exact ⟨t, hfifo, hleft, fun n => (run_succ hstep n).trans (run_of_step_self (step_held hport) n)⟩
  · rw [← hostAccept_renderLeft s] at hr ⊢
    exact step_rendering (hostAccept_framePort s) hr
  · rw [← hostAccept_renderLeft s] at hr
    rw [← hostAccept_fifo s] at hf
    exact step_command (hostAccept_framePort s) hr hf hd

/-! ### The fault of a computed NaN (93_implementation_defined.md I10) -/

theorem newNaN_iff (old new : F32) : newNaN old new = true ↔ f32IsNaN new = true ∧ new ≠ old := by
  simp [newNaN]

theorem voiceNewNaN_iff (old new : Voice) :
    voiceNewNaN old new = true ↔ ∃ r ∈ [Voice.phase, Voice.phaseInc, Voice.envLevel, Voice.envInc],
      f32IsNaN (r new) = true ∧ r new ≠ r old := by
  simp [voiceNewNaN, newNaN_iff, or_assoc]

theorem frameHoldsNaN_iff (f : Frame) : frameHoldsNaN f = true ↔ f32IsNaN f.left = true ∨ f32IsNaN f.right = true := by
  rw [frameHoldsNaN, Bool.or_eq_true]

/-- The frame port has a frame with a NaN that it did not have. -/
theorem portNewNaN_iff (old new : Option Frame) :
    (new != old && new.any frameHoldsNaN) = true ↔ ∃ f, (new = some f ∧ old ≠ some f) ∧ frameHoldsNaN f = true := by
  cases new with
  | none => simp
  | some f => simp [eq_comm (a := old)]

theorem computesNaN_iff (s t : State) :
    computesNaN s t = true ↔ (∃ i : Fin 16, voiceNewNaN s.voices[i] t.voices[i] = true) ∨
      ∃ f : Frame, (t.framePort = some f ∧ s.framePort ≠ some f ∨ f ∈ t.output.drop s.output.length) ∧
        frameHoldsNaN f = true := by
  rw [computesNaN, Bool.or_eq_true, Bool.or_eq_true, portNewNaN_iff, List.any_eq_true, List.any_eq_true, or_assoc]
  simp only [List.mem_finRange, true_and, or_and_right, exists_or]

/-- Settles O46: the block's step always goes on, and in an admitted state it is the machine's. -/
theorem stepFaultsOnlyOnAComputedNaN : Obligations.StepFaultsOnlyOnAComputedNaN := by
  unfold Obligations.StepFaultsOnlyOnAComputedNaN
  refine ⟨fun s => ?_, fun s t => ?_, fun s h => ?_⟩
  · obtain ⟨t, ht⟩ := blockStep_next s
    exact ⟨t, ht, congrArg (faultOnNaN s) ht⟩
  · simp only [computesNaN_iff, voiceNewNaN_iff, frameHoldsNaN_iff]
  · rw [step_eq_blockStep h]
    exact blockStep_next s

end Sys2Proof.Machine
end

section
/-! What the host does to a block (70_reset_and_hazards.md R261, R263, R265): apart from activation and deactivation, a host
event only moves words into the FIFO and frames out of the port. -/

namespace Sys2Proof.Machine

theorem hostAccept_eq (s : State) :
    hostAccept s = { s with framePort := none, output := s.output ++ s.framePort.toList } := by
  cases h : s.framePort with
  | none =>
    rw [hostAccept, h, Option.toList_none, List.append_nil]
    exact congrArg (fun port => { s with framePort := port }) h
  | some f => exact hostAccept_pending h

@[simp] theorem hostSetAccepts_true (s : State) : hostSetAccepts true s = { hostAccept s with hostAccepts := true } := rfl

@[simp] theorem hostSetAccepts_false (s : State) : hostSetAccepts false s = { s with hostAccepts := false } := rfl

theorem hostEvent_activate_refused (p : InitParams) {sr : F32} (b : Block) (h : rateAdmitted sr = false) :
    b.hostEvent p (.activate sr) = .refused (.sampleRate sr) := by
  simp [Block.hostEvent, h]

/-- A function of the host that writes no register: the ports are all it reaches. -/
def KeepsRegisters (f : State → State) : Prop :=
  ∀ s, (f s).voices = s.voices ∧ (f s).g = s.g ∧ (f s).renderLeft = s.renderLeft

theorem hostWrite_keepsRegisters (w : CmdWord) : KeepsRegisters (hostWrite w) := fun _ => ⟨rfl, rfl, rfl⟩

theorem hostAccept_keepsRegisters : KeepsRegisters hostAccept :=
  fun s => ⟨hostAccept_voices s, hostAccept_g s, hostAccept_renderLeft s⟩

theorem hostSetAccepts_keepsRegisters (v : Bool) : KeepsRegisters (hostSetAccepts v) := by
  cases v with
  | false => exact fun _ => ⟨rfl, rfl, rfl⟩
  | true => exact hostAccept_keepsRegisters

/-- An event other than activation and deactivation acts on the state of an active block only, and writes no register. -/
theorem hostEvent_eq_onActive (p : InitParams) {e : HostEvent} (hact : ∀ sr, e ≠ .activate sr) (hdeact : e ≠ .deactivate) :
    ∃ f, KeepsRegisters f ∧ ∀ b : Block, b.hostEvent p e = .next (b.onActive f) := by
  cases e with
  | activate sr => exact absurd rfl (hact sr)
  | deactivate => exact absurd rfl hdeact
  | writeWord w => exact ⟨_, hostWrite_keepsRegisters w, fun _ => rfl⟩
  | acceptFrame => exact ⟨_, hostAccept_keepsRegisters, fun _ => rfl⟩
  | setAccepts v => exact ⟨_, hostSetAccepts_keepsRegisters v, fun _ => rfl⟩
  | changeRate sr => exact ⟨id, fun _ => ⟨rfl, rfl, rfl⟩, fun b => by cases b <;> rfl⟩

theorem hostEvent_setAccepts_true (p : InitParams) (s : State) :
    Block.hostEvent p (.setAccepts true) (.active s) =
      .next (.active { s with hostAccepts := true, framePort := none, output := s.output ++ s.framePort.toList }) := by
  simp [Block.hostEvent, Block.onActive, hostAccept_eq]

theorem hostEvent_inactive (p : InitParams) {e : HostEvent} (hact : ∀ sr, e ≠ .activate sr) :
    Block.hostEvent p e .inactive = .next .inactive := by
  by_cases hdeact : e = .deactivate
  · rw [hdeact, Block.hostEvent]
  · obtain ⟨f, -, hf⟩ := hostEvent_eq_onActive p hact hdeact
    exact hf .inactive

/-- Settles O51: each event's effect is its port function's, and none of these reaches a register. -/
theorem hostEventsActOnlyThroughThePorts : Obligations.HostEventsActOnlyThroughThePorts := by
  unfold Obligations.HostEventsActOnlyThroughThePorts
  refine ⟨fun p sr b => hostEvent_activate_refused p b, fun p b => rfl, fun p s w => rfl, fun p s sr => rfl,
    fun p s => ⟨rfl, hostAccept_eq s, hostEvent_setAccepts_true p s, rfl⟩, fun p e s hact hdeact => ?_,
    fun p e => hostEvent_inactive p⟩
  obtain ⟨f, hkeep, hf⟩ := hostEvent_eq_onActive p hact hdeact
  exact ⟨f s, hf (.active s), hkeep s⟩

end Sys2Proof.Machine
end
